-- ==== Sys2Proof/Word.lean ====
section
/-! DEFINITION. The machine's units of data: 16-bit words, 8-bit bytes, 4-bit register numbers
(00_scope R7, R13; 10_state R30). -/

namespace Sys2Proof

/-- A 16-bit word: a register's contents, an address, an instruction word (00_scope R7). -/
abbrev Word := BitVec 16

/-- A byte, the unit of memory (10_state R50). -/
abbrev Byte := BitVec 8

/-- A register number 0 to 15 (10_state R31). -/
abbrev Reg := BitVec 4

end Sys2Proof
end

