-- ==== Sys2Proof/Syntax.lean ====
section
/-! DEFINITION. The instruction set as syntax: one constructor per row of spec/opcode_table.json
(30_encoding R118, R119).

Operand fields are the words' own bits. A field the shape does not use (30_encoding R121) is kept
as an argument named `x`, so that no bit of a word is lost: the decoder is then undone by the
encoder on every word, and DIVIL can report the very word fetched (42_arithmetic R229). -/

namespace Sys2Proof

/-- The four flags, in the order the condition code numbers them: 00 C, 01 Z, 10 O, 11 S
(10_state R40; 30_encoding R113). -/
inductive Flag where
  | c
  | z
  | o
  | s
  deriving DecidableEq, Repr

/-- The condition bits of a control-flow word: CE (bit 13), INV (bit 12) and CC (bits 11-10)
(30_encoding R113). -/
structure Cond where
  ce  : Bool
  inv : Bool
  cc  : Flag
  deriving DecidableEq, Repr

/-- One instruction, its trailing word `imm` included (30_encoding R114 gives the shapes). -/
inductive Instr where
  -- system (49_system) and RET (48_control_transfer)
  | nop     (x : BitVec 8)
  | halt    (x : BitVec 8)
  | ret     (x : BitVec 8)
  | syscall (n : BitVec 8)
  -- data movement (41_moves)
  | mov     (ra rb : Reg)
  | movi    (ra : Reg) (k : BitVec 4)
  | movil   (ra : Reg) (x : BitVec 4) (imm : Word)
  | movai   (k : BitVec 8)
  -- arithmetic (42_arithmetic)
  | add     (ra rb : Reg)
  | addi    (ra : Reg) (u : BitVec 4)
  | addil   (ra : Reg) (x : BitVec 4) (imm : Word)
  | sub     (ra rb : Reg)
  | subi    (ra : Reg) (u : BitVec 4)
  | subil   (ra : Reg) (x : BitVec 4) (imm : Word)
  | mul     (ra rb : Reg)
  | mulil   (ra : Reg) (x : BitVec 4) (imm : Word)
  | div     (ra rb : Reg)
  | divil   (ra : Reg) (x : BitVec 4) (imm : Word)
  -- bitwise boolean (43_bitwise)
  | and     (ra rb : Reg)
  | andil   (ra : Reg) (x : BitVec 4) (imm : Word)
  | or      (ra rb : Reg)
  | oril    (ra : Reg) (x : BitVec 4) (imm : Word)
  | xor     (ra rb : Reg)
  | xoril   (ra : Reg) (x : BitVec 4) (imm : Word)
  | not     (ra : Reg) (x : BitVec 4)
  -- shift and rotate (44_shift_rotate)
  | shl     (ra rb : Reg)
  | shli    (ra : Reg) (u : BitVec 4)
  | shr     (ra rb : Reg)
  | shri    (ra : Reg) (u : BitVec 4)
  | rol     (ra rb : Reg)
  | roli    (ra : Reg) (u : BitVec 4)
  | ror     (ra rb : Reg)
  | rori    (ra : Reg) (u : BitVec 4)
  | rlc     (ra rb : Reg)
  | rlci    (ra : Reg) (u : BitVec 4)
  | rrc     (ra rb : Reg)
  | rrci    (ra : Reg) (u : BitVec 4)
  -- bit operations (45_bit_ops)
  | bit     (ra : Reg) (u : BitVec 4)
  | bset    (ra : Reg) (u : BitVec 4)
  | bclr    (ra : Reg) (u : BitVec 4)
  -- loads and stores (46_load_store)
  | ld      (ra rb : Reg)
  | ldb     (ra rb : Reg)
  | st      (ra rb : Reg)
  | stb     (ra rb : Reg)
  | ldx     (ra rb : Reg) (imm : Word)
  | ldbx    (ra rb : Reg) (imm : Word)
  | stx     (ra rb : Reg) (imm : Word)
  | stbx    (ra rb : Reg) (imm : Word)
  -- stacks (47_stack)
  | push    (ra : Reg) (x : BitVec 4)
  | pop     (ra : Reg) (x : BitVec 4)
  | rpush   (ra : Reg) (x : BitVec 4)
  | rpop    (ra : Reg) (x : BitVec 4)
  -- control transfer (48_control_transfer)
  | jp      (cond : Cond) (x : BitVec 8) (imm : Word)
  | jr      (cond : Cond) (disp : BitVec 8)
  | jx      (cond : Cond) (rx : Reg) (off : BitVec 4)
  | jxl     (cond : Cond) (rx : Reg) (x : BitVec 4) (imm : Word)
  | call    (cond : Cond) (x : BitVec 8) (imm : Word)
  | callr   (cond : Cond) (disp : BitVec 8)
  | callx   (cond : Cond) (rx : Reg) (off : BitVec 4)
  | callxl  (cond : Cond) (rx : Reg) (x : BitVec 4) (imm : Word)
  deriving DecidableEq, Repr

end Sys2Proof
end

