-- ==== Sys2Proof/WellFormed.lean ====
section
/-! DEFINITION. The instructions in the form the assembler emits: 0 in every ignored field
(30_encoding R121, R132). The bit-vector fields already hold nothing out of range, so this is the
only check. The engine runs an instruction that fails it all the same (30_encoding R121). -/

namespace Sys2Proof

/-- INV and CC are ignored when CE = 0, and the assembler then writes 0 in both
(30_encoding R121, R132). -/
def Cond.wf (cond : Cond) : Bool :=
  cond.ce || (!cond.inv && cond.cc == .c)

/-- Every field the instruction's shape does not use is 0 (30_encoding R121). -/
def Instr.wf : Instr → Bool
  | .nop x | .halt x | .ret x => x == 0#8
  | .movil _ x _ | .addil _ x _ | .subil _ x _ | .mulil _ x _ | .divil _ x _
  | .andil _ x _ | .oril _ x _ | .xoril _ x _ => x == 0#4
  | .not _ x | .push _ x | .pop _ x | .rpush _ x | .rpop _ x => x == 0#4
  | .jp cond x _ | .call cond x _ => cond.wf && x == 0#8
  | .jr cond _ | .callr cond _ => cond.wf
  | .jx cond _ _ | .callx cond _ _ => cond.wf
  | .jxl cond _ x _ | .callxl cond _ x _ => cond.wf && x == 0#4
  | .syscall _ | .mov _ _ | .movi _ _ | .movai _
  | .add _ _ | .addi _ _ | .sub _ _ | .subi _ _ | .mul _ _ | .div _ _
  | .and _ _ | .or _ _ | .xor _ _
  | .shl _ _ | .shli _ _ | .shr _ _ | .shri _ _ | .rol _ _ | .roli _ _
  | .ror _ _ | .rori _ _ | .rlc _ _ | .rlci _ _ | .rrc _ _ | .rrci _ _
  | .bit _ _ | .bset _ _ | .bclr _ _
  | .ld _ _ | .ldb _ _ | .st _ _ | .stb _ _
  | .ldx _ _ _ | .ldbx _ _ _ | .stx _ _ _ | .stbx _ _ _ => true

end Sys2Proof
end

