-- ==== Sys2Proof/Decode.lean ====
section
/-! DEFINITION. Decoding (30_encoding R110 to R124): total on every word and on any list of bytes,
rejecting by name; then the encoder, written from the same tables (R118, R119, R138), and the
operand range classes and the relative displacement that fix an encoding's bits (R132, R135). -/

namespace Sys2Proof

/-! ## Fields of an instruction word -/

/-- Bit 15 selects the format: true for control-flow (30_encoding R111). -/
def Word.isControl (w : Word) : Bool := w.getLsbD 15

/-- `op`, bits 14-8 (30_encoding R112). -/
def Word.op (w : Word) : BitVec 7 := w.extractLsb' 8 7

/-- Bits 7-4: `ra`, or `rx` of the control-flow format (30_encoding R112, R113). -/
def Word.fieldA (w : Word) : BitVec 4 := w.extractLsb' 4 4

/-- Bits 3-0: `rb`, `imm4` or `off4` (30_encoding R112, R113). -/
def Word.fieldB (w : Word) : BitVec 4 := w.extractLsb' 0 4

/-- Bits 7-0: `imm8` or `disp8` (30_encoding R112, R113). -/
def Word.low8 (w : Word) : BitVec 8 := w.extractLsb' 0 8

/-- Bits 15-8. -/
def Word.high8 (w : Word) : BitVec 8 := w.extractLsb' 8 8

/-- The word of a high and a low byte (20_memory R72: `{mem[a+1], mem[a]}`). -/
def Word.ofBytes (hi low : Byte) : Word := (hi.setWidth 16 <<< 8) ||| low.setWidth 16

/-- The condition code's flag (30_encoding R113: 00 C, 01 Z, 10 O, 11 S). -/
def Flag.ofBits (b : BitVec 2) : Flag :=
  match b.toNat with
  | 0 => .c
  | 1 => .z
  | 2 => .o
  | _ => .s

/-- The two bits of a condition code (30_encoding R113). -/
def Flag.bits : Flag → BitVec 2
  | .c => 0b00#2
  | .z => 0b01#2
  | .o => 0b10#2
  | .s => 0b11#2

/-- CE, INV and CC of a control-flow word (30_encoding R113). -/
def Word.cond (w : Word) : Cond where
  ce  := w.getLsbD 13
  inv := w.getLsbD 12
  cc  := Flag.ofBits (w.extractLsb' 10 2)

/-! ## The decoder -/

/-- A control-flow word with its trailing word; every such word is an instruction
(30_encoding R119, R122). The index is `L` and `MODE`. -/
def decodeControl (w imm : Word) : Instr :=
  match (w.extractLsb' 14 1).toNat, (w.extractLsb' 8 2).toNat with
  | 0, 0 => .jp w.cond w.low8 imm
  | 0, 1 => .jr w.cond w.low8
  | 0, 2 => .jx w.cond w.fieldA w.fieldB
  | 0, _ => .jxl w.cond w.fieldA w.fieldB imm
  | _, 0 => .call w.cond w.low8 imm
  | _, 1 => .callr w.cond w.low8
  | _, 2 => .callx w.cond w.fieldA w.fieldB
  | _, _ => .callxl w.cond w.fieldA w.fieldB imm

/-- The general-format opcode map; `none` for an unassigned opcode (30_encoding R118, R120). -/
def decodeGeneral (w imm : Word) : Option Instr :=
  match w.op.toNat with
  | 0x00 => some (.nop w.low8)
  | 0x01 => some (.halt w.low8)
  | 0x02 => some (.ret w.low8)
  | 0x03 => some (.syscall w.low8)
  | 0x08 => some (.mov w.fieldA w.fieldB)
  | 0x09 => some (.movi w.fieldA w.fieldB)
  | 0x0A => some (.movil w.fieldA w.fieldB imm)
  | 0x0B => some (.movai w.low8)
  | 0x10 => some (.add w.fieldA w.fieldB)
  | 0x11 => some (.addi w.fieldA w.fieldB)
  | 0x12 => some (.addil w.fieldA w.fieldB imm)
  | 0x14 => some (.sub w.fieldA w.fieldB)
  | 0x15 => some (.subi w.fieldA w.fieldB)
  | 0x16 => some (.subil w.fieldA w.fieldB imm)
  | 0x18 => some (.mul w.fieldA w.fieldB)
  | 0x1A => some (.mulil w.fieldA w.fieldB imm)
  | 0x1C => some (.div w.fieldA w.fieldB)
  | 0x1E => some (.divil w.fieldA w.fieldB imm)
  | 0x20 => some (.and w.fieldA w.fieldB)
  | 0x22 => some (.andil w.fieldA w.fieldB imm)
  | 0x24 => some (.or w.fieldA w.fieldB)
  | 0x26 => some (.oril w.fieldA w.fieldB imm)
  | 0x28 => some (.xor w.fieldA w.fieldB)
  | 0x2A => some (.xoril w.fieldA w.fieldB imm)
  | 0x2C => some (.not w.fieldA w.fieldB)
  | 0x30 => some (.shl w.fieldA w.fieldB)
  | 0x31 => some (.shli w.fieldA w.fieldB)
  | 0x32 => some (.shr w.fieldA w.fieldB)
  | 0x33 => some (.shri w.fieldA w.fieldB)
  | 0x34 => some (.rol w.fieldA w.fieldB)
  | 0x35 => some (.roli w.fieldA w.fieldB)
  | 0x36 => some (.ror w.fieldA w.fieldB)
  | 0x37 => some (.rori w.fieldA w.fieldB)
  | 0x38 => some (.rlc w.fieldA w.fieldB)
  | 0x39 => some (.rlci w.fieldA w.fieldB)
  | 0x3A => some (.rrc w.fieldA w.fieldB)
  | 0x3B => some (.rrci w.fieldA w.fieldB)
  | 0x40 => some (.bit w.fieldA w.fieldB)
  | 0x41 => some (.bset w.fieldA w.fieldB)
  | 0x42 => some (.bclr w.fieldA w.fieldB)
  | 0x48 => some (.ld w.fieldA w.fieldB)
  | 0x49 => some (.ldb w.fieldA w.fieldB)
  | 0x4A => some (.st w.fieldA w.fieldB)
  | 0x4B => some (.stb w.fieldA w.fieldB)
  | 0x4C => some (.ldx w.fieldA w.fieldB imm)
  | 0x4D => some (.ldbx w.fieldA w.fieldB imm)
  | 0x4E => some (.stx w.fieldA w.fieldB imm)
  | 0x4F => some (.stbx w.fieldA w.fieldB imm)
  | 0x50 => some (.push w.fieldA w.fieldB)
  | 0x51 => some (.pop w.fieldA w.fieldB)
  | 0x52 => some (.rpush w.fieldA w.fieldB)
  | 0x53 => some (.rpop w.fieldA w.fieldB)
  | _ => none

/-- The decode function on a first word `w` and the trailing word `imm`, which a one-word
instruction does not use; `none` is `Illegal(w)` (30_encoding R124). -/
def decode (w imm : Word) : Option Instr :=
  if w.isControl then some (decodeControl w imm) else decodeGeneral w imm

/-- The general opcodes with a trailing word (30_encoding R117): MOVIL, ADDIL, SUBIL, MULIL, DIVIL,
ANDIL, ORIL, XORIL, LDX, LDBX, STX, STBX. -/
def longOpcodes : List (BitVec 7) :=
  [0x0A#7, 0x12#7, 0x16#7, 0x1A#7, 0x1E#7, 0x22#7, 0x26#7, 0x2A#7, 0x4C#7, 0x4D#7, 0x4E#7, 0x4F#7]

/-- Whether a trailing word follows, known from the first word alone (30_encoding R117): a general
long form, or a control-flow word whose `MODE` is 00 or 11. -/
def Word.isLong (w : Word) : Bool :=
  if w.isControl then w.getLsbD 8 == w.getLsbD 9 else longOpcodes.contains w.op

/-- Why bytes are no instruction. -/
inductive DecodeError where
  /-- The bytes end before the instruction does. -/
  | truncated
  /-- `Illegal(w)`: a general word whose opcode is unassigned (30_encoding R120). -/
  | illegal (w : Word)
  deriving DecidableEq, Repr

/-- The instruction at the front of a list of bytes and the bytes after it; each word is stored low
byte first (30_encoding R110, R138). -/
def decodeBytes : List Byte → Except DecodeError (Instr × List Byte)
  | b0 :: b1 :: rest =>
    let w := Word.ofBytes b1 b0
    if w.isLong then
      match rest with
      | b2 :: b3 :: rest' =>
        match decode w (Word.ofBytes b3 b2) with
        | some i => .ok (i, rest')
        | none => .error (.illegal w)
      | _ => .error .truncated
    else
      match decode w 0#16 with
      | some i => .ok (i, rest)
      | none => .error (.illegal w)
  | _ => .error .truncated

/-- The decoder on an instruction of the opcode table numbered as the table numbers it: bit 0 the
least significant of the first word, the second word above it, every bit from `nbits` up 0. -/
def decodeTableWord (nbits w : Nat) : Option Instr :=
  let v := BitVec.ofNat 32 (w % 2 ^ nbits)
  match decodeBytes [v.extractLsb' 0 8, v.extractLsb' 8 8, v.extractLsb' 16 8, v.extractLsb' 24 8] with
  | .ok (i, _) => some i
  | .error _ => none

/-! ## The encoder -/

/-- A byte from its high and low nibbles. -/
def packNibbles (a b : BitVec 4) : BitVec 8 := (a.setWidth 8 <<< 4) ||| b.setWidth 8

/-- `(op << 8)` with an 8-bit field below; bit 15 is clear in `hi` (30_encoding R118). -/
def packByte (hi low : BitVec 8) : Word := Word.ofBytes hi low

/-- `(op << 8) | (ra << 4) | rb` (30_encoding R118). -/
def packGeneral (hi : BitVec 8) (a b : BitVec 4) : Word := packByte hi (packNibbles a b)

/-- `1 L CE INV CC MODE low8` (30_encoding R113). -/
def packControl (call : BitVec 1) (cond : Cond) (mode : BitVec 2) (low : BitVec 8) : Word :=
  Word.ofBytes
    (0x80#8 ||| (call.setWidth 8 <<< 6) ||| ((BitVec.ofBool cond.ce).setWidth 8 <<< 5)
      ||| ((BitVec.ofBool cond.inv).setWidth 8 <<< 4) ||| (cond.cc.bits.setWidth 8 <<< 2)
      ||| mode.setWidth 8) low

/-- The words of an instruction, in address order (30_encoding R118, R119, R138). -/
def encode : Instr → List Word
  | .nop x => [packByte 0x00#8 x]
  | .halt x => [packByte 0x01#8 x]
  | .ret x => [packByte 0x02#8 x]
  | .syscall n => [packByte 0x03#8 n]
  | .mov ra rb => [packGeneral 0x08#8 ra rb]
  | .movi ra k => [packGeneral 0x09#8 ra k]
  | .movil ra x imm => [packGeneral 0x0A#8 ra x, imm]
  | .movai k => [packByte 0x0B#8 k]
  | .add ra rb => [packGeneral 0x10#8 ra rb]
  | .addi ra u => [packGeneral 0x11#8 ra u]
  | .addil ra x imm => [packGeneral 0x12#8 ra x, imm]
  | .sub ra rb => [packGeneral 0x14#8 ra rb]
  | .subi ra u => [packGeneral 0x15#8 ra u]
  | .subil ra x imm => [packGeneral 0x16#8 ra x, imm]
  | .mul ra rb => [packGeneral 0x18#8 ra rb]
  | .mulil ra x imm => [packGeneral 0x1A#8 ra x, imm]
  | .div ra rb => [packGeneral 0x1C#8 ra rb]
  | .divil ra x imm => [packGeneral 0x1E#8 ra x, imm]
  | .and ra rb => [packGeneral 0x20#8 ra rb]
  | .andil ra x imm => [packGeneral 0x22#8 ra x, imm]
  | .or ra rb => [packGeneral 0x24#8 ra rb]
  | .oril ra x imm => [packGeneral 0x26#8 ra x, imm]
  | .xor ra rb => [packGeneral 0x28#8 ra rb]
  | .xoril ra x imm => [packGeneral 0x2A#8 ra x, imm]
  | .not ra x => [packGeneral 0x2C#8 ra x]
  | .shl ra rb => [packGeneral 0x30#8 ra rb]
  | .shli ra u => [packGeneral 0x31#8 ra u]
  | .shr ra rb => [packGeneral 0x32#8 ra rb]
  | .shri ra u => [packGeneral 0x33#8 ra u]
  | .rol ra rb => [packGeneral 0x34#8 ra rb]
  | .roli ra u => [packGeneral 0x35#8 ra u]
  | .ror ra rb => [packGeneral 0x36#8 ra rb]
  | .rori ra u => [packGeneral 0x37#8 ra u]
  | .rlc ra rb => [packGeneral 0x38#8 ra rb]
  | .rlci ra u => [packGeneral 0x39#8 ra u]
  | .rrc ra rb => [packGeneral 0x3A#8 ra rb]
  | .rrci ra u => [packGeneral 0x3B#8 ra u]
  | .bit ra u => [packGeneral 0x40#8 ra u]
  | .bset ra u => [packGeneral 0x41#8 ra u]
  | .bclr ra u => [packGeneral 0x42#8 ra u]
  | .ld ra rb => [packGeneral 0x48#8 ra rb]
  | .ldb ra rb => [packGeneral 0x49#8 ra rb]
  | .st ra rb => [packGeneral 0x4A#8 ra rb]
  | .stb ra rb => [packGeneral 0x4B#8 ra rb]
  | .ldx ra rb imm => [packGeneral 0x4C#8 ra rb, imm]
  | .ldbx ra rb imm => [packGeneral 0x4D#8 ra rb, imm]
  | .stx ra rb imm => [packGeneral 0x4E#8 ra rb, imm]
  | .stbx ra rb imm => [packGeneral 0x4F#8 ra rb, imm]
  | .push ra x => [packGeneral 0x50#8 ra x]
  | .pop ra x => [packGeneral 0x51#8 ra x]
  | .rpush ra x => [packGeneral 0x52#8 ra x]
  | .rpop ra x => [packGeneral 0x53#8 ra x]
  | .jp cond x imm => [packControl 0#1 cond 0b00#2 x, imm]
  | .jr cond disp => [packControl 0#1 cond 0b01#2 disp]
  | .jx cond rx off => [packControl 0#1 cond 0b10#2 (packNibbles rx off)]
  | .jxl cond rx x imm => [packControl 0#1 cond 0b11#2 (packNibbles rx x), imm]
  | .call cond x imm => [packControl 1#1 cond 0b00#2 x, imm]
  | .callr cond disp => [packControl 1#1 cond 0b01#2 disp]
  | .callx cond rx off => [packControl 1#1 cond 0b10#2 (packNibbles rx off)]
  | .callxl cond rx x imm => [packControl 1#1 cond 0b11#2 (packNibbles rx x), imm]

/-- The two bytes of a word as memory holds them, low byte first (30_encoding R138). -/
def Word.bytes (w : Word) : List Byte := [w.low8, w.high8]

/-- The bytes the assembler emits for an instruction (30_encoding R138). -/
def encodeBytes (i : Instr) : List Byte := (encode i).flatMap Word.bytes

/-- The instruction's length in words: 1, or 2 for a long form (30_encoding R110). -/
def Instr.words (i : Instr) : Nat := (encode i).length

/-! ## What the assembler fixes of an operand's bits -/

/-- The operand range classes (30_encoding R135). -/
inductive RangeClass where
  | tinySigned
  | tinyUnsigned
  | byteSigned
  | byteUnsigned
  | word
  deriving DecidableEq, Repr

/-- The values a class accepts; any other is a RangeError and emits nothing (30_encoding R135). -/
def RangeClass.accepts (k : RangeClass) (v : Int) : Bool :=
  match k with
  | .tinySigned   => decide (-8 ≤ v) && decide (v ≤ 7)
  | .tinyUnsigned => decide (0 ≤ v) && decide (v ≤ 15)
  | .byteSigned   => decide (-128 ≤ v) && decide (v ≤ 127)
  | .byteUnsigned => decide (0 ≤ v) && decide (v ≤ 255)
  | .word         => decide (-32768 ≤ v) && decide (v ≤ 65535)

/-- The class's field width in bits (30_encoding R135). -/
def RangeClass.width : RangeClass → Nat
  | .tinySigned | .tinyUnsigned => 4
  | .byteSigned | .byteUnsigned => 8
  | .word => 16

/-- The field an accepted value is written as: the value modulo 2 to the width; `none` is the
RangeError (30_encoding R135). -/
def RangeClass.field (k : RangeClass) (v : Int) : Option Nat :=
  if k.accepts v then some (v % 2 ^ k.width).toNat else none

/-- The range class of the instruction's immediate operand, for JR and CALLR their displacement;
`none` where it has none (30_encoding R135, the column "used by"). -/
def Instr.rangeClass : Instr → Option RangeClass
  | .movi _ _ | .jx _ _ _ | .callx _ _ _ => some .tinySigned
  | .addi _ _ | .subi _ _ | .shli _ _ | .shri _ _ | .roli _ _ | .rori _ _ | .rlci _ _ | .rrci _ _
  | .bit _ _ | .bset _ _ | .bclr _ _ => some .tinyUnsigned
  | .movai _ | .jr _ _ | .callr _ _ => some .byteSigned
  | .syscall _ => some .byteUnsigned
  | .movil _ _ _ | .addil _ _ _ | .subil _ _ _ | .mulil _ _ _ | .divil _ _ _
  | .andil _ _ _ | .oril _ _ _ | .xoril _ _ _
  | .ldx _ _ _ | .ldbx _ _ _ | .stx _ _ _ | .stbx _ _ _
  | .jp _ _ _ | .jxl _ _ _ _ | .call _ _ _ | .callxl _ _ _ _ => some .word
  | .nop _ | .halt _ | .ret _ | .mov _ _ | .add _ _ | .sub _ _ | .mul _ _ | .div _ _
  | .and _ _ | .or _ _ | .xor _ _ | .not _ _
  | .shl _ _ | .shr _ _ | .rol _ _ | .ror _ _ | .rlc _ _ | .rrc _ _
  | .ld _ _ | .ldb _ _ | .st _ _ | .stb _ _
  | .push _ _ | .pop _ _ | .rpush _ _ | .rpop _ _ => none

/-- The immediate operand's field, as a number; `none` where the instruction has none
(30_encoding R114). -/
def Instr.operandField : Instr → Option Nat
  | .movi _ k | .jx _ _ k | .callx _ _ k
  | .addi _ k | .subi _ k | .shli _ k | .shri _ k | .roli _ k | .rori _ k | .rlci _ k | .rrci _ k
  | .bit _ k | .bset _ k | .bclr _ k => some k.toNat
  | .movai k | .jr _ k | .callr _ k | .syscall k => some k.toNat
  | .movil _ _ k | .addil _ _ k | .subil _ _ k | .mulil _ _ k | .divil _ _ k
  | .andil _ _ k | .oril _ _ k | .xoril _ _ k
  | .ldx _ _ k | .ldbx _ _ k | .stx _ _ k | .stbx _ _ k
  | .jp _ _ k | .jxl _ _ _ k | .call _ _ k | .callxl _ _ _ k => some k.toNat
  | .nop _ | .halt _ | .ret _ | .mov _ _ | .add _ _ | .sub _ _ | .mul _ _ | .div _ _
  | .and _ _ | .or _ _ | .xor _ _ | .not _ _
  | .shl _ _ | .shr _ _ | .rol _ _ | .ror _ _ | .rlc _ _ | .rrc _ _
  | .ld _ _ | .ldb _ _ | .st _ _ | .stb _ _
  | .push _ _ | .pop _ _ | .rpush _ _ | .rpop _ _ => none

/-- The instruction with the number `f` in its immediate operand's field, if it has one
(30_encoding R114). -/
def Instr.withField (i : Instr) (f : Nat) : Instr :=
  match i with
  | .movi ra _ => .movi ra (.ofNat 4 f)
  | .jx c rx _ => .jx c rx (.ofNat 4 f)
  | .callx c rx _ => .callx c rx (.ofNat 4 f)
  | .addi ra _ => .addi ra (.ofNat 4 f)
  | .subi ra _ => .subi ra (.ofNat 4 f)
  | .shli ra _ => .shli ra (.ofNat 4 f)
  | .shri ra _ => .shri ra (.ofNat 4 f)
  | .roli ra _ => .roli ra (.ofNat 4 f)
  | .rori ra _ => .rori ra (.ofNat 4 f)
  | .rlci ra _ => .rlci ra (.ofNat 4 f)
  | .rrci ra _ => .rrci ra (.ofNat 4 f)
  | .bit ra _ => .bit ra (.ofNat 4 f)
  | .bset ra _ => .bset ra (.ofNat 4 f)
  | .bclr ra _ => .bclr ra (.ofNat 4 f)
  | .movai _ => .movai (.ofNat 8 f)
  | .jr c _ => .jr c (.ofNat 8 f)
  | .callr c _ => .callr c (.ofNat 8 f)
  | .syscall _ => .syscall (.ofNat 8 f)
  | .movil ra x _ => .movil ra x (.ofNat 16 f)
  | .addil ra x _ => .addil ra x (.ofNat 16 f)
  | .subil ra x _ => .subil ra x (.ofNat 16 f)
  | .mulil ra x _ => .mulil ra x (.ofNat 16 f)
  | .divil ra x _ => .divil ra x (.ofNat 16 f)
  | .andil ra x _ => .andil ra x (.ofNat 16 f)
  | .oril ra x _ => .oril ra x (.ofNat 16 f)
  | .xoril ra x _ => .xoril ra x (.ofNat 16 f)
  | .ldx ra rb _ => .ldx ra rb (.ofNat 16 f)
  | .ldbx ra rb _ => .ldbx ra rb (.ofNat 16 f)
  | .stx ra rb _ => .stx ra rb (.ofNat 16 f)
  | .stbx ra rb _ => .stbx ra rb (.ofNat 16 f)
  | .jp c x _ => .jp c x (.ofNat 16 f)
  | .jxl c rx x _ => .jxl c rx x (.ofNat 16 f)
  | .call c x _ => .call c x (.ofNat 16 f)
  | .callxl c rx x _ => .callxl c rx x (.ofNat 16 f)
  | .nop _ | .halt _ | .ret _ | .mov _ _ | .add _ _ | .sub _ _ | .mul _ _ | .div _ _
  | .and _ _ | .or _ _ | .xor _ _ | .not _ _
  | .shl _ _ | .shr _ _ | .rol _ _ | .ror _ _ | .rlc _ _ | .rrc _ _
  | .ld _ _ | .ldb _ _ | .st _ _ | .stb _ _
  | .push _ _ | .pop _ _ | .rpush _ _ | .rpop _ _ => i

/-- The instruction with the operand value `v` as its immediate: the check of its range class, `none`
being the RangeError (30_encoding R135). One without an immediate takes no value and stays. -/
def Instr.withOperand (i : Instr) (v : Int) : Option Instr :=
  match i.rangeClass with
  | some k => (k.field v).map i.withField
  | none => some i

/-- The bytes the assembler emits for the instruction with the operand value `v`: none on a RangeError
(30_encoding R135, R138). -/
def Instr.emitWith (i : Instr) (v : Int) : List Byte :=
  match i.withOperand v with
  | some j => encodeBytes j
  | none => []

/-- The word distance of JR and CALLR at `here` to `target`: `(target - here - 2) >> 1`, a floor shift
(30_encoding R135). It is the operand value of their displacement. -/
def relativeDistance (target here : Word) : Int := ((target.toNat : Int) - here.toNat - 2) / 2

/-- The displacement of JR and CALLR at `here` to `target`: the word distance, checked against
byte-signed (30_encoding R135). -/
def relativeDisp (target here : Word) : Option (BitVec 8) :=
  (RangeClass.byteSigned.field (relativeDistance target here)).map (BitVec.ofNat 8)

/-- The condition a suffix stands for: `[C]` is `suffix false .c`, `[NC]` is `suffix true .c`, and
so on through Z, O and S (`[M]`, `[P]`) (30_encoding R132). -/
def Cond.suffix (inv : Bool) (cc : Flag) : Cond := ⟨true, inv, cc⟩

/-- No suffix: CE = INV = CC = 0 (30_encoding R132). -/
def Cond.always : Cond := ⟨false, false, .c⟩

end Sys2Proof
end

