-- ==== Sys2Proof/Config.lean ====
section
/-! DEFINITION. What an implementation fixes and what the host supplies: the parameters of
00_scope R7, the syscall table (10_state R52), the debug settings (20_memory R77, R78), and the one
free value of the model, the choice a syscall handler makes (49_system R392). -/

namespace Sys2Proof

/-- The run state (10_state R45). -/
inductive RunState where
  | halted
  | running
  | faulted
  deriving DecidableEq, Repr

/-- The four flags as the engine holds them (10_state R40). -/
structure Flags where
  c : Bool
  z : Bool
  s : Bool
  o : Bool
  deriving DecidableEq, Repr

/-- `ALIGN_POLICY` (00_scope R7; 20_memory R75). -/
inductive AlignPolicy where
  | warn
  | fail
  deriving DecidableEq, Repr

/-- `ILLEGAL_POLICY` (00_scope R7; 30_encoding R120). -/
inductive IllegalPolicy where
  | nop
  | fault
  deriving DecidableEq, Repr

/-- `O_MASK`: bits 31 to 17 (0xFFFE0000, the default) or bits 31 to 16 (0xFFFF0000)
(00_scope R7; 40_cycle R170). -/
inductive OMask where
  | above16
  | from16
  deriving DecidableEq, Repr

/-- One thing a syscall handler does to the engine (49_system R392): a direct write of a register,
a flag, a memory byte, the run state or the fault record, or one of the data-stack primitives `dpush`
and `dpop` of 47_stack R344. A handler is a relation on the whole state (92 D28), which the fault
record is part of (10_state R47). Re-entering `Step` or `run()` is no act: the spec refuses it
(93 U12). -/
inductive HandlerAct where
  | setReg    (r : Reg) (v : Word)
  | setFlag   (f : Flag) (b : Bool)
  | setByte   (a : Word) (v : Byte)
  | setRun    (r : RunState)
  | setRecord (cause : BitVec 3) (info : BitVec 17) (fpc : Word)
  | dpush     (v : Word)
  | dpop
  deriving DecidableEq, Repr

/-- A handler in a filled slot of the syscall table. `relation`: host code, a relation of which
nothing is known (49_system R392); what it does is the free value `Config.handlerChoice`.
`script`: the handler that performs the listed acts, in order, at every call (DESIGN CHOICE,
log 11). -/
inductive Handler where
  | relation
  | script (acts : List HandlerAct)
  deriving DecidableEq, Repr

/-- The engine's configuration. No instruction changes it (10_state R52). `tableSize` is
`SYSCALL_TABLE_SIZE`; `handlers` lists the filled slots, every other slot being empty. -/
structure Config where
  memSize       : Nat
  alignPolicy   : AlignPolicy
  illegalPolicy : IllegalPolicy
  oMask         : OMask
  tableSize     : Nat
  handlers      : List (BitVec 8 × Handler)
  watch         : Option Word
  writeProtect  : Option (Word × Word)
  deriving DecidableEq, Repr

/-- The configuration of the test vectors (95 section 0): 64 KiB of memory, 256 empty slots, every
policy at its default, no debug setting. MEM_SIZE and the table size are a DESIGN CHOICE
(logs 3, 4). -/
def Config.standard : Config where
  memSize       := 65536
  alignPolicy   := .warn
  illegalPolicy := .nop
  oMask         := .above16
  tableSize     := 256
  handlers      := []
  watch         := none
  writeProtect  := none

/-- The parameters are in the ranges of 00_scope R7: MEM_SIZE 1 to 65536, at most 256 slots. -/
def Config.wf (cfg : Config) : Bool :=
  decide (1 ≤ cfg.memSize) && decide (cfg.memSize ≤ 65536) && decide (cfg.tableSize ≤ 256)

/-- What a handler sees of the engine: the whole of its state (49_system R392; 92 D28), which the
configuration and the output streams are no part of (10_state R52; 20_memory R79). -/
structure HandlerView where
  x      : Vector Word 16
  flags  : Flags
  run    : RunState
  fcause : BitVec 3
  finfo  : BitVec 17
  fpc    : Word
  mem    : List (Nat × Byte)
  deriving DecidableEq, Repr

/-- FREE VALUE (log 6). What the handler `relation` does at the engine's call-out number `call`
(calls made before it), for syscall index `n`, seeing the engine as `view`: the acts that take the
state to one of the states its relation allows, or `none` where it returns no next state. It has no
body: nothing can be proved of its value, so a claim holds for every relation. -/
opaque Config.handlerChoice (call : Nat) (n : BitVec 8) (view : HandlerView) :
    Option (List HandlerAct)

end Sys2Proof
end

