-- ==== Sys2Proof/Machine/State.lean ====
section
/-! DEFINITION. The machine's state (10_state), the reasons a step can stop, and the state right
after reset (70_reset_and_hazards R451). -/

namespace Sys2Proof.Machine

/-- A diagnostic event of the output stream (20_memory R75, R77, R78). -/
inductive Diag where
  /-- A misaligned word access at `a` (R75). -/
  | align (a : Nat)
  /-- A write to the protected byte `b` (R77). -/
  | wprot (b : Nat)
  /-- An access touching the watched byte `a` (R78). -/
  | watch (a : Nat)
  deriving DecidableEq, Repr

/-- The engine's two output streams, oldest event first (00_scope R9 f and g). No rule reads them
(20_memory R79); `calls.length` numbers the call-outs for `Config.handlerChoice` (log 6). -/
structure Output where
  /-- The diagnostic events emitted. -/
  diags : List Diag
  /-- The indices of the SyscallCall call-outs made. -/
  calls : List (BitVec 8)
  deriving DecidableEq, Repr

/-- The whole state of the engine (10_state). -/
structure State where
  /-- The register file x[0] to x[15]; x[15] is the pc (R30, R33). -/
  x      : Vector Word 16
  /-- C, Z, S and O (R40). -/
  flags  : Flags
  /-- Halted, Running or Faulted (R45). -/
  run    : RunState
  /-- The fault record's 3-bit cause code (R47; 60_exceptions R403). -/
  fcause : BitVec 3
  /-- The fault record's 17-bit value (R47). -/
  finfo  : BitVec 17
  /-- The address of the faulting instruction (R47). -/
  fpc    : Word
  /-- Memory, as the list of the bytes that differ from 0, addresses strictly rising (R50; log 2). -/
  mem    : List Host.Cell
  /-- The configuration, which no instruction changes (R52; log 5). -/
  cfg    : Config
  /-- The output streams (00_scope R9; log 12). -/
  out    : Output
  deriving DecidableEq, Repr

/-- Why the machine stops for good, outside the spec's own fault state (which is the run state
`faulted`, a next state: log 15). -/
inductive Fault where
  /-- Raised by SYSCALL: the handler of index `n` returns no next state, so the engine is stuck
  inside the step (49_system R392). Safe: the spec itself gives no next state. -/
  | handlerNeverReturns (n : BitVec 8)
  deriving DecidableEq, Repr

/-- Why the machine refuses an instruction. -/
inductive Refusal where
  /-- Raised by `exec` for an instruction that has no meaning yet. Safe. -/
  | notModelled (mnemonic : String)
  /-- Raised by SYSCALL: the handler of index `n` comes to write a byte outside memory, or to set the
  run state to Faulted; a model refuses such a write (70 R454; 93 U14; log 8). Safe. -/
  | handlerActRefused (n : BitVec 8)
  deriving DecidableEq, Repr

/-- The state right after `Reset` of a newly built engine: run = Running, pc = 0, the fault record 0
(70 R451). Registers 0 to 14 and the flags are draws in the spec; the model names 0 (DESIGN CHOICE,
log 1). Memory lists nothing (log 2). -/
def State.reset : State where
  x      := Vector.replicate 16 0#16
  flags  := ⟨false, false, false, false⟩
  run    := .running
  fcause := 0#3
  finfo  := 0#17
  fpc    := 0#16
  mem    := []
  cfg    := Config.standard
  out    := ⟨[], []⟩

end Sys2Proof.Machine
end

