-- ==== Sys2Proof/Machine/Ops.lean ====
section
/-! DEFINITION. The named operations over registers, memory and outputs: register numbers, the
accessors of the register file (10_state R30 to R35), the memory primitives `MemRead` and `MemWrite`
with bounds, alignment and diagnostics (20_memory R71 to R79), and fault entry
(60_exceptions R404). -/

namespace Sys2Proof

/-! ## Register numbers with a role (10_state R31) -/

/-- A, the accumulator, register 8. -/
def Reg.a : Reg := 8#4
/-- SP, the data-stack pointer, register 13. -/
def Reg.sp : Reg := 13#4
/-- RSP, the return-stack pointer, register 14. -/
def Reg.rsp : Reg := 14#4
/-- PC, register 15. -/
def Reg.pc : Reg := 15#4

/-! ## One flag of the group -/

/-- One flag's value. -/
def Flags.get (fl : Flags) : Flag → Bool
  | .c => fl.c
  | .z => fl.z
  | .o => fl.o
  | .s => fl.s

/-- `F <- b` (00_scope R15). -/
def Flags.set (fl : Flags) (f : Flag) (b : Bool) : Flags :=
  match f with
  | .c => { fl with c := b }
  | .z => { fl with z := b }
  | .o => { fl with o := b }
  | .s => { fl with s := b }

namespace Machine

/-! ## Registers -/

/-- `x[r]` (00_scope R15). -/
def State.reg (s : State) (r : Reg) : Word := s.x[r.toNat]'r.isLt

/-- `x[r] <- v`. No register is hardwired (10_state R32). -/
def State.setReg (s : State) (r : Reg) (v : Word) : State :=
  { s with x := s.x.set r.toNat v r.isLt }

/-- `pc`, another name for `x[15]` (10_state R33). -/
def State.pc (s : State) : Word := s.reg Reg.pc

/-- `pc <- v`: an ordinary register write, unchecked (40_cycle R159). -/
def State.setPc (s : State) (v : Word) : State := s.setReg Reg.pc v

/-- `pc` moved on by `k` bytes, modulo 2^16 (10_state R34; 40_cycle R151, R154). -/
def State.advance (s : State) (k : Word) : State := s.setPc (s.pc + k)

/-- The flags replaced as a group. -/
def State.setFlags (s : State) (f : Flags) : State := { s with flags := f }

/-- The fault record replaced (10_state R47). -/
def State.setRecord (s : State) (cause : BitVec 3) (info : BitVec 17) (fpc : Word) : State :=
  { s with fcause := cause, finfo := info, fpc := fpc }

/-! ## Memory as a list of cells -/

/-- What a byte that is not listed reads as (DESIGN CHOICE, log 2). -/
def Memory.blankByte : Byte := 0#8

/-- The byte at `a`. -/
def Memory.get : List Host.Cell → Nat → Byte
  | [], _ => Memory.blankByte
  | c :: rest, a => if c.1 = a then c.2 else Memory.get rest a

/-- The cell `(a, b)` in front of `rest`, or `rest` alone where `b` is what an unlisted byte reads
as. -/
def Memory.cons (a : Nat) (b : Byte) (rest : List Host.Cell) : List Host.Cell :=
  if b = Memory.blankByte then rest else (a, b) :: rest

/-- The byte at `a` replaced, the canonical form kept. -/
def Memory.set : List Host.Cell → Nat → Byte → List Host.Cell
  | [], a, b => Memory.cons a b []
  | c :: rest, a, b =>
    if a < c.1 then Memory.cons a b (c :: rest)
    else if a = c.1 then Memory.cons a b rest
    else c :: Memory.set rest a b

/-- The canonical form: addresses strictly rising, no listed byte equal to what an unlisted byte
reads as. -/
def Memory.wf : List Host.Cell → Bool
  | [] => true
  | [c] => c.2 != Memory.blankByte
  | c :: d :: rest => c.2 != Memory.blankByte && decide (c.1 < d.1) && Memory.wf (d :: rest)

/-- Every listed byte exists: its address is below `size` (10_state R50). -/
def Memory.within (size : Nat) (m : List Host.Cell) : Bool :=
  m.all fun c => decide (c.1 < size)

/-- The byte of memory at address `a`, without any check or effect. -/
def State.byteAt (s : State) (a : Nat) : Byte := Memory.get s.mem a

/-- The byte at `a` replaced, without any check or effect. -/
def State.setByteAt (s : State) (a : Nat) (b : Byte) : State :=
  { s with mem := Memory.set s.mem a b }

/-! ## Faults inside a step -/

/-- The causes a step can raise (60_exceptions R403). -/
inductive Cause where
  | memBounds
  | misaligned
  | divZero
  | illegal
  deriving DecidableEq, Repr

/-- The code a cause puts in `fcause` (60_exceptions R403). -/
def causeCode : Cause → BitVec 3
  | .memBounds  => 1#3
  | .misaligned => 2#3
  | .divZero    => 3#3
  | .illegal    => 4#3

/-- The result of a part of a step: a value, or `raise Fault(cause, info)` with the output streams
as they stand then (00_scope R17). -/
inductive Res (α : Type) where
  | ok (a : α)
  | raise (cause : Cause) (info : BitVec 17) (out : Output)
  deriving DecidableEq, Repr

/-- Goes on with a value; nothing after a raise executes (00_scope R17). -/
def resBind {α β : Type} (r : Res α) (f : α → Res β) : Res β :=
  match r with
  | .ok a => f a
  | .raise c info out => .raise c info out

/-- Fault entry from `s`, the state at the start of the step: every write of the step is discarded,
so pc = I, and the run state and the fault record are written; the events already emitted stay in
the output streams (60_exceptions R404). -/
def faultEntry (s : State) (cause : Cause) (info : BitVec 17) (out : Output) : State :=
  { s with
    out    := out
    run    := .faulted
    fcause := causeCode cause
    finfo  := info
    fpc    := s.pc }

/-- The end of a step that began in `s`: its result, or fault entry (40_cycle R160). -/
def complete (s : State) (r : Res State) : Host.Outcome State Fault Refusal :=
  match r with
  | .ok t => .next t
  | .raise cause info out => .next (faultEntry s cause info out)

/-! ## Access checks and diagnostics -/

/-- The width of an access (20_memory R71 to R73). -/
inductive Width where
  | byte
  | word
  deriving DecidableEq, Repr

/-- The byte addresses an access touches, lowest first; `a + 1` is computed without wrap-around
(20_memory R72). -/
def touched (a : Word) : Width → List Nat
  | .byte => [a.toNat]
  | .word => [a.toNat, a.toNat + 1]

/-- A word access at an odd address is misaligned (20_memory R75). -/
def misaligned (a : Word) : Width → Bool
  | .byte => false
  | .word => a.getLsbD 0

/-- What an access raises, if anything: bounds first, with the first byte at or above MEM_SIZE, then
alignment under `ALIGN_POLICY = fail` (20_memory R74, R75; 60_exceptions R406). -/
def accessFault (cfg : Config) (a : Word) (w : Width) : Option (Cause × BitVec 17) :=
  match (touched a w).find? (fun b => decide (cfg.memSize ≤ b)) with
  | some b => some (.memBounds, BitVec.ofNat 17 b)
  | none =>
    if misaligned a w && cfg.alignPolicy == .fail then some (.misaligned, a.setWidth 17) else none

/-- The byte `b` lies in the write-protect range, both ends included (20_memory R77). -/
def isProtected (cfg : Config) (b : Nat) : Bool :=
  match cfg.writeProtect with
  | some (lo, hi) => decide (lo.toNat ≤ b) && decide (b ≤ hi.toNat)
  | none => false

/-- The watch event of an access that touches the watched byte (20_memory R78). -/
def watchDiags (cfg : Config) (bs : List Nat) : List Diag :=
  match cfg.watch with
  | some a => if bs.contains a.toNat then [.watch a.toNat] else []
  | none => []

/-- The events of a read or fetch that raises nothing (20_memory R75, R78; order: log 13). -/
def readDiags (cfg : Config) (a : Word) (w : Width) : List Diag :=
  (if misaligned a w then [.align a.toNat] else []) ++ watchDiags cfg (touched a w)

/-- The events of a write that raises nothing (20_memory R75, R77, R78; order: log 13). -/
def writeDiags (cfg : Config) (a : Word) (w : Width) : List Diag :=
  (if misaligned a w then [.align a.toNat] else [])
    ++ ((touched a w).filter (isProtected cfg)).map .wprot
    ++ watchDiags cfg (touched a w)

/-- Diagnostic events put on the output stream (20_memory R79). -/
def State.emit (s : State) (ds : List Diag) : State :=
  { s with out := { s.out with diags := s.out.diags ++ ds } }

/-! ## The memory primitives -/

/-- The little-endian word at `a` and `a + 1`, without any check (20_memory R72). -/
def State.wordAt (s : State) (a : Word) : Word :=
  Word.ofBytes (s.byteAt (a.toNat + 1)) (s.byteAt a.toNat)

/-- A word put at `a` and `a + 1`, low byte first, without any check (20_memory R73). -/
def State.setWordAt (s : State) (a : Word) (v : Word) : State :=
  (s.setByteAt a.toNat v.low8).setByteAt (a.toNat + 1) v.high8

/-- `MemRead(a, 1)`: the byte, and the state with the access's events (20_memory R71). -/
def memReadByte (s : State) (a : Word) : Res (Byte × State) :=
  match accessFault s.cfg a .byte with
  | some (cause, info) => .raise cause info s.out
  | none => .ok (s.byteAt a.toNat, s.emit (readDiags s.cfg a .byte))

/-- `MemRead(a, 2)`: the word, and the state with the access's events (20_memory R72). -/
def memReadWord (s : State) (a : Word) : Res (Word × State) :=
  match accessFault s.cfg a .word with
  | some (cause, info) => .raise cause info s.out
  | none => .ok (s.wordAt a, s.emit (readDiags s.cfg a .word))

/-- `MemWrite(a, 1, v)` (20_memory R71). -/
def memWriteByte (s : State) (a : Word) (v : Byte) : Res State :=
  match accessFault s.cfg a .byte with
  | some (cause, info) => .raise cause info s.out
  | none => .ok ((s.setByteAt a.toNat v).emit (writeDiags s.cfg a .byte))

/-- `MemWrite(a, 2, v)`: both bytes or neither (20_memory R73). -/
def memWriteWord (s : State) (a : Word) (v : Word) : Res State :=
  match accessFault s.cfg a .word with
  | some (cause, info) => .raise cause info s.out
  | none => .ok ((s.setWordAt a v).emit (writeDiags s.cfg a .word))

/-! ## The stacks (47_stack R339) -/

/-- A push on the stack of pointer `sp`: the word is written at the pointer, which then goes down
by 2 (47_stack R339, R340, R342). -/
def pushOn (s : State) (sp : Reg) (v : Word) : Res State :=
  resBind (memWriteWord s (s.reg sp) v) fun t => .ok (t.setReg sp (t.reg sp - 2#16))

/-- A pop of the stack of pointer `sp`: the pointer goes up by 2 and the word there is read
(47_stack R339, R341, R343). -/
def popFrom (s : State) (sp : Reg) : Res (Word × State) :=
  let t := s.setReg sp (s.reg sp + 2#16)
  memReadWord t (t.reg sp)

end Machine

end Sys2Proof
end

