-- ==== Sys2Proof/Machine/Operands.lean ====
section
/-! DEFINITION. The operand forms: immediate assembly (30_encoding R115), control-flow targets
(30_encoding R116), effective addresses (46_load_store R319), shift counts (44_shift_rotate R270)
and the widening of the arithmetic family (42_arithmetic R219). Every state argument is the state
after the fetch has advanced `pc` (40_cycle R158). -/

namespace Sys2Proof.Machine

/-! ## Immediates (30_encoding R115) -/

/-- `sext_16` of a 4-bit field (00_scope R14). -/
def simm4 (k : BitVec 4) : Word := k.signExtend 16

/-- `zext_16` of a 4-bit field. -/
def uimm4 (u : BitVec 4) : Word := u.setWidth 16

/-- `sext_16` of an 8-bit field (00_scope R14). -/
def simm8 (k : BitVec 8) : Word := k.signExtend 16

/-- `zext_32` of a 16-bit operand (42_arithmetic R219). -/
def zext32 (v : Word) : BitVec 32 := v.setWidth 32

/-! ## Control-flow targets by MODE (30_encoding R116) -/

/-- MODE 01, relative: `pc + (sext_16(disp8) << 1)`, modulo 2^16. -/
def relativeTarget (t : State) (disp : BitVec 8) : Word := t.pc + (simm8 disp <<< 1)

/-- MODE 10, indexed-short: `x[rx] + (sext_16(off4) << 1)`, modulo 2^16. -/
def indexedShortTarget (t : State) (rx : Reg) (off : BitVec 4) : Word :=
  t.reg rx + (simm4 off <<< 1)

/-- MODE 11, indexed-long: `x[rx] + imm16`, modulo 2^16. -/
def indexedLongTarget (t : State) (rx : Reg) (imm : Word) : Word := t.reg rx + imm

/-! ## Effective addresses (46_load_store R319) -/

/-- Register-indirect. -/
def indirectEa (t : State) (base : Reg) : Word := t.reg base

/-- Indexed: `x[base] + imm16`, modulo 2^16. -/
def indexedEa (t : State) (base : Reg) (imm : Word) : Word := t.reg base + imm

/-! ## Counts and bit numbers -/

/-- The count of a register form: the low four bits of `x[rb]` (44_shift_rotate R270). -/
def regCount (t : State) (rb : Reg) : BitVec 4 := (t.reg rb).fieldB

/-- The mask `1 << u` of a bit number (45_bit_ops R301, R302). -/
def bitMask (u : BitVec 4) : Word := 1#16 <<< u.toNat

end Sys2Proof.Machine
end

