-- ==== Sys2Proof/Machine/Flags.lean ====
section
/-! DEFINITION. The flag functions (40_cycle R170 to R173) and the condition test (40_cycle R153).
Arithmetic and boolean O are two code paths, kept distinct (R173). -/

namespace Sys2Proof.Machine

/-- The 32-bit mask of an `O_MASK` setting (00_scope R7). -/
def oMaskBits : OMask → BitVec 32
  | .above16 => 0xFFFE0000#32
  | .from16  => 0xFFFF0000#32

/-- `arith_flags(r32)`: C is bit 16, Z a zero low half, S bit 15, O any bit of the mask
(40_cycle R170). -/
def arithFlags (mask : OMask) (r32 : BitVec 32) : Flags where
  c := r32.getLsbD 16
  z := r32.extractLsb' 0 16 == 0#16
  s := r32.getLsbD 15
  o := (r32 &&& oMaskBits mask) != 0#32

/-- `bool_flags(r16)`: Z, S, and O the literal low bit; C unchanged (40_cycle R171). -/
def boolFlags (fl : Flags) (r : Word) : Flags where
  c := fl.c
  z := r == 0#16
  s := r.getLsbD 15
  o := r.getLsbD 0

/-- `shift_flags(r16, n, cout)`: C only when the count is not 0; Z and S; O unchanged
(40_cycle R172). -/
def shiftFlags (fl : Flags) (r : Word) (n : BitVec 4) (cout : Bool) : Flags where
  c := if n = 0#4 then fl.c else cout
  z := r == 0#16
  s := r.getLsbD 15
  o := fl.o

/-- BIT's flag: Z is the complement of the tested bit; C, S and O unchanged (45_bit_ops R300). -/
def bitTestFlags (fl : Flags) (v : Word) (u : BitVec 4) : Flags :=
  { fl with z := !v.getLsbD u.toNat }

/-- `skip` (40_cycle R153): a conditional instruction whose selected flag, inverted where INV says
so, is 0. -/
def skips (cond : Cond) (fl : Flags) : Bool :=
  cond.ce && !(fl.get cond.cc ^^ cond.inv)

end Sys2Proof.Machine
end

