-- ==== Sys2Proof/Machine/System.lean ====
section
/-! DEFINITION. System instructions (49_system R390 to R393), the syscall call-out with its handler,
and the treatment of an unassigned opcode (30_encoding R120). -/

namespace Sys2Proof.Machine

/-- NOP: only the fetch's advance of pc (49_system R390). -/
def execNop (s : State) : Host.Outcome State Fault Refusal :=
  .next (s.advance 2#16)

/-- HALT: pc keeps its advanced value (49_system R391). -/
def execHalt (s : State) : Host.Outcome State Fault Refusal :=
  .next { s.advance 2#16 with run := .halted }

/-! ## Syscall handlers (49_system R392; 47_stack R344) -/

/-- What a handler sees: the whole state (49_system R392; 92 D28). Seeing a byte is no access of the
program and emits no WATCH event: DEDUCED (log 26). -/
def State.view (s : State) : HandlerView where
  x      := s.x
  flags  := s.flags
  run    := s.run
  fcause := s.fcause
  finfo  := s.finfo
  fpc    := s.fpc
  mem    := s.mem

/-- The act is one the spec lets a handler do: a byte write stays inside memory and the run state is
not set to Faulted (70 R454; 93 U14; log 8). -/
def actAllowed (cfg : Config) : HandlerAct → Bool
  | .setByte a _ => decide (a.toNat < cfg.memSize)
  | .setRun r    => r != .faulted
  | .setReg _ _ | .setFlag _ _ | .setRecord _ _ _ | .dpush _ | .dpop => true

/-- One act of a handler. Direct writes are plain state changes; `dpush` and `dpop` are the state
changes of PUSH and POP and can raise as those do (47_stack R344; logs 9, 10). -/
def runAct (s : State) : HandlerAct → Res State
  | .setReg r v  => .ok (s.setReg r v)
  | .setFlag f b => .ok (s.setFlags (s.flags.set f b))
  | .setByte a v => .ok (s.setByteAt a.toNat v)
  | .setRun r    => .ok { s with run := r }
  | .setRecord c info p => .ok (s.setRecord c info p)
  | .dpush v     => pushOn s Reg.sp v
  | .dpop        => resBind (popFrom s Reg.sp) fun p => .ok p.2

/-- The acts of the handler of index `n`, in order, from `t`, in a step that began in `s`: an act that
is not allowed is refused when the handler comes to it, and a primitive that raises ends the step by
fault entry, the acts after it not done (00_scope R17; 60_exceptions R406; logs 8, 9). -/
def runActs (s : State) (n : BitVec 8) :
    State → List HandlerAct → Host.Outcome State Fault Refusal
  | t, [] => .next t
  | t, act :: rest =>
    if actAllowed t.cfg act then
      match runAct t act with
      | .ok u => runActs s n u rest
      | .raise cause info out => .next (faultEntry s cause info out)
    else .refused (.handlerActRefused n)

/-- The acts of the handler `h` called for index `n` in state `t`: its script, or the free value of
a relation, numbered by the call-outs made before (log 6). -/
def handlerActs (t : State) (n : BitVec 8) : Handler → Option (List HandlerAct)
  | .script acts => some acts
  | .relation    => Config.handlerChoice t.out.calls.length n t.view

/-- The SyscallCall(n) call-out put on its output stream (00_scope R9 f). -/
def State.callOut (s : State) (n : BitVec 8) : State :=
  { s with out := { s.out with calls := s.out.calls ++ [n] } }

/-- The call of handler `h` for index `n`, in a step that began in `s` and stands at `t`
(49_system R392). -/
def callHandler (s t : State) (n : BitVec 8) (h : Handler) : Host.Outcome State Fault Refusal :=
  match handlerActs t n h with
  | none => .fault (.handlerNeverReturns n)
  | some acts => runActs s n (t.callOut n) acts

/-- The handler of slot `n`, if the table has that slot and it is filled (49_system R392). -/
def handlerOf (cfg : Config) (n : BitVec 8) : Option Handler :=
  if n.toNat < cfg.tableSize then cfg.handlers.lookup n else none

/-- SYSCALL: the handler runs with pc = I + 2; an index at or above the table size, or an empty slot,
does nothing (49_system R392). -/
def execSyscall (n : BitVec 8) (s : State) : Host.Outcome State Fault Refusal :=
  let t := s.advance 2#16
  match handlerOf t.cfg n with
  | some h => callHandler s t n h
  | none => .next t

/-! ## Unassigned opcodes -/

/-- `Illegal(w)`: a two-byte NOP, or the ILLEGAL fault, by `ILLEGAL_POLICY` (30_encoding R120). -/
def runIllegal (w : Word) (s : State) : Host.Outcome State Fault Refusal :=
  match s.cfg.illegalPolicy with
  | .nop   => .next (s.advance 2#16)
  | .fault => complete s (.raise .illegal (w.setWidth 17) s.out)

end Sys2Proof.Machine
end

