-- ==== Sys2Proof/Machine/Cycle.lean ====
section
/-! DEFINITION. The cycle around a handler (40_cycle R150 to R156): fetching an instruction's words,
decoding, and handing it to the handlers. `Step` is this cycle over `exec` (Machine/Step.lean). -/

namespace Sys2Proof.Machine

/-- A decoded word: an instruction with its trailing word, or `Illegal(w)` (30_encoding R124). -/
inductive Fetched where
  | instr (i : Instr)
  | illegal (w : Word)
  deriving DecidableEq, Repr

/-- Decoding of a first word with its trailing word (40_cycle R152). -/
def fetchedOf (w imm : Word) : Fetched :=
  match decode w imm with
  | some i => .instr i
  | none => .illegal w

/-- The fetch of the word at pc and, for a long form, of the word after it, taken whatever the
condition says (40_cycle R151, R154). The state answered still has pc = I: the meanings advance it
(log 20). -/
def fetch (s : State) : Res (Fetched × State) :=
  resBind (memReadWord s s.pc) fun p =>
    if p.1.isLong then
      resBind (memReadWord p.2 (s.pc + 2#16)) fun q => .ok (fetchedOf p.1 q.1, q.2)
    else .ok (fetchedOf p.1 0#16, p.2)

/-- One `Step` over the handlers `ex`: nothing unless Running; a fault of the fetch enters Faulted;
else the decoded instruction's handler, or the illegal-opcode policy (40_cycle R150 to R156). -/
def runCycle (ex : Instr → State → Host.Outcome State Fault Refusal) (s : State) :
    Host.Outcome State Fault Refusal :=
  match s.run with
  | .halted  => .next s
  | .faulted => .next s
  | .running =>
    match fetch s with
    | .raise cause info out => .next (faultEntry s cause info out)
    | .ok (.instr i, t)     => ex i t
    | .ok (.illegal w, t)   => runIllegal w t

end Sys2Proof.Machine
end

