-- ==== Sys2Proof/Machine/Arithmetic.lean ====
section
/-! DEFINITION. Arithmetic (42_arithmetic R219 to R229) on the widened 32-bit result, with
`arith_flags` (40_cycle R170). -/

namespace Sys2Proof.Machine

/-- The register write and flag update of the family: `x[ra] <- r32[15:0]; arith_flags(r32)`
(42_arithmetic R219). -/
def writeArith (t : State) (ra : Reg) (r32 : BitVec 32) : State :=
  (t.setReg ra (r32.extractLsb' 0 16)).setFlags (arithFlags t.cfg.oMask r32)

/-- A division step that began in `s` and stands at `t`: DIV_ZERO with the instruction word when the
divisor is 0, else the unsigned quotient (42_arithmetic R228, R229). -/
def divideStep (s t : State) (ra : Reg) (divisor w : Word) : Host.Outcome State Fault Refusal :=
  complete s <|
    if divisor = 0#16 then .raise .divZero (w.setWidth 17) t.out
    else .ok (writeArith t ra (zext32 (t.reg ra) / zext32 divisor))

/-- ADD (42_arithmetic R220). -/
def execAdd (ra rb : Reg) (s : State) : Host.Outcome State Fault Refusal :=
  let t := s.advance 2#16
  .next (writeArith t ra (zext32 (t.reg ra) + zext32 (t.reg rb)))

/-- ADDI (42_arithmetic R221). -/
def execAddi (ra : Reg) (u : BitVec 4) (s : State) : Host.Outcome State Fault Refusal :=
  let t := s.advance 2#16
  .next (writeArith t ra (zext32 (t.reg ra) + zext32 (uimm4 u)))

/-- ADDIL (42_arithmetic R222). -/
def execAddil (ra : Reg) (imm : Word) (s : State) : Host.Outcome State Fault Refusal :=
  let t := s.advance 4#16
  .next (writeArith t ra (zext32 (t.reg ra) + zext32 imm))

/-- SUB (42_arithmetic R223). -/
def execSub (ra rb : Reg) (s : State) : Host.Outcome State Fault Refusal :=
  let t := s.advance 2#16
  .next (writeArith t ra (zext32 (t.reg ra) - zext32 (t.reg rb)))

/-- SUBI (42_arithmetic R224). -/
def execSubi (ra : Reg) (u : BitVec 4) (s : State) : Host.Outcome State Fault Refusal :=
  let t := s.advance 2#16
  .next (writeArith t ra (zext32 (t.reg ra) - zext32 (uimm4 u)))

/-- SUBIL (42_arithmetic R225). -/
def execSubil (ra : Reg) (imm : Word) (s : State) : Host.Outcome State Fault Refusal :=
  let t := s.advance 4#16
  .next (writeArith t ra (zext32 (t.reg ra) - zext32 imm))

/-- MUL (42_arithmetic R226). -/
def execMul (ra rb : Reg) (s : State) : Host.Outcome State Fault Refusal :=
  let t := s.advance 2#16
  .next (writeArith t ra (zext32 (t.reg ra) * zext32 (t.reg rb)))

/-- MULIL (42_arithmetic R227). -/
def execMulil (ra : Reg) (imm : Word) (s : State) : Host.Outcome State Fault Refusal :=
  let t := s.advance 4#16
  .next (writeArith t ra (zext32 (t.reg ra) * zext32 imm))

/-- DIV (42_arithmetic R228). -/
def execDiv (ra rb : Reg) (s : State) : Host.Outcome State Fault Refusal :=
  let t := s.advance 2#16
  divideStep s t ra (t.reg rb) (packGeneral 0x1C#8 ra rb)

/-- DIVIL; the word a division by zero reports is the one fetched, its ignored bits `x` included
(42_arithmetic R229; log 17). -/
def execDivil (ra : Reg) (x : BitVec 4) (imm : Word) (s : State) :
    Host.Outcome State Fault Refusal :=
  divideStep s (s.advance 4#16) ra imm (packGeneral 0x1E#8 ra x)

end Sys2Proof.Machine
end

