-- ==== Sys2Proof/Machine/BitOps.lean ====
section
/-! DEFINITION. Bit test, set and clear (45_bit_ops R300 to R302). -/

namespace Sys2Proof.Machine

/-- BIT: writes Z only (45_bit_ops R300). -/
def execBit (ra : Reg) (u : BitVec 4) (s : State) : Host.Outcome State Fault Refusal :=
  let t := s.advance 2#16
  .next (t.setFlags (bitTestFlags t.flags (t.reg ra) u))

/-- BSET: writes no flag (45_bit_ops R301). -/
def execBset (ra : Reg) (u : BitVec 4) (s : State) : Host.Outcome State Fault Refusal :=
  let t := s.advance 2#16
  .next (t.setReg ra (t.reg ra ||| bitMask u))

/-- BCLR: writes no flag (45_bit_ops R302). -/
def execBclr (ra : Reg) (u : BitVec 4) (s : State) : Host.Outcome State Fault Refusal :=
  let t := s.advance 2#16
  .next (t.setReg ra (t.reg ra &&& ~~~ bitMask u))

end Sys2Proof.Machine
end

