-- ==== Sys2Proof/Machine/Bitwise.lean ====
section
/-! DEFINITION. Bitwise boolean (43_bitwise R250 to R256), with `bool_flags` (40_cycle R171). -/

namespace Sys2Proof.Machine

/-- The register write and flag update of the family: `x[ra] <- r; bool_flags(r)`. -/
def writeBool (t : State) (ra : Reg) (r : Word) : State :=
  (t.setReg ra r).setFlags (boolFlags t.flags r)

/-- AND (43_bitwise R250). -/
def execAnd (ra rb : Reg) (s : State) : Host.Outcome State Fault Refusal :=
  let t := s.advance 2#16
  .next (writeBool t ra (t.reg ra &&& t.reg rb))

/-- ANDIL (43_bitwise R251). -/
def execAndil (ra : Reg) (imm : Word) (s : State) : Host.Outcome State Fault Refusal :=
  let t := s.advance 4#16
  .next (writeBool t ra (t.reg ra &&& imm))

/-- OR (43_bitwise R252). -/
def execOr (ra rb : Reg) (s : State) : Host.Outcome State Fault Refusal :=
  let t := s.advance 2#16
  .next (writeBool t ra (t.reg ra ||| t.reg rb))

/-- ORIL (43_bitwise R253). -/
def execOril (ra : Reg) (imm : Word) (s : State) : Host.Outcome State Fault Refusal :=
  let t := s.advance 4#16
  .next (writeBool t ra (t.reg ra ||| imm))

/-- XOR (43_bitwise R254). -/
def execXor (ra rb : Reg) (s : State) : Host.Outcome State Fault Refusal :=
  let t := s.advance 2#16
  .next (writeBool t ra (t.reg ra ^^^ t.reg rb))

/-- XORIL (43_bitwise R255). -/
def execXoril (ra : Reg) (imm : Word) (s : State) : Host.Outcome State Fault Refusal :=
  let t := s.advance 4#16
  .next (writeBool t ra (t.reg ra ^^^ imm))

/-- NOT (43_bitwise R256). -/
def execNot (ra : Reg) (s : State) : Host.Outcome State Fault Refusal :=
  let t := s.advance 2#16
  .next (writeBool t ra (~~~ t.reg ra))

end Sys2Proof.Machine
end

