-- ==== Sys2Proof/Machine/Stack.lean ====
section
/-! DEFINITION. Stack push and pop (47_stack R339 to R343), on the data stack (SP) and the return
stack (RSP). No flag is written. -/

namespace Sys2Proof.Machine

/-- Pop of the stack of `sp` into `ra`; the write of the popped value comes last
(47_stack R341, R343). -/
def popInto (t : State) (sp ra : Reg) : Res State :=
  resBind (popFrom t sp) fun p => .ok (p.2.setReg ra p.1)

/-- PUSH (47_stack R340). -/
def execPush (ra : Reg) (s : State) : Host.Outcome State Fault Refusal :=
  let t := s.advance 2#16
  complete s (pushOn t Reg.sp (t.reg ra))

/-- POP (47_stack R341). -/
def execPop (ra : Reg) (s : State) : Host.Outcome State Fault Refusal :=
  complete s (popInto (s.advance 2#16) Reg.sp ra)

/-- RPUSH (47_stack R342). -/
def execRpush (ra : Reg) (s : State) : Host.Outcome State Fault Refusal :=
  let t := s.advance 2#16
  complete s (pushOn t Reg.rsp (t.reg ra))

/-- RPOP (47_stack R343). -/
def execRpop (ra : Reg) (s : State) : Host.Outcome State Fault Refusal :=
  complete s (popInto (s.advance 2#16) Reg.rsp ra)

end Sys2Proof.Machine
end

