-- ==== Sys2Proof/Machine/Control.lean ====
section
/-! DEFINITION. Control transfer (48_control_transfer R360 to R374): jumps and calls, skipped when
their condition fails (40_cycle R153 to R155), and return. No flag is written and no target is
checked (R373). -/

namespace Sys2Proof.Machine

/-- The step of a control-flow instruction that began in `s` and whose fetches left `t`: the handler
`h`, or nothing more where the condition fails (40_cycle R155; 48_control_transfer R371). -/
def unlessSkipped (s t : State) (cond : Cond) (h : Res State) : Host.Outcome State Fault Refusal :=
  if skips cond t.flags then .next t else complete s h

/-- The call sequence: the address after the instruction pushed on the return stack, then the jump;
`target` is computed before the push (48_control_transfer R372). -/
def callTo (t : State) (target : Word) : Res State :=
  resBind (pushOn t Reg.rsp t.pc) fun u => .ok (u.setPc target)

/-- JP (48_control_transfer R360). -/
def execJp (cond : Cond) (imm : Word) (s : State) : Host.Outcome State Fault Refusal :=
  let t := s.advance 4#16
  unlessSkipped s t cond (.ok (t.setPc imm))

/-- JR (48_control_transfer R361). -/
def execJr (cond : Cond) (disp : BitVec 8) (s : State) : Host.Outcome State Fault Refusal :=
  let t := s.advance 2#16
  unlessSkipped s t cond (.ok (t.setPc (relativeTarget t disp)))

/-- JX (48_control_transfer R362). -/
def execJx (cond : Cond) (rx : Reg) (off : BitVec 4) (s : State) :
    Host.Outcome State Fault Refusal :=
  let t := s.advance 2#16
  unlessSkipped s t cond (.ok (t.setPc (indexedShortTarget t rx off)))

/-- JXL (48_control_transfer R363). -/
def execJxl (cond : Cond) (rx : Reg) (imm : Word) (s : State) : Host.Outcome State Fault Refusal :=
  let t := s.advance 4#16
  unlessSkipped s t cond (.ok (t.setPc (indexedLongTarget t rx imm)))

/-- CALL (48_control_transfer R364). -/
def execCall (cond : Cond) (imm : Word) (s : State) : Host.Outcome State Fault Refusal :=
  let t := s.advance 4#16
  unlessSkipped s t cond (callTo t imm)

/-- CALLR (48_control_transfer R365). -/
def execCallr (cond : Cond) (disp : BitVec 8) (s : State) : Host.Outcome State Fault Refusal :=
  let t := s.advance 2#16
  unlessSkipped s t cond (callTo t (relativeTarget t disp))

/-- CALLX (48_control_transfer R366). -/
def execCallx (cond : Cond) (rx : Reg) (off : BitVec 4) (s : State) :
    Host.Outcome State Fault Refusal :=
  let t := s.advance 2#16
  unlessSkipped s t cond (callTo t (indexedShortTarget t rx off))

/-- CALLXL (48_control_transfer R367). -/
def execCallxl (cond : Cond) (rx : Reg) (imm : Word) (s : State) :
    Host.Outcome State Fault Refusal :=
  let t := s.advance 4#16
  unlessSkipped s t cond (callTo t (indexedLongTarget t rx imm))

/-- RET: a pop of the return stack into pc (48_control_transfer R370). -/
def execRet (s : State) : Host.Outcome State Fault Refusal :=
  complete s (popInto (s.advance 2#16) Reg.rsp Reg.pc)

end Sys2Proof.Machine
end

