-- ==== Sys2Proof/Machine/LoadStore.lean ====
section
/-! DEFINITION. Loads and stores (46_load_store R319 to R327). A load's `ra` is the destination and
`rb` the address register; a store's `ra` is the address register and `rb` the value. No flag is
written and no base register is modified. -/

namespace Sys2Proof.Machine

/-- `x[ra] <- MemRead(ea, 2)` (46_load_store R320, R324). -/
def loadWord (t : State) (ra : Reg) (ea : Word) : Res State :=
  resBind (memReadWord t ea) fun p => .ok (p.2.setReg ra p.1)

/-- `x[ra] <- zext_16(MemRead(ea, 1))` (46_load_store R321, R325). -/
def loadByte (t : State) (ra : Reg) (ea : Word) : Res State :=
  resBind (memReadByte t ea) fun p => .ok (p.2.setReg ra (p.1.setWidth 16))

/-- LD (46_load_store R320). -/
def execLd (ra rb : Reg) (s : State) : Host.Outcome State Fault Refusal :=
  let t := s.advance 2#16
  complete s (loadWord t ra (indirectEa t rb))

/-- LDB (46_load_store R321). -/
def execLdb (ra rb : Reg) (s : State) : Host.Outcome State Fault Refusal :=
  let t := s.advance 2#16
  complete s (loadByte t ra (indirectEa t rb))

/-- ST (46_load_store R322). -/
def execSt (ra rb : Reg) (s : State) : Host.Outcome State Fault Refusal :=
  let t := s.advance 2#16
  complete s (memWriteWord t (indirectEa t ra) (t.reg rb))

/-- STB (46_load_store R323). -/
def execStb (ra rb : Reg) (s : State) : Host.Outcome State Fault Refusal :=
  let t := s.advance 2#16
  complete s (memWriteByte t (indirectEa t ra) (t.reg rb).low8)

/-- LDX (46_load_store R324). -/
def execLdx (ra rb : Reg) (imm : Word) (s : State) : Host.Outcome State Fault Refusal :=
  let t := s.advance 4#16
  complete s (loadWord t ra (indexedEa t rb imm))

/-- LDBX (46_load_store R325). -/
def execLdbx (ra rb : Reg) (imm : Word) (s : State) : Host.Outcome State Fault Refusal :=
  let t := s.advance 4#16
  complete s (loadByte t ra (indexedEa t rb imm))

/-- STX (46_load_store R326). -/
def execStx (ra rb : Reg) (imm : Word) (s : State) : Host.Outcome State Fault Refusal :=
  let t := s.advance 4#16
  complete s (memWriteWord t (indexedEa t ra imm) (t.reg rb))

/-- STBX (46_load_store R327). -/
def execStbx (ra rb : Reg) (imm : Word) (s : State) : Host.Outcome State Fault Refusal :=
  let t := s.advance 4#16
  complete s (memWriteByte t (indexedEa t ra imm) (t.reg rb).low8)

end Sys2Proof.Machine
end

