-- ==== Sys2Proof/Machine/Moves.lean ====
section
/-! DEFINITION. Data movement (41_moves R200 to R203). Moves write no flag. A meaning takes the
state at the start of the step, pc = I, with the fetch's events emitted (log 20). -/

namespace Sys2Proof.Machine

/-- MOV (41_moves R200). -/
def execMov (ra rb : Reg) (s : State) : Host.Outcome State Fault Refusal :=
  let t := s.advance 2#16
  .next (t.setReg ra (t.reg rb))

/-- MOVI (41_moves R201). -/
def execMovi (ra : Reg) (k : BitVec 4) (s : State) : Host.Outcome State Fault Refusal :=
  .next ((s.advance 2#16).setReg ra (simm4 k))

/-- MOVIL (41_moves R202). -/
def execMovil (ra : Reg) (imm : Word) (s : State) : Host.Outcome State Fault Refusal :=
  .next ((s.advance 4#16).setReg ra imm)

/-- MOVAI: the destination is always A (41_moves R203). -/
def execMovai (k : BitVec 8) (s : State) : Host.Outcome State Fault Refusal :=
  .next ((s.advance 2#16).setReg Reg.a (simm8 k))

end Sys2Proof.Machine
end

