-- ==== Sys2Proof/Machine/Shifts.lean ====
section
/-! DEFINITION. Shift and rotate (44_shift_rotate R270 to R283), with `shift_flags`
(40_cycle R172). Each operation gives the result and `cout`, the last bit out, for a value `v`, a
count `n` and the carry flag `cin`. -/

namespace Sys2Proof.Machine

/-- A result and the bit shifted or rotated out last. -/
structure Shifted where
  r    : Word
  cout : Bool
  deriving DecidableEq, Repr

/-- Logical shift left; zeros enter at bit 0 (44_shift_rotate R272). -/
def shiftLeft (v : Word) (n : BitVec 4) (cin : Bool) : Shifted :=
  if n = 0#4 then ⟨v, cin⟩ else ⟨v <<< n.toNat, v.getLsbD (16 - n.toNat)⟩

/-- Logical shift right; zeros enter at bit 15 (44_shift_rotate R274). -/
def shiftRight (v : Word) (n : BitVec 4) (cin : Bool) : Shifted :=
  if n = 0#4 then ⟨v, cin⟩ else ⟨v >>> n.toNat, v.getLsbD (n.toNat - 1)⟩

/-- Rotate left; `cout` is the new bit 0 (44_shift_rotate R276). -/
def rotLeft (v : Word) (n : BitVec 4) (cin : Bool) : Shifted :=
  if n = 0#4 then ⟨v, cin⟩ else
    let r := v <<< n.toNat ||| v >>> (16 - n.toNat)
    ⟨r, r.getLsbD 0⟩

/-- Rotate right; `cout` is the new bit 15 (44_shift_rotate R278). -/
def rotRight (v : Word) (n : BitVec 4) (cin : Bool) : Shifted :=
  if n = 0#4 then ⟨v, cin⟩ else
    let r := v >>> n.toNat ||| v <<< (16 - n.toNat)
    ⟨r, r.getLsbD 15⟩

/-- `{C, x[ra]}`, the 17-bit value the carry-linked rotates turn (44_shift_rotate R280). -/
def withCarry (v : Word) (cin : Bool) : BitVec 17 :=
  ((BitVec.ofBool cin).setWidth 17 <<< 16) ||| v.setWidth 17

/-- The low 16 bits and bit 16 of a turned 17-bit value (44_shift_rotate R280). -/
def splitCarry (t : BitVec 17) : Shifted := ⟨t.extractLsb' 0 16, t.getLsbD 16⟩

/-- Rotate left through carry (44_shift_rotate R280). -/
def rotLeftCarry (v : Word) (n : BitVec 4) (cin : Bool) : Shifted :=
  let t := withCarry v cin
  splitCarry (t <<< n.toNat ||| t >>> (17 - n.toNat))

/-- Rotate right through carry (44_shift_rotate R282). -/
def rotRightCarry (v : Word) (n : BitVec 4) (cin : Bool) : Shifted :=
  let t := withCarry v cin
  splitCarry (t >>> n.toNat ||| t <<< (17 - n.toNat))

/-- The register write and flag update of the family: `x[ra] <- r; shift_flags(r, n, cout)`
(44_shift_rotate R271). -/
def writeShift (t : State) (ra : Reg) (n : BitVec 4) (sh : Shifted) : State :=
  (t.setReg ra sh.r).setFlags (shiftFlags t.flags sh.r n sh.cout)

/-- SHL (44_shift_rotate R272). -/
def execShl (ra rb : Reg) (s : State) : Host.Outcome State Fault Refusal :=
  let t := s.advance 2#16
  let n := regCount t rb
  .next (writeShift t ra n (shiftLeft (t.reg ra) n t.flags.c))

/-- SHLI (44_shift_rotate R273). -/
def execShli (ra : Reg) (u : BitVec 4) (s : State) : Host.Outcome State Fault Refusal :=
  let t := s.advance 2#16
  .next (writeShift t ra u (shiftLeft (t.reg ra) u t.flags.c))

/-- SHR (44_shift_rotate R274). -/
def execShr (ra rb : Reg) (s : State) : Host.Outcome State Fault Refusal :=
  let t := s.advance 2#16
  let n := regCount t rb
  .next (writeShift t ra n (shiftRight (t.reg ra) n t.flags.c))

/-- SHRI (44_shift_rotate R275). -/
def execShri (ra : Reg) (u : BitVec 4) (s : State) : Host.Outcome State Fault Refusal :=
  let t := s.advance 2#16
  .next (writeShift t ra u (shiftRight (t.reg ra) u t.flags.c))

/-- ROL (44_shift_rotate R276). -/
def execRol (ra rb : Reg) (s : State) : Host.Outcome State Fault Refusal :=
  let t := s.advance 2#16
  let n := regCount t rb
  .next (writeShift t ra n (rotLeft (t.reg ra) n t.flags.c))

/-- ROLI (44_shift_rotate R277). -/
def execRoli (ra : Reg) (u : BitVec 4) (s : State) : Host.Outcome State Fault Refusal :=
  let t := s.advance 2#16
  .next (writeShift t ra u (rotLeft (t.reg ra) u t.flags.c))

/-- ROR (44_shift_rotate R278). -/
def execRor (ra rb : Reg) (s : State) : Host.Outcome State Fault Refusal :=
  let t := s.advance 2#16
  let n := regCount t rb
  .next (writeShift t ra n (rotRight (t.reg ra) n t.flags.c))

/-- RORI (44_shift_rotate R279). -/
def execRori (ra : Reg) (u : BitVec 4) (s : State) : Host.Outcome State Fault Refusal :=
  let t := s.advance 2#16
  .next (writeShift t ra u (rotRight (t.reg ra) u t.flags.c))

/-- RLC (44_shift_rotate R280). -/
def execRlc (ra rb : Reg) (s : State) : Host.Outcome State Fault Refusal :=
  let t := s.advance 2#16
  let n := regCount t rb
  .next (writeShift t ra n (rotLeftCarry (t.reg ra) n t.flags.c))

/-- RLCI (44_shift_rotate R281). -/
def execRlci (ra : Reg) (u : BitVec 4) (s : State) : Host.Outcome State Fault Refusal :=
  let t := s.advance 2#16
  .next (writeShift t ra u (rotLeftCarry (t.reg ra) u t.flags.c))

/-- RRC (44_shift_rotate R282). -/
def execRrc (ra rb : Reg) (s : State) : Host.Outcome State Fault Refusal :=
  let t := s.advance 2#16
  let n := regCount t rb
  .next (writeShift t ra n (rotRightCarry (t.reg ra) n t.flags.c))

/-- RRCI (44_shift_rotate R283). -/
def execRrci (ra : Reg) (u : BitVec 4) (s : State) : Host.Outcome State Fault Refusal :=
  let t := s.advance 2#16
  .next (writeShift t ra u (rotRightCarry (t.reg ra) u t.flags.c))

end Sys2Proof.Machine
end

