-- ==== Sys2Proof/Machine/Dispatch.lean ====
section
/-! DEFINITION. The dispatch to one meaning per instruction (40_cycle R156). Each takes the state at
the start of the step, pc = I, with the fetch's events emitted (log 20). -/

namespace Sys2Proof.Machine

def exec (i : Instr) (s : State) : Host.Outcome State Fault Refusal :=
  match i with
  | .nop _ => Sys2Proof.Machine.execNop s
  | .halt _ => Sys2Proof.Machine.execHalt s
  | .ret _ => Sys2Proof.Machine.execRet s
  | .syscall n => Sys2Proof.Machine.execSyscall n s
  | .mov ra rb => Sys2Proof.Machine.execMov ra rb s
  | .movi ra k => Sys2Proof.Machine.execMovi ra k s
  | .movil ra _ imm => Sys2Proof.Machine.execMovil ra imm s
  | .movai k => Sys2Proof.Machine.execMovai k s
  | .add ra rb => Sys2Proof.Machine.execAdd ra rb s
  | .addi ra u => Sys2Proof.Machine.execAddi ra u s
  | .addil ra _ imm => Sys2Proof.Machine.execAddil ra imm s
  | .sub ra rb => Sys2Proof.Machine.execSub ra rb s
  | .subi ra u => Sys2Proof.Machine.execSubi ra u s
  | .subil ra _ imm => Sys2Proof.Machine.execSubil ra imm s
  | .mul ra rb => Sys2Proof.Machine.execMul ra rb s
  | .mulil ra _ imm => Sys2Proof.Machine.execMulil ra imm s
  | .div ra rb => Sys2Proof.Machine.execDiv ra rb s
  | .divil ra x imm => Sys2Proof.Machine.execDivil ra x imm s
  | .and ra rb => Sys2Proof.Machine.execAnd ra rb s
  | .andil ra _ imm => Sys2Proof.Machine.execAndil ra imm s
  | .or ra rb => Sys2Proof.Machine.execOr ra rb s
  | .oril ra _ imm => Sys2Proof.Machine.execOril ra imm s
  | .xor ra rb => Sys2Proof.Machine.execXor ra rb s
  | .xoril ra _ imm => Sys2Proof.Machine.execXoril ra imm s
  | .not ra _ => Sys2Proof.Machine.execNot ra s
  | .shl ra rb => Sys2Proof.Machine.execShl ra rb s
  | .shli ra u => Sys2Proof.Machine.execShli ra u s
  | .shr ra rb => Sys2Proof.Machine.execShr ra rb s
  | .shri ra u => Sys2Proof.Machine.execShri ra u s
  | .rol ra rb => Sys2Proof.Machine.execRol ra rb s
  | .roli ra u => Sys2Proof.Machine.execRoli ra u s
  | .ror ra rb => Sys2Proof.Machine.execRor ra rb s
  | .rori ra u => Sys2Proof.Machine.execRori ra u s
  | .rlc ra rb => Sys2Proof.Machine.execRlc ra rb s
  | .rlci ra u => Sys2Proof.Machine.execRlci ra u s
  | .rrc ra rb => Sys2Proof.Machine.execRrc ra rb s
  | .rrci ra u => Sys2Proof.Machine.execRrci ra u s
  | .bit ra u => Sys2Proof.Machine.execBit ra u s
  | .bset ra u => Sys2Proof.Machine.execBset ra u s
  | .bclr ra u => Sys2Proof.Machine.execBclr ra u s
  | .ld ra rb => Sys2Proof.Machine.execLd ra rb s
  | .ldb ra rb => Sys2Proof.Machine.execLdb ra rb s
  | .st ra rb => Sys2Proof.Machine.execSt ra rb s
  | .stb ra rb => Sys2Proof.Machine.execStb ra rb s
  | .ldx ra rb imm => Sys2Proof.Machine.execLdx ra rb imm s
  | .ldbx ra rb imm => Sys2Proof.Machine.execLdbx ra rb imm s
  | .stx ra rb imm => Sys2Proof.Machine.execStx ra rb imm s
  | .stbx ra rb imm => Sys2Proof.Machine.execStbx ra rb imm s
  | .push ra _ => Sys2Proof.Machine.execPush ra s
  | .pop ra _ => Sys2Proof.Machine.execPop ra s
  | .rpush ra _ => Sys2Proof.Machine.execRpush ra s
  | .rpop ra _ => Sys2Proof.Machine.execRpop ra s
  | .jp cond _ imm => Sys2Proof.Machine.execJp cond imm s
  | .jr cond disp => Sys2Proof.Machine.execJr cond disp s
  | .jx cond rx off => Sys2Proof.Machine.execJx cond rx off s
  | .jxl cond rx _ imm => Sys2Proof.Machine.execJxl cond rx imm s
  | .call cond _ imm => Sys2Proof.Machine.execCall cond imm s
  | .callr cond disp => Sys2Proof.Machine.execCallr cond disp s
  | .callx cond rx off => Sys2Proof.Machine.execCallx cond rx off s
  | .callxl cond rx _ imm => Sys2Proof.Machine.execCallxl cond rx imm s

end Sys2Proof.Machine
end

