-- ==== Sys2Proof/Machine/HostPort.lean ====
section
/-! DEFINITION. The host's side of the interface (00_scope R9): construction, `Reset`,
`ResetToHalted`, host reads and writes, `AddSyscall` and the debug settings
(70_reset_and_hazards R450 to R454; 20_memory R77, R78). Each is one atomic transaction, made only
between steps; `none` is the refusal of a transaction the spec refuses. -/

namespace Sys2Proof.Machine

/-- The configuration an engine is built with (70 R450). -/
structure Build where
  memSize       : Nat
  tableSize     : Nat
  alignPolicy   : AlignPolicy
  illegalPolicy : IllegalPolicy
  oMask         : OMask
  deriving DecidableEq, Repr

/-- The draw `INIT_VALUES`: registers 0 to 15, the flags, and memory bytes (those not listed read as
0; those outside memory do not exist) (00_scope R7; 70 R450; log 22). -/
structure InitValues where
  x     : Vector Word 16
  flags : Flags
  bytes : List (Nat × Byte)
  deriving DecidableEq, Repr

/-- The draw `RESET_VALUES`: registers 0 to 14 (entry 15 is not used) and the flags
(00_scope R7; 70 R451; log 22). -/
structure ResetValues where
  x     : Vector Word 16
  flags : Flags
  deriving DecidableEq, Repr

/-- A byte put at `a` where memory has one. -/
def placeByte (s : State) (a : Nat) (b : Byte) : State :=
  if a < s.cfg.memSize then s.setByteAt a b else s

/-- A word put at `a`, low byte first, where memory has the bytes. -/
def placeWord (s : State) (a : Word) (v : Word) : State :=
  placeByte (placeByte s a.toNat v.low8) (a.toNat + 1) v.high8

/-- Construction: Halted, the fault record 0, every slot empty, no debug setting, the rest the draw
(70 R450). -/
def construct (build : Build) (draw : InitValues) : State :=
  let blank : State :=
    { x      := draw.x
      flags  := draw.flags
      run    := .halted
      fcause := 0#3
      finfo  := 0#17
      fpc    := 0#16
      mem    := []
      cfg    :=
        { memSize       := build.memSize
          alignPolicy   := build.alignPolicy
          illegalPolicy := build.illegalPolicy
          oMask         := build.oMask
          tableSize     := build.tableSize
          handlers      := []
          watch         := none
          writeProtect  := none }
      out    := ⟨[], []⟩ }
  draw.bytes.foldl (fun s c => placeByte s c.1 c.2) blank

/-- `Reset`: run <- Running, pc <- 0, the fault record <- 0; registers 0 to 14 and the flags take the
draw, by default (`none`) the values they hold; memory and configuration are kept (70 R451). -/
def resetTx (draw : Option ResetValues) (s : State) : State :=
  let kept : State :=
    match draw with
    | none => s
    | some d => { s with x := d.x, flags := d.flags }
  { kept.setPc 0#16 with
    run    := .running
    fcause := 0#3
    finfo  := 0#17
    fpc    := 0#16 }

/-- `ResetToHalted`: run <- Halted and nothing else (70 R452). -/
def resetToHalted (s : State) : State := { s with run := .halted }

/-- `HostRead` of a memory byte; `none` outside memory, where there is no byte to read (00_scope R9;
log 25). It emits no event, of the watched byte either: DEDUCED (log 26). -/
def hostReadByte (s : State) (a : Nat) : Option Byte :=
  if a < s.cfg.memSize then some (s.byteAt a) else none

/-- The host's transactions that change the engine (00_scope R9 b to e; 20_memory R77, R78). The host
may write any state between steps (60_exceptions R433), so the fault record too, though R9 d and 70 R454
do not list it; that its write is accepted for every record, in every run state, is DEDUCED (log 27). -/
inductive HostTx where
  | reset (draw : Option ResetValues)
  | resetToHalted
  | writeReg (r : Reg) (v : Word)
  | writeFlag (f : Flag) (b : Bool)
  | writeRun (r : RunState)
  | writeRecord (cause : BitVec 3) (info : BitVec 17) (fpc : Word)
  | writeByte (a : Nat) (b : Byte)
  | addSyscall (n : BitVec 8) (h : Handler)
  | setWatch (a : Word)
  | clearWatch
  | writeProtect (first last : Word)
  deriving DecidableEq, Repr

/-- A host write of the run state is accepted from `now` to `new`: it is refused where it sets Faulted
(70 R454), where it leaves Faulted (60_exceptions R404, R407) and where it makes a stopped engine
execute again (60_exceptions R434; 40_cycle R163). R454 lets the host write the run state and those
rules leave these changes to `Reset` and `ResetToHalted`; that they win is DEDUCED (log 24). -/
def runWriteAllowed : RunState → RunState → Bool
  | .running, .running | .running, .halted | .halted, .halted => true
  | .running, .faulted | .halted, .running | .halted, .faulted => false
  | .faulted, .running | .faulted, .halted | .faulted, .faulted => false

/-- One host transaction; `none` is its refusal: a byte outside memory, run set to Faulted
(70 R454), a change of the run state that only a reset makes (log 24), a slot the table does not have
(log 21). No fault and no diagnostic arises (70 R454). -/
def hostTx (s : State) : HostTx → Option State
  | .reset draw     => some (resetTx draw s)
  | .resetToHalted  => some (resetToHalted s)
  | .writeReg r v   => some (s.setReg r v)
  | .writeFlag f b  => some (s.setFlags (s.flags.set f b))
  | .writeRun r     => if runWriteAllowed s.run r then some { s with run := r } else none
  | .writeRecord c i p => some (s.setRecord c i p)
  | .writeByte a b  => if a < s.cfg.memSize then some (s.setByteAt a b) else none
  | .addSyscall n h =>
    if n.toNat < s.cfg.tableSize then
      some { s with cfg := { s.cfg with
        handlers := (n, h) :: s.cfg.handlers.filter (fun p => p.1 != n) } }
    else none
  | .setWatch a     => some { s with cfg := { s.cfg with watch := some a } }
  | .clearWatch     => some { s with cfg := { s.cfg with watch := none } }
  | .writeProtect first last =>
    some { s with cfg := { s.cfg with writeProtect := some (first, last) } }

end Sys2Proof.Machine
end

