-- ==== Sys2Proof/Machine/Step.lean ====
section
/-! DEFINITION. `Step`, the engine's one transition (40_cycle R160), and the placing of an
instruction where it fetches. -/

namespace Sys2Proof.Machine

/-- `Step`: the cycle of 40_cycle R150 to R156 over the handlers of `exec`. -/
def step (s : State) : Host.Outcome State Fault Refusal := runCycle exec s

/-- `s` with the table instruction of bits `w` (numbered as decodeTableWord numbers them) stored where
`step` fetches next, and Running, which the fetch needs (log 16). -/
def State.withFetchWord (s : State) (nbits w : Nat) : State :=
  let v := BitVec.ofNat 32 (w % 2 ^ nbits)
  let t := placeWord s s.pc (v.extractLsb' 0 16)
  { placeWord t (s.pc + 2#16) (v.extractLsb' 16 16) with run := .running }

end Sys2Proof.Machine
end

