-- ==== Sys2Proof/Machine/Run.lean ====
section
/-! DEFINITION. `run()`: `Step` repeated while Running (40_cycle R162), with a bound on the steps,
since the spec's `run()` need not return (93 U15; log 23). -/

namespace Sys2Proof.Machine

/-- At most `bound` steps, stopping as soon as the run state is not Running (40_cycle R162). -/
def runBounded : Nat → State → Host.Outcome State Fault Refusal
  | 0, s => .next s
  | bound + 1, s =>
    if s.run = .running then
      match step s with
      | .next t => runBounded bound t
      | .fault r => .fault r
      | .refused r => .refused r
    else .next s

end Sys2Proof.Machine
end

