-- ==== Sys2Proof/Safety.lean ====
section
/-! DEFINITION. What counts as a sound state and a safe run, in the terms the claims use. -/

namespace Sys2Proof.Machine


/-- A word access at `a` raises nothing: both bytes exist, and `a` is even where the policy asks it
(20_memory R74, R75). -/
abbrev State.WordOk (s : State) (a : Word) : Prop :=
  a.toNat + 1 < s.cfg.memSize ∧ (s.cfg.alignPolicy = .warn ∨ a.toNat % 2 = 0)

/-- A byte access at `a` raises nothing (20_memory R74). -/
abbrev State.ByteOk (s : State) (a : Word) : Prop := a.toNat < s.cfg.memSize

/-- What a handler reads as `x[r]` in a step from `s`: the pc already advanced by the instruction's
length `len`, any other register as it stood (40_cycle R158). -/
def operand (s : State) (len : Word) (r : Reg) : Word := if r = Reg.pc then s.pc + len else s.reg r

/-- A control-flow instruction is not skipped: it is unconditional, or its flag differs from INV
(40_cycle R153). -/
def Taken (cond : Cond) (fl : Flags) : Prop := cond.ce = false ∨ fl.get cond.cc ≠ cond.inv

/-- The run state, the fault record and the configuration are the same. -/
structure SameControl (s t : State) : Prop where
  run    : t.run = s.run
  fcause : t.fcause = s.fcause
  finfo  : t.finfo = s.finfo
  fpc    : t.fpc = s.fpc
  cfg    : t.cfg = s.cfg

/-- What an instruction of length `len` that took `s` to `t` leaves alone: every register but those of
`dst` (the pc then moved on by `len`), every byte but those at the addresses of `stored`, the control
state, and the call-out stream. -/
structure Frame (s t : State) (len : Word) (dst : Reg → Prop) (stored : Nat → Prop) : Prop where
  regs    : ∀ r, ¬ dst r → t.reg r = operand s len r
  bytes   : ∀ a, ¬ stored a → t.byteAt a = s.byteAt a
  control : SameControl s t
  calls   : t.out.calls = s.out.calls

/-- The frame of an instruction that writes register `d`, stores nothing and emits nothing. -/
structure WroteOnly (s t : State) (len : Word) (d : Reg) : Prop where
  frame : Frame s t len (fun r => r = d) (fun _ => False)
  diags : t.out.diags = s.out.diags

/-- The word `v` lies at `a` and `a + 1` of `s`, low byte first (20_memory R72). -/
def HoldsWord (s : State) (a : Word) (v : Word) : Prop :=
  v.toNat = (s.byteAt (a.toNat + 1)).toNat * 256 + (s.byteAt a.toNat).toNat

/-- `t` is `s` in the Faulted state with cause code `code` and value `info`: pc is the address of the
instruction, and every register, flag and byte is as it was (60_exceptions R404). -/
structure FaultedAs (s t : State) (code info : Nat) : Prop where
  run    : t.run = .faulted
  fcause : t.fcause.toNat = code
  finfo  : t.finfo.toNat = info
  fpc    : t.fpc = s.pc
  regs   : t.x = s.x
  flags  : t.flags = s.flags
  mem    : t.mem = s.mem
  cfg    : t.cfg = s.cfg

/-- The outcome `o` of a step part from `s` is the fault `code`, `info`, after the call-outs `made`;
the events emitted before it stay (60_exceptions R404). -/
def FaultsAfter (s : State) (made : List (BitVec 8)) (o : Host.Outcome State Fault Refusal)
    (code info : Nat) : Prop :=
  ∃ t, o = .next t ∧ FaultedAs s t code info ∧ s.out.diags <+: t.out.diags
    ∧ t.out.calls = s.out.calls ++ made

/-- The outcome `o` of a step part from `s` is the fault `code`, `info`, no call-out made. -/
def FaultsWith (s : State) (o : Host.Outcome State Fault Refusal) (code info : Nat) : Prop :=
  FaultsAfter s [] o code info

/-- The outcome `o` is the fault a word access at `a` raises, whenever it raises one, after the
call-outs `made`: MEM_BOUNDS with the first byte address outside memory, before MISALIGNED with the
address (20_memory R74, R75; 60_exceptions R406). -/
def WordFaultsAfter (s : State) (made : List (BitVec 8)) (a : Word)
    (o : Host.Outcome State Fault Refusal) : Prop :=
  (s.cfg.memSize ≤ a.toNat → FaultsAfter s made o 1 a.toNat)
  ∧ (s.cfg.memSize = a.toNat + 1 → FaultsAfter s made o 1 (a.toNat + 1))
  ∧ (a.toNat + 1 < s.cfg.memSize → s.cfg.alignPolicy = .fail → a.toNat % 2 = 1 →
      FaultsAfter s made o 2 a.toNat)

/-- The same where the step has made no call-out. -/
def WordFaults (s : State) (a : Word) (o : Host.Outcome State Fault Refusal) : Prop :=
  WordFaultsAfter s [] a o

/-! ## Diagnostics -/

/-- An access of width `w` at `a` raises nothing (20_memory R74, R75). -/
def State.AccessOk (s : State) (a : Word) : Width → Prop
  | .byte => s.ByteOk a
  | .word => s.WordOk a

/-- An access of width `w` at `a` touches the byte `b` (20_memory R71, R72). -/
def Touches (a : Word) (w : Width) (b : Nat) : Prop :=
  b = a.toNat ∨ (w = .word ∧ b = a.toNat + 1)

/-- The events `ds` are those of one access that raises nothing, in any order: ALIGN for a word at an
odd address, WPROT for each protected byte a store writes, WATCH where it touches the watched byte
(20_memory R75, R77, R78). -/
structure AccessEvents (cfg : Config) (a : Word) (w : Width) (stores : Bool) (ds : List Diag) :
    Prop where
  align : ∀ i, .align i ∈ ds ↔ w = .word ∧ i = a.toNat ∧ i % 2 = 1
  wprot : ∀ b, .wprot b ∈ ds ↔ stores = true ∧ Touches a w b
            ∧ ∃ lo hi, cfg.writeProtect = some (lo, hi) ∧ lo.toNat ≤ b ∧ b ≤ hi.toNat
  watch : ∀ b, .watch b ∈ ds ↔ (∃ wa, cfg.watch = some wa ∧ b = wa.toNat) ∧ Touches a w b

/-- The outcome `o` of a step part from `s` emits the events of its one access, of width `w` at `a`,
and no other; where the access raises it emits none (log 14). -/
def EmitsFor (s : State) (a : Word) (w : Width) (stores : Bool)
    (o : Host.Outcome State Fault Refusal) : Prop :=
  ∃ t ds, o = .next t ∧ t.out.diags = s.out.diags ++ ds
    ∧ (s.AccessOk a w → AccessEvents s.cfg a w stores ds) ∧ (¬ s.AccessOk a w → ds = [])

/-! ## What a handler's acts leave (49_system R392) -/

/-- `act` is among `acts` and no act after it satisfies `q`. -/
def LastAct (acts : List HandlerAct) (act : HandlerAct) (q : HandlerAct → Prop) : Prop :=
  ∃ pre post, acts = pre ++ act :: post ∧ ∀ b ∈ post, ¬ q b

/-- The acts that may write register `r`: a direct write, and for SP the primitives (47_stack R344). -/
def writesReg (r : Reg) : HandlerAct → Bool
  | .setReg q _ => q == r
  | .dpush _ | .dpop => r == Reg.sp
  | .setFlag _ _ | .setByte _ _ | .setRun _ | .setRecord _ _ _ => false

/-- The acts that may write flag `f`. -/
def writesFlag (f : Flag) : HandlerAct → Bool
  | .setFlag g _ => g == f
  | .setReg _ _ | .setByte _ _ | .setRun _ | .setRecord _ _ _ | .dpush _ | .dpop => false

/-- The acts that write the run state. -/
def writesRun : HandlerAct → Bool
  | .setRun _ => true
  | .setReg _ _ | .setFlag _ _ | .setByte _ _ | .setRecord _ _ _ | .dpush _ | .dpop => false

/-- The acts that write the fault record. -/
def writesRecord : HandlerAct → Bool
  | .setRecord _ _ _ => true
  | .setReg _ _ | .setFlag _ _ | .setByte _ _ | .setRun _ | .dpush _ | .dpop => false

/-- SP after an act done with SP = `sp` (47_stack R344). -/
def spAfterAct (sp : Word) : HandlerAct → Word
  | .setReg r v => if r = Reg.sp then v else sp
  | .dpush _ => sp - 2#16
  | .dpop => sp + 2#16
  | .setFlag _ _ | .setByte _ _ | .setRun _ | .setRecord _ _ _ => sp

/-- SP after `acts`, done in order with SP = `sp` first. -/
def spAfter (sp : Word) (acts : List HandlerAct) : Word := acts.foldl spAfterAct sp

/-- The address of the word access an act makes with SP = `sp`: a `dpush` writes at SP, a `dpop` reads
at SP + 2; no other act makes one (47_stack R344; log 10). -/
def stackAddress (sp : Word) : HandlerAct → Option Word
  | .dpush _ => some sp
  | .dpop => some (sp + 2#16)
  | .setReg _ _ | .setFlag _ _ | .setByte _ _ | .setRun _ | .setRecord _ _ _ => none

/-- What an act done with SP = `sp` stores in the byte at `a`, if anything: a `dpush` its word at SP, low
byte first. -/
def storedBy (sp : Word) (act : HandlerAct) (a : Nat) : Option Byte :=
  match act with
  | .setByte b v => if a = b.toNat then some v else none
  | .dpush v =>
    if a = sp.toNat then some (v.setWidth 8)
    else if a = sp.toNat + 1 then some ((v >>> 8).setWidth 8)
    else none
  | .setReg _ _ | .setFlag _ _ | .setRun _ | .setRecord _ _ _ | .dpop => none

/-- What the byte at `a` holds after `acts`, done in order with SP = `sp` and `old` in that byte first. -/
def byteAfter (a : Nat) : Word → Byte → List HandlerAct → Byte
  | _, old, [] => old
  | sp, old, act :: rest =>
    byteAfter a (spAfterAct sp act) ((storedBy sp act a).getD old) rest

/-- In `s` every one of `acts`, done in order with SP = `sp` first, is allowed and raises nothing. -/
def State.actsDone (s : State) : Word → List HandlerAct → Bool
  | _, [] => true
  | sp, act :: rest =>
    actAllowed s.cfg act
      && (match stackAddress sp act with
          | some a => decide (s.WordOk a)
          | none => true)
      && s.actsDone (spAfterAct sp act) rest

/-- The acts `acts`, done in order from `s` with pc at I + 2, left `t`: what no act writes is as it was,
and what an act writes last holds what that act wrote; for SP and each byte of memory, where the
address a `dpush` stores to depends on the acts before it, what the acts make of it one by one. -/
structure ActsLeave (s t : State) (acts : List HandlerAct) : Prop where
  keepReg    : ∀ r, (∀ b ∈ acts, writesReg r b = false) → t.reg r = operand s 2#16 r
  lastReg    : ∀ r v, LastAct acts (.setReg r v) (fun b => writesReg r b = true) → t.reg r = v
  sp         : t.reg Reg.sp = spAfter (s.reg Reg.sp) acts
  keepFlag   : ∀ f, (∀ b ∈ acts, writesFlag f b = false) → t.flags.get f = s.flags.get f
  lastFlag   : ∀ f v, LastAct acts (.setFlag f v) (fun b => writesFlag f b = true) →
                t.flags.get f = v
  bytes      : ∀ a, t.byteAt a = byteAfter a (s.reg Reg.sp) (s.byteAt a) acts
  keepRun    : (∀ b ∈ acts, writesRun b = false) → t.run = s.run
  lastRun    : ∀ r, LastAct acts (.setRun r) (fun b => writesRun b = true) → t.run = r
  keepRecord : (∀ b ∈ acts, writesRecord b = false) →
                t.fcause = s.fcause ∧ t.finfo = s.finfo ∧ t.fpc = s.fpc
  lastRecord : ∀ c info p, LastAct acts (.setRecord c info p) (fun b => writesRecord b = true) →
                t.fcause = c ∧ t.finfo = info ∧ t.fpc = p
  cfg        : t.cfg = s.cfg

/-- `arith_flags(r32)` and the register write, for the 32-bit result `r32` as a number, with the
family's frame (40_cycle R170; 42_arithmetic R219). -/
structure ArithResult (s t : State) (len : Word) (ra : Reg) (r32 : Nat) : Prop where
  value : (t.reg ra).toNat = r32 % 2 ^ 16
  carry : t.flags.c = r32.testBit 16
  zero  : t.flags.z = decide (r32 % 2 ^ 16 = 0)
  sign  : t.flags.s = r32.testBit 15
  odd   : t.flags.o = match s.cfg.oMask with
            | .above16 => decide (2 ^ 17 ≤ r32)
            | .from16  => decide (2 ^ 16 ≤ r32)
  rest  : WroteOnly s t len ra

/-- `bool_flags(r)` and the register write, with the family's frame (40_cycle R171). -/
structure BoolResult (s t : State) (len : Word) (ra : Reg) (r : Word) : Prop where
  value : t.reg ra = r
  carry : t.flags.c = s.flags.c
  zero  : t.flags.z = decide (r.toNat = 0)
  sign  : t.flags.s = decide (2 ^ 15 ≤ r.toNat)
  odd   : t.flags.o = decide (r.toNat % 2 = 1)
  rest  : WroteOnly s t len ra

/-- `shift_flags(r, n, cout)` of the result left in `ra`, with the family's frame (40_cycle R172). -/
structure ShiftResult (s t : State) (ra : Reg) (n : BitVec 4) (cout : Bool) : Prop where
  carry : t.flags.c = if n = 0#4 then s.flags.c else cout
  zero  : t.flags.z = decide ((t.reg ra).toNat = 0)
  sign  : t.flags.s = decide (2 ^ 15 ≤ (t.reg ra).toNat)
  odd   : t.flags.o = s.flags.o
  rest  : WroteOnly s t 2#16 ra

/-! ## Encodings as the rules write them -/

/-- `base | a<<4 | b` (30_encoding R118). -/
def word2 (base : Word) (a b : BitVec 4) : Word := base ||| (a.setWidth 16 <<< 4) ||| b.setWidth 16

/-- `base | low8` (30_encoding R118). -/
def word1 (base : Word) (low : BitVec 8) : Word := base ||| low.setWidth 16

/-- `base | CE<<13 | INV<<12 | CC<<10 | low8` (48_control_transfer R360). -/
def wordCf (base : Word) (cond : Cond) (low : BitVec 8) : Word :=
  base ||| ((BitVec.ofBool cond.ce).setWidth 16 <<< 13)
    ||| ((BitVec.ofBool cond.inv).setWidth 16 <<< 12)
    ||| (cond.cc.bits.setWidth 16 <<< 10) ||| low.setWidth 16

/-- Whatever word `imm` follows it, the first word `w` decodes to `mk imm`. -/
def DecodesTo (w : Word) (mk : Word → Instr) : Prop := ∀ imm, decode w imm = some (mk imm)

/-- The 52 assigned general opcodes, in the order of 30_encoding R118. -/
def assignedOpcodes : List Nat :=
  [0x00, 0x01, 0x02, 0x03, 0x08, 0x09, 0x0A, 0x0B, 0x10, 0x11, 0x12, 0x14, 0x15, 0x16, 0x18, 0x1A]
  ++ [0x1C, 0x1E, 0x20, 0x22, 0x24, 0x26, 0x28, 0x2A, 0x2C, 0x30, 0x31, 0x32, 0x33, 0x34, 0x35]
  ++ [0x36, 0x37, 0x38, 0x39, 0x3A, 0x3B, 0x40, 0x41, 0x42, 0x48, 0x49, 0x4A, 0x4B, 0x4C, 0x4D]
  ++ [0x4E, 0x4F, 0x50, 0x51, 0x52, 0x53]

/-! ## Which instructions write what -/

/-- The instructions that may write a flag (10_state R42): arithmetic, boolean, shift and rotate, BIT;
and SYSCALL, whose handler may (49_system R392). -/
def mayWriteFlags : Instr → Bool
  | .add _ _ | .addi _ _ | .addil _ _ _ | .sub _ _ | .subi _ _ | .subil _ _ _
  | .mul _ _ | .mulil _ _ _ | .div _ _ | .divil _ _ _
  | .and _ _ | .andil _ _ _ | .or _ _ | .oril _ _ _ | .xor _ _ | .xoril _ _ _ | .not _ _
  | .shl _ _ | .shli _ _ | .shr _ _ | .shri _ _ | .rol _ _ | .roli _ _ | .ror _ _ | .rori _ _
  | .rlc _ _ | .rlci _ _ | .rrc _ _ | .rrci _ _ | .bit _ _ | .syscall _ => true
  | .nop _ | .halt _ | .ret _ | .mov _ _ | .movi _ _ | .movil _ _ _ | .movai _
  | .bset _ _ | .bclr _ _ | .ld _ _ | .ldb _ _ | .st _ _ | .stb _ _
  | .ldx _ _ _ | .ldbx _ _ _ | .stx _ _ _ | .stbx _ _ _
  | .push _ _ | .pop _ _ | .rpush _ _ | .rpop _ _
  | .jp _ _ _ | .jr _ _ | .jx _ _ _ | .jxl _ _ _ _
  | .call _ _ _ | .callr _ _ | .callx _ _ _ | .callxl _ _ _ _ => false

/-- The instructions that may write memory (20_memory R80): stores, pushes, calls, and SYSCALL. -/
def mayStore : Instr → Bool
  | .st _ _ | .stb _ _ | .stx _ _ _ | .stbx _ _ _ | .push _ _ | .rpush _ _
  | .call _ _ _ | .callr _ _ | .callx _ _ _ | .callxl _ _ _ _ | .syscall _ => true
  | .nop _ | .halt _ | .ret _ | .mov _ _ | .movi _ _ | .movil _ _ _ | .movai _
  | .add _ _ | .addi _ _ | .addil _ _ _ | .sub _ _ | .subi _ _ | .subil _ _ _
  | .mul _ _ | .mulil _ _ _ | .div _ _ | .divil _ _ _
  | .and _ _ | .andil _ _ _ | .or _ _ | .oril _ _ _ | .xor _ _ | .xoril _ _ _ | .not _ _
  | .shl _ _ | .shli _ _ | .shr _ _ | .shri _ _ | .rol _ _ | .roli _ _ | .ror _ _ | .rori _ _
  | .rlc _ _ | .rlci _ _ | .rrc _ _ | .rrci _ _ | .bit _ _ | .bset _ _ | .bclr _ _
  | .ld _ _ | .ldb _ _ | .ldx _ _ _ | .ldbx _ _ _ | .pop _ _ | .rpop _ _
  | .jp _ _ _ | .jr _ _ | .jx _ _ _ | .jxl _ _ _ _ => false

/-! ## The invariant -/

/-- Memory is in its canonical form and lists only bytes that exist (10_state R50). -/
def State.memOk (s : State) : Bool := Memory.wf s.mem && Memory.within s.cfg.memSize s.mem

/-- The fault record agrees with its cause as the table of 60_exceptions R403 says: MEM_BOUNDS
reports a byte address at or above MEM_SIZE and at most 0x10000; MISALIGNED an odd 16-bit address,
only under `fail`; DIV_ZERO the word of a DIV or DIVIL; ILLEGAL a general word with an unassigned
opcode, only under `fault`. -/
def State.recordOk (s : State) : Bool :=
  (s.fcause == causeCode .memBounds
      && decide (s.cfg.memSize ≤ s.finfo.toNat) && decide (s.finfo.toNat ≤ 0x10000))
  || (s.fcause == causeCode .misaligned
      && s.cfg.alignPolicy == .fail && s.finfo.getLsbD 0 && !s.finfo.getLsbD 16)
  || (s.fcause == causeCode .divZero
      && (s.finfo.extractLsb' 8 9 == 0x1C#9 || s.finfo.extractLsb' 8 9 == 0x1E#9))
  || (s.fcause == causeCode .illegal
      && s.cfg.illegalPolicy == .fault && !s.finfo.getLsbD 16
      && (decode (s.finfo.extractLsb' 0 16) 0#16).isNone)

/-- While Faulted, pc is the address the record holds and the record agrees with its cause
(60_exceptions R403, R404). -/
def State.faultOk (s : State) : Bool :=
  s.run != .faulted || (s.fpc == s.pc && s.recordOk)

/-- The invariant of the engine: parameters in range, memory sound, fault record sound. -/
abbrev State.Inv (s : State) : Prop :=
  s.cfg.wf = true ∧ s.memOk = true ∧ s.faultOk = true

end Sys2Proof.Machine
end

