-- ==== Sys2Proof/Certificates/Slice0/Obligations.lean ====
section
/-! DEFINITION. The statements for the provers. The terms they use (Frame, WroteOnly, FaultedAs,
WordFaults, the result shapes, the encodings as the rules write them) stand in Safety.lean. -/

open Sys2Proof Sys2Proof.Machine

/-! ## Encoding -/

/-- Decoding an encoded instruction gives it back, whatever bytes follow (R118, R119, R124, R138). -/
def Obligations.DecodeUndoesEncode : Prop :=
  ∀ (i : Instr) (rest : List Byte), decodeBytes (encodeBytes i ++ rest) = .ok (i, rest)

/-- No bit of an instruction is lost by decoding it: the encoder gives the very bytes back, ignored
fields included (R118, R119, R124; log 17). -/
def Obligations.EncodeUndoesDecode : Prop :=
  ∀ (bs : List Byte) (i : Instr) (rest : List Byte),
    decodeBytes bs = .ok (i, rest) → bs = encodeBytes i ++ rest

/-- A word is illegal exactly when bit 15 is 0 and its opcode is none of the 52 assigned ones; the
control-flow space has no illegal word (R120, R122). -/
def Obligations.IllegalWordsAreTheUnassignedOpcodes : Prop :=
  (∀ w imm : Word, decode w imm = none ↔
    w.toNat < 0x8000 ∧ w.toNat / 256 ∉ assignedOpcodes)
  ∧ ((List.range 128).filter fun op => !assignedOpcodes.contains op).length = 76

/-- The first word alone tells the length (R117): 4 bytes for the listed general opcodes and for
control-flow words of MODE 00 or 11, else 2; an illegal word is 2 bytes. That the encoder gives the very
words back, ignored bits included, is the model's (log 17). -/
def Obligations.LengthFromFirstWord : Prop :=
  (∀ w imm : Word, ∀ i : Instr, decode w imm = some i →
    encode i = if w.isLong then [w, imm] else [w])
  ∧ (∀ w imm : Word, decode w imm = none → w.isLong = false)
  ∧ (∀ w : Word, w.isLong = true ↔
      (w.toNat < 0x8000 ∧ w.toNat / 256 ∈
        [0x0A, 0x12, 0x16, 0x1A, 0x1E, 0x22, 0x26, 0x2A, 0x4C, 0x4D, 0x4E, 0x4F])
      ∨ (0x8000 ≤ w.toNat ∧ (w.toNat / 256 % 4 = 0 ∨ w.toNat / 256 % 4 = 3)))

/-- Words written out from the rules' examples decode to the instructions they stand for. -/
def Obligations.ExampleWordsDecode : Prop :=
  decode 0x092D 0 = some (.movi 2 0xD)
  ∧ decode 0x0AD0 0x01FE = some (.movil 13 0 0x01FE)
  ∧ decode 0x1001 0 = some (.add 0 1)
  ∧ decode 0x2240 0xFF00 = some (.andil 4 0 0xFF00)
  ∧ decode 0x3921 0 = some (.rlci 2 1)
  ∧ decode 0x411F 0 = some (.bset 1 15)
  ∧ decode 0x4D01 0xFFFF = some (.ldbx 0 1 0xFFFF)
  ∧ decode 0x52A0 0 = some (.rpush 10 0)
  ∧ decode 0xB5FF 0 = some (.jr ⟨true, true, .z⟩ 0xFF)
  ∧ decode 0xC310 0x0200 = some (.callxl ⟨false, false, .c⟩ 1 0 0x0200)
  ∧ decode 0x0303 0 = some (.syscall 3)
  ∧ decode 0x7F12 0 = none

/-- An ignored field changes nothing the instruction does (R121). DIVIL by zero alone reports the
word fetched, its ignored bits included, so it is stated for a divisor that is not zero (log 17). -/
def Obligations.IgnoredFieldsChangeNothing : Prop :=
  ∀ (s : State) (ra : Reg) (x y : BitVec 4) (p q : BitVec 8) (imm : Word) (cond : Cond)
    (inv inv' : Bool) (cc cc' : Flag) (d : BitVec 8),
    exec (.nop p) s = exec (.nop q) s ∧ exec (.halt p) s = exec (.halt q) s
    ∧ exec (.ret p) s = exec (.ret q) s
    ∧ exec (.movil ra x imm) s = exec (.movil ra y imm) s
    ∧ exec (.addil ra x imm) s = exec (.addil ra y imm) s
    ∧ exec (.subil ra x imm) s = exec (.subil ra y imm) s
    ∧ exec (.mulil ra x imm) s = exec (.mulil ra y imm) s
    ∧ (imm ≠ 0#16 → exec (.divil ra x imm) s = exec (.divil ra y imm) s)
    ∧ exec (.andil ra x imm) s = exec (.andil ra y imm) s
    ∧ exec (.oril ra x imm) s = exec (.oril ra y imm) s
    ∧ exec (.xoril ra x imm) s = exec (.xoril ra y imm) s
    ∧ exec (.not ra x) s = exec (.not ra y) s
    ∧ exec (.push ra x) s = exec (.push ra y) s ∧ exec (.pop ra x) s = exec (.pop ra y) s
    ∧ exec (.rpush ra x) s = exec (.rpush ra y) s ∧ exec (.rpop ra x) s = exec (.rpop ra y) s
    ∧ exec (.jp cond p imm) s = exec (.jp cond q imm) s
    ∧ exec (.jxl cond ra x imm) s = exec (.jxl cond ra y imm) s
    ∧ exec (.call cond p imm) s = exec (.call cond q imm) s
    ∧ exec (.callxl cond ra x imm) s = exec (.callxl cond ra y imm) s
    ∧ exec (.jp ⟨false, inv, cc⟩ p imm) s = exec (.jp ⟨false, inv', cc'⟩ q imm) s
    ∧ exec (.jr ⟨false, inv, cc⟩ d) s = exec (.jr ⟨false, inv', cc'⟩ d) s
    ∧ exec (.jx ⟨false, inv, cc⟩ ra x) s = exec (.jx ⟨false, inv', cc'⟩ ra x) s
    ∧ exec (.jxl ⟨false, inv, cc⟩ ra x imm) s = exec (.jxl ⟨false, inv', cc'⟩ ra y imm) s
    ∧ exec (.call ⟨false, inv, cc⟩ p imm) s = exec (.call ⟨false, inv', cc'⟩ q imm) s
    ∧ exec (.callr ⟨false, inv, cc⟩ d) s = exec (.callr ⟨false, inv', cc'⟩ d) s
    ∧ exec (.callx ⟨false, inv, cc⟩ ra x) s = exec (.callx ⟨false, inv', cc'⟩ ra x) s
    ∧ exec (.callxl ⟨false, inv, cc⟩ ra x imm) s = exec (.callxl ⟨false, inv', cc'⟩ ra y imm) s

/-- What the assembler emits for an operand value (R135): no byte exactly when the value is outside the
range of the instruction's class; else the instruction with the value modulo 2 to the field's width in
that field and nothing else changed. The displacement of JR and CALLR is the word distance, and takes an
unskipped JR to its target, for a target an even distance away (R135, R361). -/
def Obligations.AssembledOperands : Prop :=
  (∀ (ra rb : Reg) (x k : BitVec 4) (p : BitVec 8) (imm : Word) (cond : Cond) (v : Int),
    (∀ i ∈ [Instr.movi ra k, .jx cond ra k, .callx cond ra k],
      i.emitWith v = [] ↔ v < -8 ∨ 7 < v)
    ∧ (∀ i ∈ [Instr.addi ra k, .subi ra k, .shli ra k, .shri ra k, .roli ra k, .rori ra k,
        .rlci ra k, .rrci ra k, .bit ra k, .bset ra k, .bclr ra k],
      i.emitWith v = [] ↔ v < 0 ∨ 15 < v)
    ∧ (∀ i ∈ [Instr.movai p, .jr cond p, .callr cond p], i.emitWith v = [] ↔ v < -128 ∨ 127 < v)
    ∧ ((Instr.syscall p).emitWith v = [] ↔ v < 0 ∨ 255 < v)
    ∧ ∀ i ∈ [Instr.movil ra x imm, .addil ra x imm, .subil ra x imm, .mulil ra x imm,
        .divil ra x imm, .andil ra x imm, .oril ra x imm, .xoril ra x imm, .ldx ra rb imm,
        .ldbx ra rb imm, .stx ra rb imm, .stbx ra rb imm, .jp cond p imm, .jxl cond ra x imm,
        .call cond p imm, .callxl cond ra x imm],
      i.emitWith v = [] ↔ v < -32768 ∨ 65535 < v)
  ∧ (∀ (i : Instr) (v : Int) (k : RangeClass), i.rangeClass = some k → i.emitWith v ≠ [] →
      ∃ j : Instr, i.emitWith v = encodeBytes j
        ∧ j.operandField = some (v % 2 ^ k.width).toNat
        ∧ ∀ f, i.operandField = some f → j.withField f = i)
  ∧ (∀ (i : Instr) (v : Int), i.rangeClass = none → i.emitWith v = encodeBytes i)
  ∧ ∀ (target here : Word),
    (relativeDisp target here = none ↔
      ((target.toNat : Int) - here.toNat - 2) / 2 < -128
      ∨ 127 < ((target.toNat : Int) - here.toNat - 2) / 2)
    ∧ ∀ (d : BitVec 8) (s : State) (cond : Cond), relativeDisp target here = some d →
        (∀ q, (Instr.jr cond q).emitWith (relativeDistance target here)
            = encodeBytes (.jr cond d)
          ∧ (Instr.callr cond q).emitWith (relativeDistance target here)
            = encodeBytes (.callr cond d))
        ∧ (target.toNat % 2 = here.toNat % 2 → s.pc = here → Taken cond s.flags →
            ∃ t, exec (.jr cond d) s = .next t ∧ t.pc = target)

/-! ## Memory -/

/-- The model's memory as a list of cells (log 2): a byte written is read back and every other byte
reads as before, the write keeps the canonical form, and two memories of that form that read alike are
the same list. -/
def Obligations.CanonicalMemory : Prop :=
  (∀ (s : State) (a : Nat) (b : Byte), s.memOk = true →
    (∀ i, (s.setByteAt a b).byteAt i = if i = a then b else s.byteAt i)
    ∧ (a < s.cfg.memSize → (s.setByteAt a b).memOk = true))
  ∧ ∀ m n : List Host.Cell, Memory.wf m = true → Memory.wf n = true →
    (∀ a, Memory.get m a = Memory.get n a) → m = n

/-- The word primitives are little-endian and bounds-checked (R72, R73): a word access that raises
nothing writes the low byte at a and the high byte at a + 1 and nothing else, and reads the word
back. -/
def Obligations.WordsAreLittleEndian : Prop :=
  ∀ (s : State) (a v : Word), s.memOk = true → s.WordOk a →
    ∃ t, memWriteWord s a v = .ok t
      ∧ (t.byteAt a.toNat).toNat = v.toNat % 256
      ∧ (t.byteAt (a.toNat + 1)).toNat = v.toNat / 256
      ∧ (∀ i, i ≠ a.toNat → i ≠ a.toNat + 1 → t.byteAt i = s.byteAt i)
      ∧ ∃ u, memReadWord t a = .ok (v, u)

/-- The diagnostics of every access (R75, R77, R78): of a fetch, which R76 makes a word read, of each
instruction that accesses memory, at the address it accesses, and of a handler's `dpush` and `dpop`
(R344). That an access that raises emits nothing is DEDUCED (log 14); scripts are the model's (log 11). -/
def Obligations.AccessDiagnostics : Prop :=
  (∀ (cfg : Config) (a : Word), AccessEvents cfg a .word false (readDiags cfg a .word))
  ∧ (∀ s : State, s.run = .running → ¬ s.WordOk s.pc →
      ∃ t, step s = .next t ∧ t.out.diags = s.out.diags)
  ∧ (∀ (s : State) (w : Word), s.run = .running → s.WordOk s.pc → HoldsWord s s.pc w →
      w.isLong = true → ¬ s.WordOk (s.pc + 2#16) →
      ∃ t, step s = .next t ∧ t.out.diags = s.out.diags ++ readDiags s.cfg s.pc .word)
  ∧ (∀ (s : State) (n : BitVec 8) (v : Word), n.toNat < s.cfg.tableSize →
      (s.cfg.handlers.lookup n = some (.script [.dpush v]) →
        EmitsFor s (s.reg 13#4) .word true (exec (.syscall n) s))
      ∧ (s.cfg.handlers.lookup n = some (.script [.dpop]) →
        EmitsFor s (s.reg 13#4 + 2#16) .word false (exec (.syscall n) s)))
  ∧ ∀ (s : State) (ra rb : Reg) (x k : BitVec 4) (p d : BitVec 8) (imm : Word) (cond : Cond),
    EmitsFor s (operand s 2#16 rb) .word false (exec (.ld ra rb) s)
    ∧ EmitsFor s (operand s 2#16 rb) .byte false (exec (.ldb ra rb) s)
    ∧ EmitsFor s (operand s 2#16 ra) .word true (exec (.st ra rb) s)
    ∧ EmitsFor s (operand s 2#16 ra) .byte true (exec (.stb ra rb) s)
    ∧ EmitsFor s (operand s 4#16 rb + imm) .word false (exec (.ldx ra rb imm) s)
    ∧ EmitsFor s (operand s 4#16 rb + imm) .byte false (exec (.ldbx ra rb imm) s)
    ∧ EmitsFor s (operand s 4#16 ra + imm) .word true (exec (.stx ra rb imm) s)
    ∧ EmitsFor s (operand s 4#16 ra + imm) .byte true (exec (.stbx ra rb imm) s)
    ∧ EmitsFor s (s.reg 13#4) .word true (exec (.push ra x) s)
    ∧ EmitsFor s (s.reg 13#4 + 2#16) .word false (exec (.pop ra x) s)
    ∧ EmitsFor s (s.reg 14#4) .word true (exec (.rpush ra x) s)
    ∧ EmitsFor s (s.reg 14#4 + 2#16) .word false (exec (.rpop ra x) s)
    ∧ EmitsFor s (s.reg 14#4 + 2#16) .word false (exec (.ret p) s)
    ∧ (Taken cond s.flags →
        EmitsFor s (s.reg 14#4) .word true (exec (.call cond p imm) s)
        ∧ EmitsFor s (s.reg 14#4) .word true (exec (.callr cond d) s)
        ∧ EmitsFor s (s.reg 14#4) .word true (exec (.callx cond ra k) s)
        ∧ EmitsFor s (s.reg 14#4) .word true (exec (.callxl cond ra x imm) s))

/-! ## The step -/

/-- A step when not Running does nothing (R150). -/
def Obligations.StepWhenNotRunning : Prop :=
  ∀ s : State, s.run ≠ .running → step s = .next s

/-- When the words at pc decode to an instruction, the step is exec of it, from the state with the
fetches' diagnostics emitted; with an even pc and no watch, from the very state. -/
def Obligations.StepRunsDecoded : Prop :=
  ∀ (s : State) (w imm : Word) (i : Instr), s.run = .running → s.WordOk s.pc →
    HoldsWord s s.pc w →
    (w.isLong = true → s.WordOk (s.pc + 2#16) ∧ HoldsWord s (s.pc + 2#16) imm) →
    decode w imm = some i →
    step s = exec i (s.emit (readDiags s.cfg s.pc .word
        ++ if w.isLong then readDiags s.cfg (s.pc + 2#16) .word else []))
    ∧ (s.pc.toNat % 2 = 0 → s.cfg.watch = none → step s = exec i s)

/-- An unassigned opcode is a two-byte NOP under `nop` and the ILLEGAL fault with the word under
`fault` (R120). -/
def Obligations.IllegalOpcodeStep : Prop :=
  ∀ (s : State) (w : Word), s.run = .running → s.WordOk s.pc → HoldsWord s s.pc w →
    w.toNat < 0x8000 → w.toNat / 256 ∉ assignedOpcodes →
    (s.cfg.illegalPolicy = .nop → ∃ t, step s = .next t ∧ t.flags = s.flags
      ∧ Frame s t 2#16 (fun _ => False) (fun _ => False))
    ∧ (s.cfg.illegalPolicy = .fault → ∃ t, step s = .next t ∧ FaultedAs s t 4 w.toNat)

/-- A fetch that cannot be made faults: MEM_BOUNDS with the first byte outside memory, before
MISALIGNED (R151, R74, R75, R406). -/
def Obligations.FirstFetchFaults : Prop :=
  ∀ s : State, s.run = .running → WordFaults s s.pc (step s)

/-- A long form whose trailing word cannot be fetched faults, whatever its condition (R154, R405). -/
def Obligations.TrailingFetchFaults : Prop :=
  ∀ (s : State) (w : Word), s.run = .running → s.WordOk s.pc → HoldsWord s s.pc w →
    w.isLong = true →
    WordFaults (s.emit (readDiags s.cfg s.pc .word)) (s.pc + 2#16) (step s)

/-- Running is left only by a fault, by HALT, or by a syscall handler (R163, R391, R392). -/
def Obligations.RunningIsLeftOnlyByFaultHaltOrHandler : Prop :=
  ∀ s t : State, s.run = .running → step s = .next t → t.run ≠ .running →
    t.run = .faulted
    ∨ ∃ w imm, HoldsWord s s.pc w
        ∧ ((∃ x, decode w imm = some (.halt x))
          ∨ ∃ n, decode w imm = some (.syscall n) ∧ n.toNat < s.cfg.tableSize
              ∧ (s.cfg.handlers.lookup n).isSome = true)

/-- `run()` repeats `Step` while Running and returns once the state is not Running (R162), under a bound on
the steps, which is the model's (log 23): not Running, it does nothing; Running, it takes a step and goes
on with one step fewer, or stops where the step stops; and with a larger bound it goes on from where it
was. -/
def Obligations.RunRepeatsStep : Prop :=
  (∀ (k : Nat) (s : State), s.run ≠ .running → runBounded k s = .next s)
  ∧ (∀ s : State, runBounded 0 s = .next s)
  ∧ (∀ (k : Nat) (s : State), s.run = .running → runBounded (k + 1) s =
      match step s with
      | .next t => runBounded k t
      | .fault r => .fault r
      | .refused r => .refused r)
  ∧ ∀ (k m : Nat) (s t : State), runBounded k s = .next t →
      runBounded (k + m) s = runBounded m t

/-! ## Reset, construction and the host -/

/-- The values `Reset` states, at the reset state (R451). -/
def Obligations.ResetStateValues : Prop :=
  State.reset.run = .running ∧ State.reset.pc = 0x0000#16 ∧ State.reset.fcause = 0#3
  ∧ State.reset.finfo = 0#17 ∧ State.reset.fpc = 0#16

/-- The invariant holds at the reset state; its canonical memory is a DESIGN CHOICE (log 2). -/
def Obligations.InvariantAtReset : Prop := State.reset.Inv

/-- The `Reset` transaction (R451) and `ResetToHalted` (R452), from any run state: what each sets, and
that it changes nothing else of the state. -/
def Obligations.ResetTransactions : Prop :=
  (∀ (s : State) (draw : Option ResetValues), ∃ t, hostTx s (.reset draw) = some t
    ∧ t.run = .running ∧ t.pc = 0x0000#16 ∧ t.fcause = 0#3 ∧ t.finfo = 0#17 ∧ t.fpc = 0#16
    ∧ t.mem = s.mem ∧ t.cfg = s.cfg
    ∧ (draw = none → t.flags = s.flags ∧ ∀ r, r ≠ Reg.pc → t.reg r = s.reg r)
    ∧ ∀ d, draw = some d → t.flags = d.flags
        ∧ ∀ r : Reg, r ≠ Reg.pc → t.reg r = d.x[r.toNat]'r.isLt)
  ∧ ∀ s : State, ∃ t, hostTx s .resetToHalted = some t ∧ t.run = .halted
    ∧ (∀ r, t.reg r = s.reg r) ∧ t.flags = s.flags ∧ t.mem = s.mem ∧ t.cfg = s.cfg
    ∧ t.fcause = s.fcause ∧ t.finfo = s.finfo ∧ t.fpc = s.fpc

/-- Only `Reset` makes a stopped engine execute again, and only `Reset` and `ResetToHalted` leave Faulted
(R434, R404, R407): no other host transaction and no step does. That a host write of the run state is
refused there, where R454 lets the host write it, is DEDUCED (log 24). -/
def Obligations.OnlyResetsLeaveAStop : Prop :=
  (∀ (s t : State) (tx : HostTx), s.run ≠ .running → hostTx s tx = some t →
    (t.run = .running ↔ ∃ draw, tx = .reset draw)
    ∧ (s.run = .faulted → (t.run = .halted ↔ tx = .resetToHalted)))
  ∧ ∀ s t : State, s.run ≠ .running → step s = .next t → t.run = s.run

/-- A new engine (R450): Halted, the fault record 0, every slot empty, no debug setting, and registers,
flags and memory bytes the draw; with parameters in range it meets the invariant. That a draw of memory
is a list, of which the last entry for a byte counts, is the model's form (log 22), and so is the
canonical memory of the invariant (log 2). -/
def Obligations.ConstructionState : Prop :=
  ∀ (b : Build) (d : InitValues),
    (construct b d).run = .halted ∧ (construct b d).fcause = 0#3 ∧ (construct b d).finfo = 0#17
    ∧ (construct b d).fpc = 0#16
    ∧ (construct b d).cfg = ⟨b.memSize, b.alignPolicy, b.illegalPolicy, b.oMask, b.tableSize, [],
        none, none⟩
    ∧ (∀ r : Reg, (construct b d).reg r = d.x[r.toNat]'r.isLt)
    ∧ (construct b d).flags = d.flags
    ∧ (∀ pre post a v, d.bytes = pre ++ (a, v) :: post → (∀ c ∈ post, c.1 ≠ a) → a < b.memSize →
        (construct b d).byteAt a = v)
    ∧ (1 ≤ b.memSize → b.memSize ≤ 65536 → b.tableSize ≤ 256 → (construct b d).Inv)

/-- Host writes take effect at once, change nothing else and raise nothing; a byte outside memory and the
run state Faulted are refused (R454). The fault record is written too, as any state (R433); that every
record is accepted in every run state is DEDUCED (log 27). That a write of the run state is refused where
only a reset makes the change is DEDUCED (log 24), and that a read outside memory is refused is a DESIGN
CHOICE (log 25). -/
def Obligations.HostWrites : Prop :=
  ∀ (s : State),
    (∀ r v, ∃ t, hostTx s (.writeReg r v) = some t ∧ t.reg r = v
      ∧ (∀ q, q ≠ r → t.reg q = s.reg q) ∧ t.flags = s.flags ∧ t.mem = s.mem ∧ SameControl s t
      ∧ t.out = s.out)
    ∧ (∀ f b, ∃ t, hostTx s (.writeFlag f b) = some t ∧ t.flags.get f = b
      ∧ (∀ g, g ≠ f → t.flags.get g = s.flags.get g) ∧ t.x = s.x ∧ t.mem = s.mem
      ∧ SameControl s t ∧ t.out = s.out)
    ∧ (∀ a b, s.memOk = true → a < s.cfg.memSize → ∃ t, hostTx s (.writeByte a b) = some t
      ∧ hostReadByte t a = some b ∧ (∀ i, i ≠ a → hostReadByte t i = hostReadByte s i)
      ∧ t.x = s.x ∧ t.flags = s.flags ∧ SameControl s t ∧ t.out = s.out)
    ∧ (∀ a b, s.cfg.memSize ≤ a →
        hostTx s (.writeByte a b) = none ∧ hostReadByte s a = none)
    ∧ hostTx s (.writeRun .faulted) = none
    ∧ (s.run ≠ .running → hostTx s (.writeRun .running) = none)
    ∧ (s.run = .faulted → hostTx s (.writeRun .halted) = none)
    ∧ (∀ r, r ≠ .faulted → s.run = .running ∨ (s.run = .halted ∧ r = .halted) →
      ∃ t, hostTx s (.writeRun r) = some t ∧ t.run = r ∧ t.x = s.x
      ∧ t.flags = s.flags ∧ t.mem = s.mem ∧ t.cfg = s.cfg ∧ t.out = s.out
      ∧ t.fcause = s.fcause ∧ t.finfo = s.finfo ∧ t.fpc = s.fpc)
    ∧ (∀ c i p, ∃ t, hostTx s (.writeRecord c i p) = some t
      ∧ t.fcause = c ∧ t.finfo = i ∧ t.fpc = p ∧ t.run = s.run ∧ t.x = s.x
      ∧ t.flags = s.flags ∧ t.mem = s.mem ∧ t.cfg = s.cfg ∧ t.out = s.out)

/-- The transactions on the configuration: AddSyscall fills one slot and leaves the others, the debug
settings are set and cleared, and nothing else changes (00_scope R9; 20_memory R77, R78). A slot the
table does not have is refused (the model's choice, log 21). -/
def Obligations.ConfigurationTransactions : Prop :=
  ∀ (s : State),
    (∀ n h, n.toNat < s.cfg.tableSize → ∃ l,
      hostTx s (.addSyscall n h) = some { s with cfg := { s.cfg with handlers := l } }
      ∧ l.lookup n = some h ∧ ∀ m, m ≠ n → l.lookup m = s.cfg.handlers.lookup m)
    ∧ (∀ n h, s.cfg.tableSize ≤ n.toNat → hostTx s (.addSyscall n h) = none)
    ∧ (∀ a, hostTx s (.setWatch a) = some { s with cfg := { s.cfg with watch := some a } })
    ∧ hostTx s .clearWatch = some { s with cfg := { s.cfg with watch := none } }
    ∧ ∀ a b, hostTx s (.writeProtect a b)
        = some { s with cfg := { s.cfg with writeProtect := some (a, b) } }

/-- Every host transaction keeps memory sound and the parameters in range, and emits nothing
(R454; 10_state R50). That memory has a canonical form is a DESIGN CHOICE (log 2), and so is that the
output streams are kept, by Reset too (log 12). -/
def Obligations.HostTransactionsKeepSoundness : Prop :=
  ∀ (s t : State) (tx : HostTx), hostTx s tx = some t → s.cfg.wf = true → s.memOk = true →
    t.cfg.wf = true ∧ t.memOk = true ∧ t.out = s.out

/-! ## Whole-machine statements -/

/-- Every step keeps the invariant: parameters in range, memory canonical and inside MEM_SIZE, and while
Faulted the fault record as R403 says with pc the faulting address. That memory has a canonical form is a
DESIGN CHOICE (log 2). -/
def Obligations.StepKeepsInvariant : Prop :=
  ∀ s t : State, s.Inv → step s = .next t → t.Inv

/-- Faults are precise: a step that enters Faulted leaves every register, flag and byte as it was and
records its own address, a cause and a value that fits the cause; events already emitted stay
(R404, R403). -/
def Obligations.FaultsArePrecise : Prop :=
  ∀ s t : State, s.run = .running → step s = .next t → t.run = .faulted →
    (∀ r, t.reg r = s.reg r) ∧ t.flags = s.flags ∧ t.mem = s.mem ∧ t.cfg = s.cfg
    ∧ t.fpc = s.pc ∧ (t.fcause = 1#3 ∨ t.fcause = 2#3 ∨ t.fcause = 3#3 ∨ t.fcause = 4#3)
    ∧ t.recordOk = true ∧ s.out.diags <+: t.out.diags

/-- No step changes the configuration: the syscall table, the debug settings or a parameter (R52);
and the output streams only grow (log 12). -/
def Obligations.StepKeepsConfigurationAndGrowsOutputs : Prop :=
  ∀ s t : State, step s = .next t →
    t.cfg = s.cfg ∧ s.out.diags <+: t.out.diags ∧ s.out.calls <+: t.out.calls

/-- Diagnostics, the watch and the write-protect range never influence execution (R79, R77, R78): two
states that differ in them alone take steps that differ in them alone. That an unknown handler chooses
alike in both is the model's form of the free value (log 6). -/
def Obligations.DiagnosticsNeverInfluence : Prop :=
  ∀ (s : State) (ds : List Diag) (watch : Option Word) (wp : Option (Word × Word)),
    match step s, step { s with
        cfg := { s.cfg with watch := watch, writeProtect := wp }
        out := { s.out with diags := ds } } with
    | .next t, .next u => u = { t with
        cfg := { t.cfg with watch := watch, writeProtect := wp }
        out := { t.out with diags := u.out.diags } }
    | .fault a, .fault b => a = b
    | .refused a, .refused b => a = b
    | _, _ => False

/-- No rule of the engine reads the fault record while Running (R47): two running states that differ in it
alone take steps that differ in it alone at most, and not at all where the step faults. A handler sees
and may write the record as the rest of the state (log 6), so the statement takes the states in which
the handlers of which nothing is known choose alike. -/
def Obligations.FaultRecordIsNeverRead : Prop :=
  ∀ (s : State) (c : BitVec 3) (info : BitVec 17) (p : Word), s.run = .running →
    (∀ n, s.cfg.handlers.lookup n = some .relation →
      Config.handlerChoice s.out.calls.length n (s.advance 2#16).view
        = Config.handlerChoice s.out.calls.length n ((s.setRecord c info p).advance 2#16).view) →
    match step s, step (s.setRecord c info p) with
    | .next t, .next u => u = t ∨ (t.run ≠ .faulted ∧ u = t.setRecord c info p)
    | .fault a, .fault b => a = b
    | .refused a, .refused b => a = b
    | _, _ => False

/-- Only the arithmetic, boolean and shift instructions, BIT, and a syscall's handler write a flag
(R42). -/
def Obligations.OnlyFlagWritersWriteFlags : Prop :=
  ∀ (i : Instr) (s t : State), mayWriteFlags i = false → exec i s = .next t → t.flags = s.flags

/-- Only stores, pushes, calls and a syscall's handler write memory (R80). -/
def Obligations.OnlyStoresWriteMemory : Prop :=
  ∀ (i : Instr) (s t : State), mayStore i = false → exec i s = .next t → t.mem = s.mem

/-! ## Flags and conditions (40_cycle) -/

/-- The flag functions and the skip test, value by value: `arith_flags` with C bit 16, O any bit of
`O_MASK`; `bool_flags` with O the low bit and C kept; `shift_flags` with C only for a count that is
not 0 and O kept; `skip` when CE is set and the flag, inverted where INV says so, is 0
(R170, R171, R172, R153). -/
def Obligations.FlagFunctions : Prop :=
  (∀ (m : OMask) (r : BitVec 32),
    (arithFlags m r).c = r.toNat.testBit 16 ∧ (arithFlags m r).z = decide (r.toNat % 2 ^ 16 = 0)
    ∧ (arithFlags m r).s = r.toNat.testBit 15
    ∧ (arithFlags m r).o = decide ((match m with | .above16 => 2 ^ 17 | .from16 => 2 ^ 16) ≤ r.toNat))
  ∧ (∀ (f : Flags) (r : Word),
    (boolFlags f r).c = f.c ∧ (boolFlags f r).z = decide (r.toNat = 0)
    ∧ (boolFlags f r).o = decide (r.toNat % 2 = 1) ∧ (boolFlags f r).s = decide (2 ^ 15 ≤ r.toNat))
  ∧ (∀ (f : Flags) (r : Word) (n : BitVec 4) (cout : Bool),
    (shiftFlags f r n cout).c = (if n.toNat = 0 then f.c else cout)
    ∧ (shiftFlags f r n cout).z = decide (r.toNat = 0)
    ∧ (shiftFlags f r n cout).s = decide (2 ^ 15 ≤ r.toNat) ∧ (shiftFlags f r n cout).o = f.o)
  ∧ ∀ (cond : Cond) (f : Flags), skips cond f = true ↔ ¬ Taken cond f

/-! ## Moves (41_moves) -/

/-- MOV, MOVI, MOVIL, MOVAI: encoding, value, no flag written, frame (R200 to R203). -/
def Obligations.MoveResults : Prop :=
  ∀ (s : State) (ra rb : Reg) (k x : BitVec 4) (k8 : BitVec 8) (imm : Word),
    (DecodesTo (word2 0x0800 ra rb) (fun _ => .mov ra rb)
      ∧ ∃ t, exec (.mov ra rb) s = .next t ∧ t.reg ra = operand s 2#16 rb ∧ t.flags = s.flags
        ∧ WroteOnly s t 2#16 ra)
    ∧ (DecodesTo (word2 0x0900 ra k) (fun _ => .movi ra k)
      ∧ ∃ t, exec (.movi ra k) s = .next t ∧ (t.reg ra).toInt = k.toInt ∧ t.flags = s.flags
        ∧ WroteOnly s t 2#16 ra)
    ∧ (DecodesTo (word2 0x0A00 ra x) (fun w => .movil ra x w)
      ∧ ∃ t, exec (.movil ra x imm) s = .next t ∧ t.reg ra = imm ∧ t.flags = s.flags
        ∧ WroteOnly s t 4#16 ra)
    ∧ (DecodesTo (word1 0x0B00 k8) (fun _ => .movai k8)
      ∧ ∃ t, exec (.movai k8) s = .next t ∧ (t.reg 8#4).toInt = k8.toInt ∧ t.flags = s.flags
        ∧ WroteOnly s t 2#16 8#4)

/-! ## Arithmetic (42_arithmetic) -/

/-- ADD, ADDI, ADDIL (R220 to R222, with R170 and R219). -/
def Obligations.AddResults : Prop :=
  ∀ (s : State) (ra rb : Reg) (u x : BitVec 4) (imm : Word),
    (DecodesTo (word2 0x1000 ra rb) (fun _ => .add ra rb)
      ∧ ∃ t, exec (.add ra rb) s = .next t
        ∧ ArithResult s t 2#16 ra ((operand s 2#16 ra).toNat + (operand s 2#16 rb).toNat))
    ∧ (DecodesTo (word2 0x1100 ra u) (fun _ => .addi ra u)
      ∧ ∃ t, exec (.addi ra u) s = .next t
        ∧ ArithResult s t 2#16 ra ((operand s 2#16 ra).toNat + u.toNat))
    ∧ (DecodesTo (word2 0x1200 ra x) (fun w => .addil ra x w)
      ∧ ∃ t, exec (.addil ra x imm) s = .next t
        ∧ ArithResult s t 4#16 ra ((operand s 4#16 ra).toNat + imm.toNat))

/-- SUB, SUBI, SUBIL, modulo 2^32 (R223 to R225, with R170 and R219). -/
def Obligations.SubResults : Prop :=
  ∀ (s : State) (ra rb : Reg) (u x : BitVec 4) (imm : Word),
    (DecodesTo (word2 0x1400 ra rb) (fun _ => .sub ra rb)
      ∧ ∃ t, exec (.sub ra rb) s = .next t ∧ ArithResult s t 2#16 ra
          ((2 ^ 32 + (operand s 2#16 ra).toNat - (operand s 2#16 rb).toNat) % 2 ^ 32))
    ∧ (DecodesTo (word2 0x1500 ra u) (fun _ => .subi ra u)
      ∧ ∃ t, exec (.subi ra u) s = .next t ∧ ArithResult s t 2#16 ra
          ((2 ^ 32 + (operand s 2#16 ra).toNat - u.toNat) % 2 ^ 32))
    ∧ (DecodesTo (word2 0x1600 ra x) (fun w => .subil ra x w)
      ∧ ∃ t, exec (.subil ra x imm) s = .next t ∧ ArithResult s t 4#16 ra
          ((2 ^ 32 + (operand s 4#16 ra).toNat - imm.toNat) % 2 ^ 32))

/-- MUL, MULIL: the exact unsigned product (R226, R227, with R170 and R219). -/
def Obligations.MulResults : Prop :=
  ∀ (s : State) (ra rb : Reg) (x : BitVec 4) (imm : Word),
    (DecodesTo (word2 0x1800 ra rb) (fun _ => .mul ra rb)
      ∧ ∃ t, exec (.mul ra rb) s = .next t
        ∧ ArithResult s t 2#16 ra ((operand s 2#16 ra).toNat * (operand s 2#16 rb).toNat))
    ∧ (DecodesTo (word2 0x1A00 ra x) (fun w => .mulil ra x w)
      ∧ ∃ t, exec (.mulil ra x imm) s = .next t
        ∧ ArithResult s t 4#16 ra ((operand s 4#16 ra).toNat * imm.toNat))

/-- DIV, DIVIL: the unsigned quotient; DIV_ZERO with the instruction word for a zero divisor (R228, R229).
That C and O are clear is a consequence R228 itself marks as derived. That the word reported for DIVIL
has its ignored bits as fetched is DEDUCED (log 17). -/
def Obligations.DivResults : Prop :=
  ∀ (s : State) (ra rb : Reg) (x : BitVec 4) (imm : Word),
    (DecodesTo (word2 0x1C00 ra rb) (fun _ => .div ra rb)
      ∧ (operand s 2#16 rb ≠ 0#16 → ∃ t, exec (.div ra rb) s = .next t
        ∧ ArithResult s t 2#16 ra ((operand s 2#16 ra).toNat / (operand s 2#16 rb).toNat)
        ∧ t.flags.c = false ∧ t.flags.o = false)
      ∧ (operand s 2#16 rb = 0#16 →
          FaultsWith s (exec (.div ra rb) s) 3 (word2 0x1C00 ra rb).toNat))
    ∧ (DecodesTo (word2 0x1E00 ra x) (fun w => .divil ra x w)
      ∧ (imm ≠ 0#16 → ∃ t, exec (.divil ra x imm) s = .next t
        ∧ ArithResult s t 4#16 ra ((operand s 4#16 ra).toNat / imm.toNat)
        ∧ t.flags.c = false ∧ t.flags.o = false)
      ∧ (imm = 0#16 → FaultsWith s (exec (.divil ra x imm) s) 3 (word2 0x1E00 ra x).toNat))

/-- A borrow sets C and O under either mask, and nothing else of SUB does; ADD sets C exactly on a
carry out of 16 bits and never sets O under the default mask (R219, R220, R223). -/
def Obligations.CarryAndBorrow : Prop :=
  ∀ (s : State) (ra rb : Reg),
    (∃ t, exec (.sub ra rb) s = .next t
      ∧ t.flags.c = decide ((operand s 2#16 ra).toNat < (operand s 2#16 rb).toNat)
      ∧ t.flags.o = decide ((operand s 2#16 ra).toNat < (operand s 2#16 rb).toNat)
      ∧ (t.flags.z = true ↔ operand s 2#16 ra = operand s 2#16 rb))
    ∧ (∃ t, exec (.add ra rb) s = .next t
      ∧ t.flags.c = decide (2 ^ 16 ≤ (operand s 2#16 ra).toNat + (operand s 2#16 rb).toNat)
      ∧ (s.cfg.oMask = .above16 → t.flags.o = false)
      ∧ (s.cfg.oMask = .from16 → t.flags.o = t.flags.c))

/-! ## Boolean (43_bitwise) -/

/-- AND, ANDIL, OR, ORIL, XOR, XORIL, NOT (R250 to R256, with R171). -/
def Obligations.BooleanResults : Prop :=
  ∀ (s : State) (ra rb : Reg) (x : BitVec 4) (imm : Word),
    (DecodesTo (word2 0x2000 ra rb) (fun _ => .and ra rb)
      ∧ ∃ t, exec (.and ra rb) s = .next t
        ∧ BoolResult s t 2#16 ra (operand s 2#16 ra &&& operand s 2#16 rb))
    ∧ (DecodesTo (word2 0x2200 ra x) (fun w => .andil ra x w)
      ∧ ∃ t, exec (.andil ra x imm) s = .next t ∧ BoolResult s t 4#16 ra (operand s 4#16 ra &&& imm))
    ∧ (DecodesTo (word2 0x2400 ra rb) (fun _ => .or ra rb)
      ∧ ∃ t, exec (.or ra rb) s = .next t
        ∧ BoolResult s t 2#16 ra (operand s 2#16 ra ||| operand s 2#16 rb))
    ∧ (DecodesTo (word2 0x2600 ra x) (fun w => .oril ra x w)
      ∧ ∃ t, exec (.oril ra x imm) s = .next t ∧ BoolResult s t 4#16 ra (operand s 4#16 ra ||| imm))
    ∧ (DecodesTo (word2 0x2800 ra rb) (fun _ => .xor ra rb)
      ∧ ∃ t, exec (.xor ra rb) s = .next t
        ∧ BoolResult s t 2#16 ra (operand s 2#16 ra ^^^ operand s 2#16 rb))
    ∧ (DecodesTo (word2 0x2A00 ra x) (fun w => .xoril ra x w)
      ∧ ∃ t, exec (.xoril ra x imm) s = .next t ∧ BoolResult s t 4#16 ra (operand s 4#16 ra ^^^ imm))
    ∧ (DecodesTo (word2 0x2C00 ra x) (fun _ => .not ra x)
      ∧ ∃ t, exec (.not ra x) s = .next t ∧ BoolResult s t 2#16 ra (~~~ operand s 2#16 ra))

/-! ## Shift and rotate (44_shift_rotate) -/

/-- SHL, SHLI, SHR, SHRI: value, bit shifted out last, flags, frame; the register form's count is the
low four bits (R270 to R275, with R172). -/
def Obligations.LogicalShiftResults : Prop :=
  ∀ (s : State) (ra rb : Reg) (u : BitVec 4),
    let v := operand s 2#16 ra
    let n : BitVec 4 := (operand s 2#16 rb).setWidth 4
    (DecodesTo (word2 0x3000 ra rb) (fun _ => .shl ra rb)
      ∧ ∃ t, exec (.shl ra rb) s = .next t ∧ (t.reg ra).toNat = v.toNat * 2 ^ n.toNat % 2 ^ 16
        ∧ ShiftResult s t ra n (v.toNat.testBit (16 - n.toNat)))
    ∧ (DecodesTo (word2 0x3100 ra u) (fun _ => .shli ra u)
      ∧ ∃ t, exec (.shli ra u) s = .next t ∧ (t.reg ra).toNat = v.toNat * 2 ^ u.toNat % 2 ^ 16
        ∧ ShiftResult s t ra u (v.toNat.testBit (16 - u.toNat)))
    ∧ (DecodesTo (word2 0x3200 ra rb) (fun _ => .shr ra rb)
      ∧ ∃ t, exec (.shr ra rb) s = .next t ∧ (t.reg ra).toNat = v.toNat / 2 ^ n.toNat
        ∧ ShiftResult s t ra n (v.toNat.testBit (n.toNat - 1)))
    ∧ (DecodesTo (word2 0x3300 ra u) (fun _ => .shri ra u)
      ∧ ∃ t, exec (.shri ra u) s = .next t ∧ (t.reg ra).toNat = v.toNat / 2 ^ u.toNat
        ∧ ShiftResult s t ra u (v.toNat.testBit (u.toNat - 1)))

/-- ROL, ROLI, ROR, RORI, bit by bit, with C the last bit rotated out (R276 to R279). -/
def Obligations.RotateResults : Prop :=
  ∀ (s : State) (ra rb : Reg) (u : BitVec 4),
    let v := operand s 2#16 ra
    let n : BitVec 4 := (operand s 2#16 rb).setWidth 4
    (DecodesTo (word2 0x3400 ra rb) (fun _ => .rol ra rb)
      ∧ ∃ t, exec (.rol ra rb) s = .next t
        ∧ (∀ i, i < 16 → (t.reg ra).getLsbD ((i + n.toNat) % 16) = v.getLsbD i)
        ∧ ShiftResult s t ra n ((t.reg ra).getLsbD 0))
    ∧ (DecodesTo (word2 0x3500 ra u) (fun _ => .roli ra u)
      ∧ ∃ t, exec (.roli ra u) s = .next t
        ∧ (∀ i, i < 16 → (t.reg ra).getLsbD ((i + u.toNat) % 16) = v.getLsbD i)
        ∧ ShiftResult s t ra u ((t.reg ra).getLsbD 0))
    ∧ (DecodesTo (word2 0x3600 ra rb) (fun _ => .ror ra rb)
      ∧ ∃ t, exec (.ror ra rb) s = .next t
        ∧ (∀ i, i < 16 → (t.reg ra).getLsbD i = v.getLsbD ((i + n.toNat) % 16))
        ∧ ShiftResult s t ra n ((t.reg ra).getLsbD 15))
    ∧ (DecodesTo (word2 0x3700 ra u) (fun _ => .rori ra u)
      ∧ ∃ t, exec (.rori ra u) s = .next t
        ∧ (∀ i, i < 16 → (t.reg ra).getLsbD i = v.getLsbD ((i + u.toNat) % 16))
        ∧ ShiftResult s t ra u ((t.reg ra).getLsbD 15))

/-- RLC, RLCI, RRC, RRCI: the 17-bit rotate of C and the register, bit by bit (bit 16 is C)
(R280 to R283). -/
def Obligations.CarryRotateResults : Prop :=
  ∀ (s : State) (ra rb : Reg) (u : BitVec 4),
    let bitOf := fun (v : Word) (c : Bool) (i : Nat) => if i = 16 then c else v.getLsbD i
    let v := operand s 2#16 ra
    let n : BitVec 4 := (operand s 2#16 rb).setWidth 4
    (DecodesTo (word2 0x3800 ra rb) (fun _ => .rlc ra rb)
      ∧ ∃ t, exec (.rlc ra rb) s = .next t
        ∧ (∀ i, i < 17 →
            bitOf (t.reg ra) t.flags.c ((i + n.toNat) % 17) = bitOf v s.flags.c i)
        ∧ ShiftResult s t ra n t.flags.c)
    ∧ (DecodesTo (word2 0x3900 ra u) (fun _ => .rlci ra u)
      ∧ ∃ t, exec (.rlci ra u) s = .next t
        ∧ (∀ i, i < 17 →
            bitOf (t.reg ra) t.flags.c ((i + u.toNat) % 17) = bitOf v s.flags.c i)
        ∧ ShiftResult s t ra u t.flags.c)
    ∧ (DecodesTo (word2 0x3A00 ra rb) (fun _ => .rrc ra rb)
      ∧ ∃ t, exec (.rrc ra rb) s = .next t
        ∧ (∀ i, i < 17 →
            bitOf (t.reg ra) t.flags.c i = bitOf v s.flags.c ((i + n.toNat) % 17))
        ∧ ShiftResult s t ra n t.flags.c)
    ∧ (DecodesTo (word2 0x3B00 ra u) (fun _ => .rrci ra u)
      ∧ ∃ t, exec (.rrci ra u) s = .next t
        ∧ (∀ i, i < 17 →
            bitOf (t.reg ra) t.flags.c i = bitOf v s.flags.c ((i + u.toNat) % 17))
        ∧ ShiftResult s t ra u t.flags.c)

/-! ## Bit operations (45_bit_ops) -/

/-- BIT writes Z alone; BSET and BCLR change one bit of the register and no flag (R300 to R302). -/
def Obligations.BitResults : Prop :=
  ∀ (s : State) (ra : Reg) (u : BitVec 4),
    (DecodesTo (word2 0x4000 ra u) (fun _ => .bit ra u)
      ∧ ∃ t, exec (.bit ra u) s = .next t
        ∧ t.flags.z = decide ((operand s 2#16 ra).toNat.testBit u.toNat = false)
        ∧ t.flags.c = s.flags.c ∧ t.flags.s = s.flags.s ∧ t.flags.o = s.flags.o
        ∧ Frame s t 2#16 (fun _ => False) (fun _ => False) ∧ t.out.diags = s.out.diags)
    ∧ (DecodesTo (word2 0x4100 ra u) (fun _ => .bset ra u)
      ∧ ∃ t, exec (.bset ra u) s = .next t
        ∧ (∀ i, i < 16 →
            (t.reg ra).getLsbD i = if i = u.toNat then true else (operand s 2#16 ra).getLsbD i)
        ∧ t.flags = s.flags ∧ WroteOnly s t 2#16 ra)
    ∧ (DecodesTo (word2 0x4200 ra u) (fun _ => .bclr ra u)
      ∧ ∃ t, exec (.bclr ra u) s = .next t
        ∧ (∀ i, i < 16 →
            (t.reg ra).getLsbD i = if i = u.toNat then false else (operand s 2#16 ra).getLsbD i)
        ∧ t.flags = s.flags ∧ WroteOnly s t 2#16 ra)

/-! ## Loads and stores (46_load_store) -/

/-- LD and LDX: the little-endian word at the address, or the access's fault (R320, R324). -/
def Obligations.LoadWordResults : Prop :=
  ∀ (s : State) (ra rb : Reg) (imm : Word),
    (DecodesTo (word2 0x4800 ra rb) (fun _ => .ld ra rb)
      ∧ (s.WordOk (operand s 2#16 rb) → ∃ t, exec (.ld ra rb) s = .next t
        ∧ HoldsWord s (operand s 2#16 rb) (t.reg ra) ∧ t.flags = s.flags
        ∧ Frame s t 2#16 (fun r => r = ra) (fun _ => False))
      ∧ WordFaults s (operand s 2#16 rb) (exec (.ld ra rb) s))
    ∧ (DecodesTo (word2 0x4C00 ra rb) (fun w => .ldx ra rb w)
      ∧ (s.WordOk (operand s 4#16 rb + imm) → ∃ t, exec (.ldx ra rb imm) s = .next t
        ∧ HoldsWord s (operand s 4#16 rb + imm) (t.reg ra) ∧ t.flags = s.flags
        ∧ Frame s t 4#16 (fun r => r = ra) (fun _ => False))
      ∧ WordFaults s (operand s 4#16 rb + imm) (exec (.ldx ra rb imm) s))

/-- LDB and LDBX: the byte zero-extended, or MEM_BOUNDS; never misaligned (R321, R325). -/
def Obligations.LoadByteResults : Prop :=
  ∀ (s : State) (ra rb : Reg) (imm : Word),
    (DecodesTo (word2 0x4900 ra rb) (fun _ => .ldb ra rb)
      ∧ (s.ByteOk (operand s 2#16 rb) → ∃ t, exec (.ldb ra rb) s = .next t
        ∧ (t.reg ra).toNat = (s.byteAt (operand s 2#16 rb).toNat).toNat ∧ t.flags = s.flags
        ∧ Frame s t 2#16 (fun r => r = ra) (fun _ => False))
      ∧ (s.cfg.memSize ≤ (operand s 2#16 rb).toNat →
          FaultsWith s (exec (.ldb ra rb) s) 1 (operand s 2#16 rb).toNat))
    ∧ (DecodesTo (word2 0x4D00 ra rb) (fun w => .ldbx ra rb w)
      ∧ (s.ByteOk (operand s 4#16 rb + imm) → ∃ t, exec (.ldbx ra rb imm) s = .next t
        ∧ (t.reg ra).toNat = (s.byteAt (operand s 4#16 rb + imm).toNat).toNat ∧ t.flags = s.flags
        ∧ Frame s t 4#16 (fun r => r = ra) (fun _ => False))
      ∧ (s.cfg.memSize ≤ (operand s 4#16 rb + imm).toNat →
          FaultsWith s (exec (.ldbx ra rb imm) s) 1 (operand s 4#16 rb + imm).toNat))

/-- ST and STX: both bytes of x[rb] at the address and no other byte, or the access's fault
(R322, R326). -/
def Obligations.StoreWordResults : Prop :=
  ∀ (s : State) (ra rb : Reg) (imm : Word),
    (DecodesTo (word2 0x4A00 ra rb) (fun _ => .st ra rb)
      ∧ (s.memOk = true → s.WordOk (operand s 2#16 ra) → ∃ t, exec (.st ra rb) s = .next t
        ∧ HoldsWord t (operand s 2#16 ra) (operand s 2#16 rb) ∧ t.flags = s.flags
        ∧ Frame s t 2#16 (fun _ => False)
            (fun a => a = (operand s 2#16 ra).toNat ∨ a = (operand s 2#16 ra).toNat + 1))
      ∧ WordFaults s (operand s 2#16 ra) (exec (.st ra rb) s))
    ∧ (DecodesTo (word2 0x4E00 ra rb) (fun w => .stx ra rb w)
      ∧ (s.memOk = true → s.WordOk (operand s 4#16 ra + imm) →
        ∃ t, exec (.stx ra rb imm) s = .next t
        ∧ HoldsWord t (operand s 4#16 ra + imm) (operand s 4#16 rb) ∧ t.flags = s.flags
        ∧ Frame s t 4#16 (fun _ => False)
            (fun a => a = (operand s 4#16 ra + imm).toNat ∨ a = (operand s 4#16 ra + imm).toNat + 1))
      ∧ WordFaults s (operand s 4#16 ra + imm) (exec (.stx ra rb imm) s))

/-- STB and STBX: the low byte of x[rb] at the address and no other byte, or MEM_BOUNDS
(R323, R327). -/
def Obligations.StoreByteResults : Prop :=
  ∀ (s : State) (ra rb : Reg) (imm : Word),
    (DecodesTo (word2 0x4B00 ra rb) (fun _ => .stb ra rb)
      ∧ (s.memOk = true → s.ByteOk (operand s 2#16 ra) → ∃ t, exec (.stb ra rb) s = .next t
        ∧ (t.byteAt (operand s 2#16 ra).toNat).toNat = (operand s 2#16 rb).toNat % 256
        ∧ t.flags = s.flags
        ∧ Frame s t 2#16 (fun _ => False) (fun a => a = (operand s 2#16 ra).toNat))
      ∧ (s.cfg.memSize ≤ (operand s 2#16 ra).toNat →
          FaultsWith s (exec (.stb ra rb) s) 1 (operand s 2#16 ra).toNat))
    ∧ (DecodesTo (word2 0x4F00 ra rb) (fun w => .stbx ra rb w)
      ∧ (s.memOk = true → s.ByteOk (operand s 4#16 ra + imm) →
        ∃ t, exec (.stbx ra rb imm) s = .next t
        ∧ (t.byteAt (operand s 4#16 ra + imm).toNat).toNat = (operand s 4#16 rb).toNat % 256
        ∧ t.flags = s.flags
        ∧ Frame s t 4#16 (fun _ => False) (fun a => a = (operand s 4#16 ra + imm).toNat))
      ∧ (s.cfg.memSize ≤ (operand s 4#16 ra + imm).toNat →
          FaultsWith s (exec (.stbx ra rb imm) s) 1 (operand s 4#16 ra + imm).toNat))

/-! ## Stacks (47_stack) -/

/-- PUSH and RPUSH: the register's old value at the pointer, which goes down by 2 modulo 2^16; or the
access's fault (R340, R342). -/
def Obligations.PushResults : Prop :=
  ∀ (s : State) (ra : Reg) (x : BitVec 4),
    (DecodesTo (word2 0x5000 ra x) (fun _ => .push ra x)
      ∧ (s.memOk = true → s.WordOk (s.reg 13#4) → ∃ t, exec (.push ra x) s = .next t
        ∧ HoldsWord t (s.reg 13#4) (operand s 2#16 ra) ∧ t.reg 13#4 = s.reg 13#4 - 2#16 ∧ t.flags = s.flags
        ∧ Frame s t 2#16 (fun r => r = 13#4)
            (fun a => a = (s.reg 13#4).toNat ∨ a = (s.reg 13#4).toNat + 1))
      ∧ WordFaults s (s.reg 13#4) (exec (.push ra x) s))
    ∧ (DecodesTo (word2 0x5200 ra x) (fun _ => .rpush ra x)
      ∧ (s.memOk = true → s.WordOk (s.reg 14#4) → ∃ t, exec (.rpush ra x) s = .next t
        ∧ HoldsWord t (s.reg 14#4) (operand s 2#16 ra) ∧ t.reg 14#4 = s.reg 14#4 - 2#16 ∧ t.flags = s.flags
        ∧ Frame s t 2#16 (fun r => r = 14#4)
            (fun a => a = (s.reg 14#4).toNat ∨ a = (s.reg 14#4).toNat + 1))
      ∧ WordFaults s (s.reg 14#4) (exec (.rpush ra x) s))

/-- POP and RPOP: the pointer goes up by 2 and the word there is the register's new value, the
pointer's own where the register is the pointer; or the access's fault; RPOP PC is RET (R341, R343). -/
def Obligations.PopResults : Prop :=
  ∀ (s : State) (ra : Reg) (x : BitVec 4),
    (DecodesTo (word2 0x5100 ra x) (fun _ => .pop ra x)
      ∧ (s.WordOk (s.reg 13#4 + 2#16) → ∃ t, exec (.pop ra x) s = .next t
        ∧ HoldsWord s (s.reg 13#4 + 2#16) (t.reg ra) ∧ (ra ≠ 13#4 → t.reg 13#4 = s.reg 13#4 + 2#16)
        ∧ t.flags = s.flags ∧ Frame s t 2#16 (fun r => r = ra ∨ r = 13#4) (fun _ => False))
      ∧ WordFaults s (s.reg 13#4 + 2#16) (exec (.pop ra x) s))
    ∧ (DecodesTo (word2 0x5300 ra x) (fun _ => .rpop ra x)
      ∧ (s.WordOk (s.reg 14#4 + 2#16) → ∃ t, exec (.rpop ra x) s = .next t
        ∧ HoldsWord s (s.reg 14#4 + 2#16) (t.reg ra) ∧ (ra ≠ 14#4 → t.reg 14#4 = s.reg 14#4 + 2#16)
        ∧ t.flags = s.flags ∧ Frame s t 2#16 (fun r => r = ra ∨ r = 14#4) (fun _ => False))
      ∧ WordFaults s (s.reg 14#4 + 2#16) (exec (.rpop ra x) s)
      ∧ ∀ p, exec (.rpop 15#4 x) s = exec (.ret p) s)

/-- A PUSH and then a POP move a register's value and restore the pointer; the same on the return stack
(R339). -/
def Obligations.PushThenPop : Prop :=
  ∀ (s : State) (ra rb : Reg) (x y : BitVec 4), s.memOk = true →
    (s.WordOk (s.reg 13#4) → ∃ t u, exec (.push ra x) s = .next t ∧ exec (.pop rb y) t = .next u
      ∧ u.reg rb = operand s 2#16 ra ∧ (rb ≠ 13#4 → u.reg 13#4 = s.reg 13#4) ∧ u.flags = s.flags)
    ∧ (s.WordOk (s.reg 14#4) → ∃ t u, exec (.rpush ra x) s = .next t ∧ exec (.rpop rb y) t = .next u
      ∧ u.reg rb = operand s 2#16 ra ∧ (rb ≠ 14#4 → u.reg 14#4 = s.reg 14#4) ∧ u.flags = s.flags)

/-! ## Control transfer (48_control_transfer) -/

/-- JP, JR, JX, JXL where not skipped: encoding, target, no other change (R360 to R363). -/
def Obligations.JumpResults : Prop :=
  ∀ (s : State) (cond : Cond) (p d : BitVec 8) (rx : Reg) (k x : BitVec 4) (imm : Word),
    (DecodesTo (wordCf 0x8000 cond p) (fun w => .jp cond p w)
      ∧ (Taken cond s.flags → ∃ t, exec (.jp cond p imm) s = .next t ∧ t.pc = imm
        ∧ t.flags = s.flags ∧ WroteOnly s t 4#16 15#4))
    ∧ (DecodesTo (wordCf 0x8100 cond d) (fun _ => .jr cond d)
      ∧ (Taken cond s.flags → ∃ t, exec (.jr cond d) s = .next t
        ∧ (t.pc.toNat : Int) = (s.pc.toNat + 2 + 2 * d.toInt) % 2 ^ 16
        ∧ t.flags = s.flags ∧ WroteOnly s t 2#16 15#4))
    ∧ (DecodesTo (wordCf 0x8200 cond 0 ||| word2 0 rx k) (fun _ => .jx cond rx k)
      ∧ (Taken cond s.flags → ∃ t, exec (.jx cond rx k) s = .next t
        ∧ (t.pc.toNat : Int) = ((operand s 2#16 rx).toNat + 2 * k.toInt) % 2 ^ 16
        ∧ t.flags = s.flags ∧ WroteOnly s t 2#16 15#4))
    ∧ (DecodesTo (wordCf 0x8300 cond 0 ||| word2 0 rx x) (fun w => .jxl cond rx x w)
      ∧ (Taken cond s.flags → ∃ t, exec (.jxl cond rx x imm) s = .next t
        ∧ t.pc.toNat = ((operand s 4#16 rx).toNat + imm.toNat) % 2 ^ 16
        ∧ t.flags = s.flags ∧ WroteOnly s t 4#16 15#4))

/-- A skipped control-flow instruction only advances pc, past its trailing word too (R371). -/
def Obligations.SkippedControlOnlyAdvances : Prop :=
  ∀ (s : State) (cond : Cond) (p d : BitVec 8) (rx : Reg) (k x : BitVec 4) (imm : Word),
    ¬ Taken cond s.flags →
    (∀ i ∈ [Instr.jp cond p imm, .jxl cond rx x imm, .call cond p imm, .callxl cond rx x imm],
      ∃ t, exec i s = .next t ∧ t.pc = s.pc + 4#16 ∧ t.flags = s.flags ∧ t.out = s.out
        ∧ Frame s t 4#16 (fun _ => False) (fun _ => False))
    ∧ (∀ i ∈ [Instr.jr cond d, .jx cond rx k, .callr cond d, .callx cond rx k],
      ∃ t, exec i s = .next t ∧ t.pc = s.pc + 2#16 ∧ t.flags = s.flags ∧ t.out = s.out
        ∧ Frame s t 2#16 (fun _ => False) (fun _ => False))

/-- CALL, CALLR, CALLX, CALLXL where not skipped: the address after the instruction on the return stack,
the pointer down by 2, the target computed before the push; or the push's fault
(R364 to R367, R372). -/
def Obligations.CallResults : Prop :=
  ∀ (s : State) (cond : Cond) (p d : BitVec 8) (rx : Reg) (k x : BitVec 4) (imm : Word),
    let pushed := fun (t : State) (len : Word) =>
      HoldsWord t (s.reg 14#4) (s.pc + len) ∧ t.reg 14#4 = s.reg 14#4 - 2#16 ∧ t.flags = s.flags
      ∧ Frame s t len (fun r => r = 14#4 ∨ r = 15#4)
          (fun a => a = (s.reg 14#4).toNat ∨ a = (s.reg 14#4).toNat + 1)
    (DecodesTo (wordCf 0xC000 cond p) (fun w => .call cond p w)
      ∧ DecodesTo (wordCf 0xC100 cond d) (fun _ => .callr cond d)
      ∧ DecodesTo (wordCf 0xC200 cond 0 ||| word2 0 rx k) (fun _ => .callx cond rx k)
      ∧ DecodesTo (wordCf 0xC300 cond 0 ||| word2 0 rx x) (fun w => .callxl cond rx x w))
    ∧ (Taken cond s.flags →
      (s.memOk = true → s.WordOk (s.reg 14#4) →
        (∃ t, exec (.call cond p imm) s = .next t ∧ t.pc = imm ∧ pushed t 4#16)
        ∧ (∃ t, exec (.callr cond d) s = .next t
          ∧ (t.pc.toNat : Int) = (s.pc.toNat + 2 + 2 * d.toInt) % 2 ^ 16 ∧ pushed t 2#16)
        ∧ (∃ t, exec (.callx cond rx k) s = .next t
          ∧ (t.pc.toNat : Int) = ((operand s 2#16 rx).toNat + 2 * k.toInt) % 2 ^ 16 ∧ pushed t 2#16)
        ∧ (∃ t, exec (.callxl cond rx x imm) s = .next t
          ∧ t.pc.toNat = ((operand s 4#16 rx).toNat + imm.toNat) % 2 ^ 16 ∧ pushed t 4#16))
      ∧ WordFaults s (s.reg 14#4) (exec (.call cond p imm) s)
      ∧ WordFaults s (s.reg 14#4) (exec (.callr cond d) s)
      ∧ WordFaults s (s.reg 14#4) (exec (.callx cond rx k) s)
      ∧ WordFaults s (s.reg 14#4) (exec (.callxl cond rx x imm) s))

/-- RET pops the return stack into pc, or faults with RSP and pc unchanged (R370). -/
def Obligations.RetResults : Prop :=
  ∀ (s : State) (p : BitVec 8),
    DecodesTo (word1 0x0200 p) (fun _ => .ret p)
    ∧ (s.WordOk (s.reg 14#4 + 2#16) → ∃ t, exec (.ret p) s = .next t
        ∧ HoldsWord s (s.reg 14#4 + 2#16) t.pc ∧ t.reg 14#4 = s.reg 14#4 + 2#16 ∧ t.flags = s.flags
        ∧ Frame s t 2#16 (fun r => r = 14#4 ∨ r = 15#4) (fun _ => False))
    ∧ WordFaults s (s.reg 14#4 + 2#16) (exec (.ret p) s)

/-- A RET run right after an unskipped call returns to the address after the call, with RSP and the
flags as they were (R372, R370, R374). -/
def Obligations.CallThenRet : Prop :=
  ∀ (s : State) (cond : Cond) (p q d : BitVec 8) (rx : Reg) (k x : BitVec 4) (imm : Word),
    s.memOk = true → s.WordOk (s.reg 14#4) → Taken cond s.flags →
    (∀ i ∈ [Instr.call cond p imm, .callxl cond rx x imm],
      ∃ t u, exec i s = .next t ∧ exec (.ret q) t = .next u ∧ u.pc = s.pc + 4#16
        ∧ u.reg 14#4 = s.reg 14#4 ∧ u.flags = s.flags
        ∧ ∀ r, r ≠ 14#4 → r ≠ 15#4 → u.reg r = s.reg r)
    ∧ (∀ i ∈ [Instr.callr cond d, .callx cond rx k],
      ∃ t u, exec i s = .next t ∧ exec (.ret q) t = .next u ∧ u.pc = s.pc + 2#16
        ∧ u.reg 14#4 = s.reg 14#4 ∧ u.flags = s.flags
        ∧ ∀ r, r ≠ 14#4 → r ≠ 15#4 → u.reg r = s.reg r)

/-! ## System (49_system) -/

/-- NOP advances pc and nothing else; HALT also enters Halted (R390, R391). -/
def Obligations.NopAndHaltResults : Prop :=
  ∀ (s : State) (p : BitVec 8),
    (DecodesTo (word1 0x0000 p) (fun _ => .nop p)
      ∧ ∃ t, exec (.nop p) s = .next t ∧ t.pc = s.pc + 2#16 ∧ t.flags = s.flags ∧ t.out = s.out
        ∧ Frame s t 2#16 (fun _ => False) (fun _ => False))
    ∧ (DecodesTo (word1 0x0100 p) (fun _ => .halt p)
      ∧ ∃ t, exec (.halt p) s = .next t ∧ t.run = .halted ∧ t.pc = s.pc + 2#16
        ∧ (∀ r, t.reg r = operand s 2#16 r) ∧ t.flags = s.flags ∧ t.mem = s.mem ∧ t.cfg = s.cfg
        ∧ t.fcause = s.fcause ∧ t.finfo = s.finfo ∧ t.fpc = s.fpc ∧ t.out = s.out
        ∧ step t = .next t)

/-- SYSCALL with an index at or above the table size, or of an empty slot, only advances pc (R392). -/
def Obligations.SyscallWithoutHandler : Prop :=
  ∀ (s : State) (n : BitVec 8),
    DecodesTo (word1 0x0300 n) (fun _ => .syscall n)
    ∧ (s.cfg.tableSize ≤ n.toNat ∨ s.cfg.handlers.lookup n = none →
      ∃ t, exec (.syscall n) s = .next t ∧ t.pc = s.pc + 2#16 ∧ t.flags = s.flags ∧ t.out = s.out
        ∧ Frame s t 2#16 (fun _ => False) (fun _ => False))

/-- A handler's primitives and direct writes, run with pc = I + 2 (R344, R392). That a handler can be a
script of acts is the model's choice (log 11); that a primitive that raises ends the step by fault entry,
the call-out kept and whatever acts would follow not done, is DEDUCED (log 9); so is the refusal, when
the handler comes to it, of an act R454 refuses (log 8). -/
def Obligations.SyscallRunsItsHandler : Prop :=
  ∀ (s : State) (n : BitVec 8) (acts : List HandlerAct), n.toNat < s.cfg.tableSize →
    s.cfg.handlers.lookup n = some (.script acts) → s.memOk = true →
    (∀ v, acts = [.dpush v] → s.WordOk (s.reg 13#4) → ∃ t, exec (.syscall n) s = .next t
      ∧ HoldsWord t (s.reg 13#4) v ∧ t.reg 13#4 = s.reg 13#4 - 2#16 ∧ t.pc = s.pc + 2#16
      ∧ (∀ r, r ≠ 13#4 → t.reg r = operand s 2#16 r) ∧ t.flags = s.flags ∧ SameControl s t
      ∧ (∀ a, a ≠ (s.reg 13#4).toNat → a ≠ (s.reg 13#4).toNat + 1 → t.byteAt a = s.byteAt a)
      ∧ t.out.calls = s.out.calls ++ [n])
    ∧ (acts = [.dpop] → s.WordOk (s.reg 13#4 + 2#16) → ∃ t, exec (.syscall n) s = .next t
      ∧ t.reg 13#4 = s.reg 13#4 + 2#16 ∧ t.pc = s.pc + 2#16
      ∧ (∀ r, r ≠ 13#4 → t.reg r = operand s 2#16 r)
      ∧ t.flags = s.flags ∧ t.mem = s.mem ∧ SameControl s t ∧ t.out.calls = s.out.calls ++ [n])
    ∧ (∀ r v f b a c k i p,
      acts = [.setReg r v, .setFlag f b, .setByte a c, .setRun .halted, .setRecord k i p] →
      a.toNat < s.cfg.memSize → ∃ t, exec (.syscall n) s = .next t
      ∧ t.reg r = v ∧ (∀ q, q ≠ r → t.reg q = operand s 2#16 q)
      ∧ t.flags.get f = b ∧ (∀ g, g ≠ f → t.flags.get g = s.flags.get g)
      ∧ t.byteAt a.toNat = c ∧ (∀ i, i ≠ a.toNat → t.byteAt i = s.byteAt i)
      ∧ t.run = .halted ∧ t.fcause = k ∧ t.finfo = i ∧ t.fpc = p ∧ t.cfg = s.cfg
      ∧ t.out.calls = s.out.calls ++ [n])
    ∧ (∀ v rest, acts = .dpush v :: rest →
      WordFaultsAfter s [n] (s.reg 13#4) (exec (.syscall n) s))
    ∧ (∀ rest, acts = .dpop :: rest →
      WordFaultsAfter s [n] (s.reg 13#4 + 2#16) (exec (.syscall n) s))
    ∧ (∀ pre act post, acts = pre ++ act :: post →
      (∀ b ∈ pre, actAllowed s.cfg b = true ∧ b ≠ .dpop ∧ ∀ v, b ≠ .dpush v) →
      (∃ a c, act = .setByte a c ∧ s.cfg.memSize ≤ a.toNat) ∨ act = .setRun .faulted →
      exec (.syscall n) s = .refused (.handlerActRefused n))

/-- A handler of which nothing is known, for every value of the free value (R392; log 6): stuck where it
returns no next state (log 7). Where every act is allowed and no primitive raises, a next state that is
what the acts leave, with the call-out made. Else the first act that raises or is not allowed decides: a
primitive whose word access raises, at the address SP then gives, is fault entry from the step's first
state (log 9), and an act that is not allowed is the refusal (log 8), whatever acts would follow. -/
def Obligations.SyscallOfAnUnknownHandler : Prop :=
  ∀ (s : State) (n : BitVec 8), n.toNat < s.cfg.tableSize → s.run ≠ .faulted → s.memOk = true →
    s.cfg.handlers.lookup n = some .relation →
    match Config.handlerChoice s.out.calls.length n (s.advance 2#16).view with
    | none => exec (.syscall n) s = .fault (.handlerNeverReturns n)
    | some acts =>
      (s.actsDone (s.reg 13#4) acts = true → ∃ t, exec (.syscall n) s = .next t
        ∧ t.run ≠ .faulted ∧ ActsLeave s t acts ∧ s.out.diags <+: t.out.diags
        ∧ t.out.calls = s.out.calls ++ [n])
      ∧ (s.actsDone (s.reg 13#4) acts = false → ∃ pre act post, acts = pre ++ act :: post
        ∧ s.actsDone (s.reg 13#4) pre = true
        ∧ ((actAllowed s.cfg act = false ∧ exec (.syscall n) s = .refused (.handlerActRefused n))
          ∨ ∃ a, stackAddress (spAfter (s.reg 13#4) pre) act = some a ∧ ¬ s.WordOk a
              ∧ WordFaultsAfter s [n] a (exec (.syscall n) s)))
end

