-- ==== Sys2Proof/Laws/Encoding.lean ====
section
/-! SUPPORT. The fields of a packed word, read back; and what decoding does not depend on. -/

namespace Sys2Proof

variable (hi low : BitVec 8) (a b : BitVec 4)

/-! ## Bytes and nibbles -/

/-- A bit of a word of two bytes. -/
theorem getLsbD_ofBytes (i : Nat) :
    (Word.ofBytes hi low).getLsbD i = if i < 8 then low.getLsbD i else hi.getLsbD (i - 8) := by
  by_cases h : i < 8
  · simp [Word.ofBytes, h, show i < 16 by omega]
  · by_cases h16 : i < 16
    · have hl : low.getLsbD i = false := BitVec.getLsbD_of_ge low i (by omega)
      simp [Word.ofBytes, h, h16, hl]
    · have hh : hi.getLsbD (i - 8) = false := BitVec.getLsbD_of_ge hi _ (by omega)
      have hw : (Word.ofBytes hi low).getLsbD i = false := BitVec.getLsbD_of_ge _ i (by omega)
      simp [hw, hh, h]

/-- A bit of a byte of two nibbles. -/
theorem getLsbD_packNibbles (i : Nat) :
    (packNibbles a b).getLsbD i = if i < 4 then b.getLsbD i else a.getLsbD (i - 4) := by
  by_cases h : i < 4
  · simp [packNibbles, h, show i < 8 by omega]
  · by_cases h8 : i < 8
    · have hb : b.getLsbD i = false := BitVec.getLsbD_of_ge b i (by omega)
      simp [packNibbles, h, h8, hb]
    · have ha : a.getLsbD (i - 4) = false := BitVec.getLsbD_of_ge a _ (by omega)
      have hw : (packNibbles a b).getLsbD i = false := BitVec.getLsbD_of_ge _ i (by omega)
      simp [hw, ha, h]

@[simp] theorem low8_ofBytes : (Word.ofBytes hi low).low8 = low := by
  apply BitVec.eq_of_getLsbD_eq
  intro i h
  rw [Word.low8, BitVec.getLsbD_extractLsb', getLsbD_ofBytes]
  simp [h]

@[simp] theorem high8_ofBytes : (Word.ofBytes hi low).high8 = hi := by
  apply BitVec.eq_of_getLsbD_eq
  intro i h
  rw [Word.high8, BitVec.getLsbD_extractLsb', getLsbD_ofBytes]
  simp [h]

/-- A word's bytes, put together again, are the word. -/
@[simp] theorem ofBytes_high8_low8 (w : Word) : Word.ofBytes w.high8 w.low8 = w := by
  apply BitVec.eq_of_getLsbD_eq
  intro i hi
  rw [getLsbD_ofBytes, Word.high8, Word.low8, BitVec.getLsbD_extractLsb',
    BitVec.getLsbD_extractLsb']
  by_cases h : i < 8
  · simp [h]
  · have : i - 8 < 8 := by omega
    simp [h, this, show 8 + (i - 8) = i by omega]

/-- `fieldA` and `fieldB` are the nibbles of the low byte. -/
theorem packNibbles_fields (w : Word) : packNibbles w.fieldA w.fieldB = w.low8 := by
  apply BitVec.eq_of_getLsbD_eq
  intro i hi
  rw [getLsbD_packNibbles, Word.fieldA, Word.fieldB, Word.low8, BitVec.getLsbD_extractLsb',
    BitVec.getLsbD_extractLsb', BitVec.getLsbD_extractLsb']
  by_cases h : i < 4
  · simp [h, hi]
  · have : i - 4 < 4 := by omega
    simp [h, this, hi, show 4 + (i - 4) = i by omega]

@[simp] theorem fieldA_ofBytes_nibbles : (Word.ofBytes hi (packNibbles a b)).fieldA = a := by
  apply BitVec.eq_of_getLsbD_eq
  intro i h
  rw [Word.fieldA, BitVec.getLsbD_extractLsb', getLsbD_ofBytes, getLsbD_packNibbles]
  simp [h, show 4 + i < 8 by omega]

@[simp] theorem fieldB_ofBytes_nibbles : (Word.ofBytes hi (packNibbles a b)).fieldB = b := by
  apply BitVec.eq_of_getLsbD_eq
  intro i h
  rw [Word.fieldB, BitVec.getLsbD_extractLsb', getLsbD_ofBytes, getLsbD_packNibbles]
  simp [h, show i < 8 by omega]

@[simp] theorem isControl_ofBytes : (Word.ofBytes hi low).isControl = hi.getLsbD 7 := by
  rw [Word.isControl, getLsbD_ofBytes]
  rfl

@[simp] theorem op_ofBytes : (Word.ofBytes hi low).op = hi.setWidth 7 := by
  apply BitVec.eq_of_getLsbD_eq
  intro i h
  rw [Word.op, BitVec.getLsbD_extractLsb', getLsbD_ofBytes]
  simp [h]

/-! ## General words -/

@[simp] theorem isControl_packByte : (packByte hi low).isControl = hi.getLsbD 7 :=
  isControl_ofBytes hi low

@[simp] theorem op_packByte : (packByte hi low).op = hi.setWidth 7 := op_ofBytes hi low

@[simp] theorem low8_packByte : (packByte hi low).low8 = low := low8_ofBytes hi low

@[simp] theorem high8_packByte : (packByte hi low).high8 = hi := high8_ofBytes hi low

@[simp] theorem isControl_packGeneral : (packGeneral hi a b).isControl = hi.getLsbD 7 :=
  isControl_ofBytes hi _

@[simp] theorem op_packGeneral : (packGeneral hi a b).op = hi.setWidth 7 := op_ofBytes hi _

@[simp] theorem fieldA_packGeneral : (packGeneral hi a b).fieldA = a := fieldA_ofBytes_nibbles hi a b

@[simp] theorem fieldB_packGeneral : (packGeneral hi a b).fieldB = b := fieldB_ofBytes_nibbles hi a b

@[simp] theorem high8_packGeneral : (packGeneral hi a b).high8 = hi := high8_ofBytes hi _

@[simp] theorem isLong_packByte (h : hi.getLsbD 7 = false) :
    (packByte hi low).isLong = longOpcodes.contains (hi.setWidth 7) := by
  rw [Word.isLong, isControl_packByte, h, op_packByte]
  rfl

@[simp] theorem isLong_packGeneral (h : hi.getLsbD 7 = false) :
    (packGeneral hi a b).isLong = longOpcodes.contains (hi.setWidth 7) :=
  isLong_packByte hi _ h

/-! ## Control-flow words -/

variable (call : BitVec 1) (cond : Cond) (mode : BitVec 2)

/-- The high byte of a control-flow word, bit by bit, high bit first (30_encoding R113). -/
def controlBits : List Bool :=
  [true, call.getLsbD 0, cond.ce, cond.inv, cond.cc.bits.getLsbD 1, cond.cc.bits.getLsbD 0,
    mode.getLsbD 1, mode.getLsbD 0]

/-- A bit of the high byte of a control-flow word. -/
theorem getLsbD_packControl (i : Nat) (h : i < 8) :
    (packControl call cond mode low).getLsbD (8 + i)
      = (controlBits call cond mode).getD (7 - i) false := by
  rw [packControl, getLsbD_ofBytes]
  rcases cond with ⟨ce, inv, cc⟩
  obtain rfl | rfl | rfl | rfl | rfl | rfl | rfl | rfl :
    i = 0 ∨ i = 1 ∨ i = 2 ∨ i = 3 ∨ i = 4 ∨ i = 5 ∨ i = 6 ∨ i = 7 := by omega
  all_goals
    simp [controlBits]

@[simp] theorem low8_packControl : (packControl call cond mode low).low8 = low := low8_ofBytes _ low

@[simp] theorem fieldA_packControl : (packControl call cond mode (packNibbles a b)).fieldA = a :=
  fieldA_ofBytes_nibbles _ a b

@[simp] theorem fieldB_packControl : (packControl call cond mode (packNibbles a b)).fieldB = b :=
  fieldB_ofBytes_nibbles _ a b

@[simp] theorem isControl_packControl : (packControl call cond mode low).isControl = true :=
  getLsbD_packControl low call cond mode 7 (by omega)

@[simp] theorem call_packControl : (packControl call cond mode low).extractLsb' 14 1 = call := by
  apply BitVec.eq_of_getLsbD_eq
  intro i h
  obtain rfl : i = 0 := by omega
  rw [BitVec.getLsbD_extractLsb']
  exact getLsbD_packControl low call cond mode 6 (by omega)

@[simp] theorem mode_packControl : (packControl call cond mode low).extractLsb' 8 2 = mode := by
  apply BitVec.eq_of_getLsbD_eq
  intro i h
  rw [BitVec.getLsbD_extractLsb', getLsbD_packControl low call cond mode i (by omega)]
  obtain rfl | rfl : i = 0 ∨ i = 1 := by omega
  all_goals simp [controlBits]

@[simp] theorem ofBits_bits (f : Flag) : Flag.ofBits f.bits = f := by
  cases f <;> rfl

@[simp] theorem cond_packControl : (packControl call cond mode low).cond = cond := by
  have hcc : (packControl call cond mode low).extractLsb' 10 2 = cond.cc.bits := by
    apply BitVec.eq_of_getLsbD_eq
    intro i h
    rw [BitVec.getLsbD_extractLsb', show 10 + i = 8 + (2 + i) by omega,
      getLsbD_packControl low call cond mode (2 + i) (by omega)]
    obtain rfl | rfl : i = 0 ∨ i = 1 := by omega
    all_goals simp [controlBits]
  unfold Word.cond
  rw [hcc, ofBits_bits, show (13 : Nat) = 8 + 5 from rfl, show (12 : Nat) = 8 + 4 from rfl,
    getLsbD_packControl low call cond mode 5 (by omega),
    getLsbD_packControl low call cond mode 4 (by omega)]
  rfl

@[simp] theorem isLong_packControl :
    (packControl call cond mode low).isLong = (mode.getLsbD 0 == mode.getLsbD 1) := by
  have h0 := getLsbD_packControl low call cond mode 0 (by omega)
  have h1 := getLsbD_packControl low call cond mode 1 (by omega)
  rw [Word.isLong, isControl_packControl, if_pos rfl, show (8 : Nat) = 8 + 0 from rfl,
    show (9 : Nat) = 8 + 1 from rfl, h0, h1]
  rfl

/-! ## Illegal words -/

/-- Whether a word is illegal does not depend on the word after it (30_encoding R124). -/
theorem decode_none_imm {w : Word} {imm : Word} (imm' : Word) (h : decode w imm = none) :
    decode w imm' = none := by
  by_cases hc : w.isControl = true
  · simp [decode, hc] at h
  · rw [decode, if_neg hc] at h ⊢
    revert h
    unfold decodeGeneral
    split <;> simp

/-! ## The immediate operand's field -/

/-- A field written is read back, where it fits the class's width. -/
theorem Instr.operandField_withField {i : Instr} {k : RangeClass} {f : Nat}
    (h : i.rangeClass = some k) (hf : f < 2 ^ k.width) :
    (i.withField f).operandField = some f := by
  cases i <;> cases h <;> simp [RangeClass.width] at hf <;>
    simp [Instr.withField, Instr.operandField] <;> exact hf

/-- An operand value is a RangeError exactly where its class does not accept it. -/
theorem Instr.withOperand_eq_none {i : Instr} {k : RangeClass} {v : Int}
    (h : i.rangeClass = some k) : i.withOperand v = none ↔ k.accepts v = false := by
  unfold Instr.withOperand RangeClass.field
  rw [h]
  cases hk : k.accepts v <;> simp [hk]

end Sys2Proof
end

