-- ==== Sys2Proof/Laws/State.lean ====
section
/-! SUPPORT. One lemma per field per update of State, each true by rfl, and the laws of reading a
register, the pc or a byte after an update. -/

namespace Sys2Proof.Machine

variable (s : State)

/-! ## setReg -/

@[simp] theorem State.setReg_flags (r : Reg) (v : Word) : (s.setReg r v).flags = s.flags := rfl
@[simp] theorem State.setReg_run (r : Reg) (v : Word) : (s.setReg r v).run = s.run := rfl
@[simp] theorem State.setReg_fcause (r : Reg) (v : Word) : (s.setReg r v).fcause = s.fcause := rfl
@[simp] theorem State.setReg_finfo (r : Reg) (v : Word) : (s.setReg r v).finfo = s.finfo := rfl
@[simp] theorem State.setReg_fpc (r : Reg) (v : Word) : (s.setReg r v).fpc = s.fpc := rfl
@[simp] theorem State.setReg_mem (r : Reg) (v : Word) : (s.setReg r v).mem = s.mem := rfl
@[simp] theorem State.setReg_cfg (r : Reg) (v : Word) : (s.setReg r v).cfg = s.cfg := rfl
@[simp] theorem State.setReg_out (r : Reg) (v : Word) : (s.setReg r v).out = s.out := rfl

/-! ## setPc -/

@[simp] theorem State.setPc_flags (v : Word) : (s.setPc v).flags = s.flags := rfl
@[simp] theorem State.setPc_run (v : Word) : (s.setPc v).run = s.run := rfl
@[simp] theorem State.setPc_fcause (v : Word) : (s.setPc v).fcause = s.fcause := rfl
@[simp] theorem State.setPc_finfo (v : Word) : (s.setPc v).finfo = s.finfo := rfl
@[simp] theorem State.setPc_fpc (v : Word) : (s.setPc v).fpc = s.fpc := rfl
@[simp] theorem State.setPc_mem (v : Word) : (s.setPc v).mem = s.mem := rfl
@[simp] theorem State.setPc_cfg (v : Word) : (s.setPc v).cfg = s.cfg := rfl
@[simp] theorem State.setPc_out (v : Word) : (s.setPc v).out = s.out := rfl

/-! ## advance -/

@[simp] theorem State.advance_flags (k : Word) : (s.advance k).flags = s.flags := rfl
@[simp] theorem State.advance_run (k : Word) : (s.advance k).run = s.run := rfl
@[simp] theorem State.advance_fcause (k : Word) : (s.advance k).fcause = s.fcause := rfl
@[simp] theorem State.advance_finfo (k : Word) : (s.advance k).finfo = s.finfo := rfl
@[simp] theorem State.advance_fpc (k : Word) : (s.advance k).fpc = s.fpc := rfl
@[simp] theorem State.advance_mem (k : Word) : (s.advance k).mem = s.mem := rfl
@[simp] theorem State.advance_cfg (k : Word) : (s.advance k).cfg = s.cfg := rfl
@[simp] theorem State.advance_out (k : Word) : (s.advance k).out = s.out := rfl

/-! ## setFlags -/

@[simp] theorem State.setFlags_x (f : Flags) : (s.setFlags f).x = s.x := rfl
@[simp] theorem State.setFlags_run (f : Flags) : (s.setFlags f).run = s.run := rfl
@[simp] theorem State.setFlags_fcause (f : Flags) : (s.setFlags f).fcause = s.fcause := rfl
@[simp] theorem State.setFlags_finfo (f : Flags) : (s.setFlags f).finfo = s.finfo := rfl
@[simp] theorem State.setFlags_fpc (f : Flags) : (s.setFlags f).fpc = s.fpc := rfl
@[simp] theorem State.setFlags_mem (f : Flags) : (s.setFlags f).mem = s.mem := rfl
@[simp] theorem State.setFlags_cfg (f : Flags) : (s.setFlags f).cfg = s.cfg := rfl
@[simp] theorem State.setFlags_out (f : Flags) : (s.setFlags f).out = s.out := rfl

/-! ## setByteAt -/

@[simp] theorem State.setByteAt_x (a : Nat) (b : Byte) : (s.setByteAt a b).x = s.x := rfl
@[simp] theorem State.setByteAt_flags (a : Nat) (b : Byte) : (s.setByteAt a b).flags = s.flags := rfl
@[simp] theorem State.setByteAt_run (a : Nat) (b : Byte) : (s.setByteAt a b).run = s.run := rfl
@[simp] theorem State.setByteAt_fcause (a : Nat) (b : Byte) : (s.setByteAt a b).fcause = s.fcause := rfl
@[simp] theorem State.setByteAt_finfo (a : Nat) (b : Byte) : (s.setByteAt a b).finfo = s.finfo := rfl
@[simp] theorem State.setByteAt_fpc (a : Nat) (b : Byte) : (s.setByteAt a b).fpc = s.fpc := rfl
@[simp] theorem State.setByteAt_cfg (a : Nat) (b : Byte) : (s.setByteAt a b).cfg = s.cfg := rfl
@[simp] theorem State.setByteAt_out (a : Nat) (b : Byte) : (s.setByteAt a b).out = s.out := rfl

/-! ## setWordAt -/

@[simp] theorem State.setWordAt_x (a v : Word) : (s.setWordAt a v).x = s.x := rfl
@[simp] theorem State.setWordAt_flags (a v : Word) : (s.setWordAt a v).flags = s.flags := rfl
@[simp] theorem State.setWordAt_run (a v : Word) : (s.setWordAt a v).run = s.run := rfl
@[simp] theorem State.setWordAt_fcause (a v : Word) : (s.setWordAt a v).fcause = s.fcause := rfl
@[simp] theorem State.setWordAt_finfo (a v : Word) : (s.setWordAt a v).finfo = s.finfo := rfl
@[simp] theorem State.setWordAt_fpc (a v : Word) : (s.setWordAt a v).fpc = s.fpc := rfl
@[simp] theorem State.setWordAt_cfg (a v : Word) : (s.setWordAt a v).cfg = s.cfg := rfl
@[simp] theorem State.setWordAt_out (a v : Word) : (s.setWordAt a v).out = s.out := rfl

/-! ## emit -/

@[simp] theorem State.emit_x (ds : List Diag) : (s.emit ds).x = s.x := rfl
@[simp] theorem State.emit_flags (ds : List Diag) : (s.emit ds).flags = s.flags := rfl
@[simp] theorem State.emit_run (ds : List Diag) : (s.emit ds).run = s.run := rfl
@[simp] theorem State.emit_fcause (ds : List Diag) : (s.emit ds).fcause = s.fcause := rfl
@[simp] theorem State.emit_finfo (ds : List Diag) : (s.emit ds).finfo = s.finfo := rfl
@[simp] theorem State.emit_fpc (ds : List Diag) : (s.emit ds).fpc = s.fpc := rfl
@[simp] theorem State.emit_mem (ds : List Diag) : (s.emit ds).mem = s.mem := rfl
@[simp] theorem State.emit_cfg (ds : List Diag) : (s.emit ds).cfg = s.cfg := rfl

/-! ## callOut -/

@[simp] theorem State.callOut_x (n : BitVec 8) : (s.callOut n).x = s.x := rfl
@[simp] theorem State.callOut_flags (n : BitVec 8) : (s.callOut n).flags = s.flags := rfl
@[simp] theorem State.callOut_run (n : BitVec 8) : (s.callOut n).run = s.run := rfl
@[simp] theorem State.callOut_fcause (n : BitVec 8) : (s.callOut n).fcause = s.fcause := rfl
@[simp] theorem State.callOut_finfo (n : BitVec 8) : (s.callOut n).finfo = s.finfo := rfl
@[simp] theorem State.callOut_fpc (n : BitVec 8) : (s.callOut n).fpc = s.fpc := rfl
@[simp] theorem State.callOut_mem (n : BitVec 8) : (s.callOut n).mem = s.mem := rfl
@[simp] theorem State.callOut_cfg (n : BitVec 8) : (s.callOut n).cfg = s.cfg := rfl

/-! ## setRecord -/

variable (rc : BitVec 3) (ri : BitVec 17) (rp : Word)

@[simp] theorem State.setRecord_x : (s.setRecord rc ri rp).x = s.x := rfl
@[simp] theorem State.setRecord_flags : (s.setRecord rc ri rp).flags = s.flags := rfl
@[simp] theorem State.setRecord_run : (s.setRecord rc ri rp).run = s.run := rfl
@[simp] theorem State.setRecord_mem : (s.setRecord rc ri rp).mem = s.mem := rfl
@[simp] theorem State.setRecord_cfg : (s.setRecord rc ri rp).cfg = s.cfg := rfl
@[simp] theorem State.setRecord_out : (s.setRecord rc ri rp).out = s.out := rfl
@[simp] theorem State.setRecord_fcause : (s.setRecord rc ri rp).fcause = rc := rfl
@[simp] theorem State.setRecord_finfo : (s.setRecord rc ri rp).finfo = ri := rfl
@[simp] theorem State.setRecord_fpc : (s.setRecord rc ri rp).fpc = rp := rfl
@[simp] theorem State.reg_setRecord (q : Reg) : (s.setRecord rc ri rp).reg q = s.reg q := rfl
@[simp] theorem State.byteAt_setRecord (i : Nat) :
    (s.setRecord rc ri rp).byteAt i = s.byteAt i := rfl

/-! ## The field each update writes -/

@[simp] theorem State.setFlags_flags (f : Flags) : (s.setFlags f).flags = f := rfl
theorem State.setByteAt_mem (a : Nat) (b : Byte) :
    (s.setByteAt a b).mem = Memory.set s.mem a b := rfl
theorem State.setWordAt_mem (a v : Word) :
    (s.setWordAt a v).mem
      = Memory.set (Memory.set s.mem a.toNat v.low8) (a.toNat + 1) v.high8 := rfl
@[simp] theorem State.emit_diags (ds : List Diag) :
    (s.emit ds).out.diags = s.out.diags ++ ds := rfl
@[simp] theorem State.emit_calls (ds : List Diag) : (s.emit ds).out.calls = s.out.calls := rfl
@[simp] theorem State.callOut_diags (n : BitVec 8) : (s.callOut n).out.diags = s.out.diags := rfl
@[simp] theorem State.callOut_calls (n : BitVec 8) :
    (s.callOut n).out.calls = s.out.calls ++ [n] := rfl

/-- Emitting nothing changes nothing. -/
@[simp] theorem State.emit_nil : s.emit [] = s := by
  simp [State.emit]

/-! ## Registers after an update -/

/-- A register read after a register write. -/
@[simp] theorem State.reg_setReg (r q : Reg) (v : Word) :
    (s.setReg r v).reg q = if q = r then v else s.reg q := by
  simp only [State.setReg, State.reg, Vector.getElem_set, BitVec.toNat_inj, eq_comm]

@[simp] theorem State.pc_setReg (r : Reg) (v : Word) :
    (s.setReg r v).pc = if Reg.pc = r then v else s.pc := s.reg_setReg r Reg.pc v

@[simp] theorem State.reg_setPc (q : Reg) (v : Word) :
    (s.setPc v).reg q = if q = Reg.pc then v else s.reg q := s.reg_setReg Reg.pc q v

@[simp] theorem State.pc_setPc (v : Word) : (s.setPc v).pc = v := by simp [State.setPc]

@[simp] theorem State.reg_advance (q : Reg) (k : Word) :
    (s.advance k).reg q = if q = Reg.pc then s.pc + k else s.reg q := s.reg_setPc q (s.pc + k)

@[simp] theorem State.pc_advance (k : Word) : (s.advance k).pc = s.pc + k := by
  simp [State.advance]

@[simp] theorem State.reg_setFlags (q : Reg) (f : Flags) : (s.setFlags f).reg q = s.reg q := rfl
@[simp] theorem State.reg_emit (q : Reg) (ds : List Diag) : (s.emit ds).reg q = s.reg q := rfl
@[simp] theorem State.reg_setByteAt (q : Reg) (a : Nat) (b : Byte) :
    (s.setByteAt a b).reg q = s.reg q := rfl
@[simp] theorem State.reg_setWordAt (q : Reg) (a v : Word) : (s.setWordAt a v).reg q = s.reg q := rfl
@[simp] theorem State.reg_callOut (q : Reg) (n : BitVec 8) : (s.callOut n).reg q = s.reg q := rfl
@[simp] theorem State.pc_setFlags (f : Flags) : (s.setFlags f).pc = s.pc := rfl
@[simp] theorem State.pc_emit (ds : List Diag) : (s.emit ds).pc = s.pc := rfl
@[simp] theorem State.pc_setByteAt (a : Nat) (b : Byte) : (s.setByteAt a b).pc = s.pc := rfl
@[simp] theorem State.pc_setWordAt (a v : Word) : (s.setWordAt a v).pc = s.pc := rfl
@[simp] theorem State.pc_callOut (n : BitVec 8) : (s.callOut n).pc = s.pc := rfl

/-- Two register files that read alike are equal. -/
theorem State.x_ext {s t : State} (h : ∀ r, s.reg r = t.reg r) : s.x = t.x := by
  apply Vector.ext
  intro i hi
  have hr := h (BitVec.ofNat 4 i)
  simpa [State.reg, BitVec.toNat_ofNat, Nat.mod_eq_of_lt hi] using hr

/-- A register write of the value already held changes nothing. -/
@[simp] theorem State.setReg_self (r : Reg) : s.setReg r (s.reg r) = s := by
  simp [State.setReg, State.reg]

/-! ## Memory bytes after an update that leaves memory alone -/

@[simp] theorem State.byteAt_setReg (r : Reg) (v : Word) (i : Nat) : (s.setReg r v).byteAt i = s.byteAt i := rfl
@[simp] theorem State.wordAt_setReg (r : Reg) (v : Word) (i : Word) : (s.setReg r v).wordAt i = s.wordAt i := rfl
@[simp] theorem State.byteAt_setPc (v : Word) (i : Nat) : (s.setPc v).byteAt i = s.byteAt i := rfl
@[simp] theorem State.wordAt_setPc (v : Word) (i : Word) : (s.setPc v).wordAt i = s.wordAt i := rfl
@[simp] theorem State.byteAt_advance (k : Word) (i : Nat) : (s.advance k).byteAt i = s.byteAt i := rfl
@[simp] theorem State.wordAt_advance (k : Word) (i : Word) : (s.advance k).wordAt i = s.wordAt i := rfl
@[simp] theorem State.byteAt_setFlags (f : Flags) (i : Nat) : (s.setFlags f).byteAt i = s.byteAt i := rfl
@[simp] theorem State.wordAt_setFlags (f : Flags) (i : Word) : (s.setFlags f).wordAt i = s.wordAt i := rfl
@[simp] theorem State.byteAt_emit (ds : List Diag) (i : Nat) : (s.emit ds).byteAt i = s.byteAt i := rfl
@[simp] theorem State.wordAt_emit (ds : List Diag) (i : Word) : (s.emit ds).wordAt i = s.wordAt i := rfl
@[simp] theorem State.byteAt_callOut (n : BitVec 8) (i : Nat) : (s.callOut n).byteAt i = s.byteAt i := rfl
@[simp] theorem State.wordAt_callOut (n : BitVec 8) (i : Word) : (s.callOut n).wordAt i = s.wordAt i := rfl

/-! ## Fault entry -/

variable (c : Cause) (info : BitVec 17) (out : Output)

@[simp] theorem faultEntry_x : (faultEntry s c info out).x = s.x := rfl
@[simp] theorem faultEntry_reg (r : Reg) : (faultEntry s c info out).reg r = s.reg r := rfl
@[simp] theorem faultEntry_pc : (faultEntry s c info out).pc = s.pc := rfl
@[simp] theorem faultEntry_flags : (faultEntry s c info out).flags = s.flags := rfl
@[simp] theorem faultEntry_mem : (faultEntry s c info out).mem = s.mem := rfl
@[simp] theorem faultEntry_cfg : (faultEntry s c info out).cfg = s.cfg := rfl
@[simp] theorem faultEntry_out : (faultEntry s c info out).out = out := rfl
@[simp] theorem faultEntry_run : (faultEntry s c info out).run = .faulted := rfl
@[simp] theorem faultEntry_fcause : (faultEntry s c info out).fcause = causeCode c := rfl
@[simp] theorem faultEntry_finfo : (faultEntry s c info out).finfo = info := rfl
@[simp] theorem faultEntry_fpc : (faultEntry s c info out).fpc = s.pc := rfl

/-! ## Host writes of the run state -/

/-- When a host write of the run state is accepted (log 24). -/
theorem runWriteAllowed_iff {now new : RunState} : runWriteAllowed now new = true ↔
    new ≠ .faulted ∧ (now = .running ∨ (now = .halted ∧ new = .halted)) := by
  cases now <;> cases new <;> decide

end Sys2Proof.Machine
end

