-- ==== Sys2Proof/Laws/Memory.lean ====
section
/-! SUPPORT. The laws of memory as a list of cells: a write is read back, leaves every other byte
alone and keeps the canonical form; the reset state's memory has it; equal bytes are equal lists. -/

namespace Sys2Proof.Machine

/-- Every address of the list is above `a`. -/
def Memory.above (a : Nat) (m : List Host.Cell) : Prop := ∀ c ∈ m, a < c.1

/-- The canonical form, cell by cell. -/
theorem Memory.wf_cons (c : Host.Cell) (m : List Host.Cell) :
    Memory.wf (c :: m) = true ↔
      c.2 ≠ Memory.blankByte ∧ Memory.above c.1 m ∧ Memory.wf m = true := by
  induction m generalizing c with
  | nil => simp [Memory.wf, Memory.above]
  | cons d rest ih =>
    have hd := ih d
    simp only [Memory.wf, Bool.and_eq_true, bne_iff_ne, decide_eq_true_eq]
    constructor
    · rintro ⟨⟨h1, h2⟩, h3⟩
      refine ⟨h1, ?_, h3⟩
      intro e he
      rcases List.mem_cons.1 he with rfl | he
      · exact h2
      · exact Nat.lt_trans h2 ((hd.1 h3).2.1 e he)
    · rintro ⟨h1, h2, h3⟩
      exact ⟨⟨h1, h2 d (by simp)⟩, h3⟩

/-- A byte below every listed address is blank. -/
theorem Memory.get_of_above {m : List Host.Cell} {a : Nat} (h : Memory.above a m) :
    Memory.get m a = Memory.blankByte := by
  induction m with
  | nil => rfl
  | cons c rest ih =>
    have hc : a < c.1 := h c (by simp)
    rw [Memory.get, if_neg (by omega)]
    exact ih fun d hd => h d (by simp [hd])

/-- Reading through `Memory.cons`. -/
theorem Memory.get_cons {m : List Host.Cell} {a : Nat} (b : Byte) (h : Memory.above a m) (i : Nat) :
    Memory.get (Memory.cons a b m) i = if i = a then b else Memory.get m i := by
  unfold Memory.cons
  by_cases hb : b = Memory.blankByte
  · by_cases hi : i = a
    · subst hi
      simp [hb, Memory.get_of_above h]
    · simp [hb, hi]
  · by_cases hi : a = i
    · subst hi
      simp [hb, Memory.get]
    · simp [hb, hi, Memory.get, Ne.symm hi]

/-- `Memory.cons` keeps the canonical form. -/
theorem Memory.wf_consCell {m : List Host.Cell} {a : Nat} (b : Byte) (h : Memory.above a m)
    (hm : Memory.wf m = true) : Memory.wf (Memory.cons a b m) = true := by
  unfold Memory.cons
  by_cases hb : b = Memory.blankByte
  · simpa [hb] using hm
  · rw [if_neg hb]
    exact (Memory.wf_cons _ _).2 ⟨hb, h, hm⟩

/-- The cells of `Memory.cons` are the new one and the old ones. -/
theorem Memory.mem_consCell {m : List Host.Cell} {a : Nat} {b : Byte} {c : Host.Cell}
    (h : c ∈ Memory.cons a b m) : c = (a, b) ∨ c ∈ m := by
  unfold Memory.cons at h
  split at h
  · exact .inr h
  · simpa using h

/-- The cells after a write are the new one and old ones. -/
theorem Memory.mem_set {m : List Host.Cell} {a : Nat} {b : Byte} {c : Host.Cell}
    (h : c ∈ Memory.set m a b) : c = (a, b) ∨ c ∈ m := by
  induction m with
  | nil => exact Memory.mem_consCell h
  | cons d rest ih =>
    unfold Memory.set at h
    split at h
    · exact Memory.mem_consCell h
    · split at h
      · rcases Memory.mem_consCell h with h | h
        · exact .inl h
        · exact .inr (by simp [h])
      · rcases List.mem_cons.1 h with h | h
        · exact .inr (by simp [h])
        · rcases ih h with h | h
          · exact .inl h
          · exact .inr (by simp [h])

/-- A write keeps the canonical form. -/
theorem Memory.wf_set {m : List Host.Cell} (a : Nat) (b : Byte) (hm : Memory.wf m = true) :
    Memory.wf (Memory.set m a b) = true := by
  induction m with
  | nil => exact Memory.wf_consCell b (by simp [Memory.above]) rfl
  | cons d rest ih =>
    obtain ⟨hd, hab, hrest⟩ := (Memory.wf_cons d rest).1 hm
    unfold Memory.set
    split
    · next hlt =>
      refine Memory.wf_consCell b ?_ hm
      intro c hc
      rcases List.mem_cons.1 hc with rfl | hc
      · exact hlt
      · exact Nat.lt_trans hlt (hab c hc)
    · split
      · next heq => exact Memory.wf_consCell b (heq ▸ hab) hrest
      · refine (Memory.wf_cons d _).2 ⟨hd, ?_, ih hrest⟩
        intro c hc
        rcases Memory.mem_set hc with rfl | hc
        · show d.1 < a
          omega
        · exact hab c hc

/-- A write is read back and leaves every other byte alone. -/
theorem Memory.get_set {m : List Host.Cell} (a : Nat) (b : Byte) (hm : Memory.wf m = true)
    (i : Nat) : Memory.get (Memory.set m a b) i = if i = a then b else Memory.get m i := by
  induction m with
  | nil => exact Memory.get_cons b (by simp [Memory.above]) i
  | cons d rest ih =>
    obtain ⟨-, hab, hrest⟩ := (Memory.wf_cons d rest).1 hm
    unfold Memory.set
    split
    · next hlt =>
      refine Memory.get_cons b ?_ i
      intro c hc
      rcases List.mem_cons.1 hc with rfl | hc
      · exact hlt
      · exact Nat.lt_trans hlt (hab c hc)
    · split
      · next heq =>
        rw [Memory.get_cons b (heq ▸ hab) i]
        by_cases hi : i = a
        · simp [hi]
        · rw [if_neg hi, if_neg hi, Memory.get, if_neg (by omega)]
      · next hne =>
        simp only [Memory.get, ih hrest]
        by_cases hdi : d.1 = i
        · rw [if_pos hdi, if_pos hdi, if_neg (by omega)]
        · rw [if_neg hdi, if_neg hdi]

/-- A write inside memory leaves nothing listed outside it. -/
theorem Memory.within_set {m : List Host.Cell} {size a : Nat} (b : Byte) (ha : a < size)
    (hm : Memory.within size m = true) : Memory.within size (Memory.set m a b) = true := by
  simp only [Memory.within, List.all_eq_true, decide_eq_true_eq] at hm ⊢
  intro c hc
  rcases Memory.mem_set hc with rfl | hc
  · exact ha
  · exact hm c hc

/-- The reset state's memory is in the canonical form and lists nothing outside memory. -/
theorem reset_memOk : State.reset.memOk = true := by decide

variable (s : State)

/-- `State.setByteAt` at the level of bytes. -/
theorem State.byteAt_setByteAt (hm : Memory.wf s.mem = true) (a : Nat) (b : Byte) (i : Nat) :
    (s.setByteAt a b).byteAt i = if i = a then b else s.byteAt i := Memory.get_set a b hm i

/-- `State.setWordAt` at the level of bytes. -/
theorem State.byteAt_setWordAt (hm : Memory.wf s.mem = true) (a v : Word) (i : Nat) :
    (s.setWordAt a v).byteAt i =
      if i = a.toNat + 1 then v.high8 else if i = a.toNat then v.low8 else s.byteAt i := by
  unfold State.setWordAt
  rw [State.byteAt_setByteAt _ (Memory.wf_set _ _ hm), State.byteAt_setByteAt _ hm]

/-- A word written is read back. -/
theorem State.wordAt_setWordAt (hm : Memory.wf s.mem = true) (a v : Word) :
    (s.setWordAt a v).wordAt a = v := by
  unfold State.wordAt
  rw [State.byteAt_setWordAt s hm, State.byteAt_setWordAt s hm]
  simp

/-- A byte write inside memory keeps memory sound. -/
theorem State.memOk_setByteAt {s : State} (hm : s.memOk = true) {a : Nat} (b : Byte)
    (ha : a < s.cfg.memSize) : (s.setByteAt a b).memOk = true := by
  simp only [State.memOk, Bool.and_eq_true] at hm ⊢
  exact ⟨Memory.wf_set a b hm.1, Memory.within_set b ha hm.2⟩

/-- A word write inside memory keeps memory sound. -/
theorem State.memOk_setWordAt {s : State} (hm : s.memOk = true) {a : Word} (v : Word)
    (ha : a.toNat + 1 < s.cfg.memSize) : (s.setWordAt a v).memOk = true :=
  State.memOk_setByteAt (State.memOk_setByteAt hm v.low8 (by omega)) v.high8 ha

end Sys2Proof.Machine
end

