-- ==== Sys2Proof/Laws/Access.lean ====
section
/-! SUPPORT. What each memory primitive and stack operation can do, said once: when it answers a
value, which value and which state; when it raises, what. -/

namespace Sys2Proof.Machine

/-! ## The access check -/

theorem getLsbD_zero_eq (a : Word) : a.getLsbD 0 = decide (a.toNat % 2 = 1) := by
  simp [BitVec.getLsbD, Nat.testBit_zero]

theorem accessFault_byte_none {cfg : Config} {a : Word} :
    accessFault cfg a .byte = none ↔ a.toNat < cfg.memSize := by
  unfold accessFault touched misaligned
  by_cases h : cfg.memSize ≤ a.toNat
  · simp [h]
  · simp [h]
    omega

theorem accessFault_word_none {cfg : Config} {a : Word} :
    accessFault cfg a .word = none ↔
      a.toNat + 1 < cfg.memSize ∧ (cfg.alignPolicy = .warn ∨ a.toNat % 2 = 0) := by
  unfold accessFault touched misaligned
  rw [getLsbD_zero_eq]
  by_cases h : cfg.memSize ≤ a.toNat
  · simp [h]
    omega
  · by_cases h1 : cfg.memSize ≤ a.toNat + 1
    · simp [h, h1]
    · cases hp : cfg.alignPolicy <;> simp [h, h1] <;> omega

/-- A byte access out of bounds reports its address (20_memory R74). -/
theorem accessFault_byte_bounds {cfg : Config} {a : Word} (h : cfg.memSize ≤ a.toNat) :
    accessFault cfg a .byte = some (.memBounds, BitVec.ofNat 17 a.toNat) := by
  simp [accessFault, touched, h]

/-- A word access whose first byte is out of bounds reports that byte (20_memory R74). -/
theorem accessFault_word_first {cfg : Config} {a : Word} (h : cfg.memSize ≤ a.toNat) :
    accessFault cfg a .word = some (.memBounds, BitVec.ofNat 17 a.toNat) := by
  simp [accessFault, touched, h]

/-- A word access whose second byte alone is out of bounds reports that byte, whatever the
alignment (20_memory R74; 60_exceptions R406). -/
theorem accessFault_word_second {cfg : Config} {a : Word} (h : cfg.memSize = a.toNat + 1) :
    accessFault cfg a .word = some (.memBounds, BitVec.ofNat 17 (a.toNat + 1)) := by
  simp [accessFault, touched, h]

/-- A word access in bounds at an odd address under `fail` (20_memory R75). -/
theorem accessFault_word_misaligned {cfg : Config} {a : Word} (h : a.toNat + 1 < cfg.memSize)
    (hp : cfg.alignPolicy = .fail) (ho : a.toNat % 2 = 1) :
    accessFault cfg a .word = some (.misaligned, a.setWidth 17) := by
  have h0 : ¬ cfg.memSize ≤ a.toNat := by omega
  have h1 : ¬ cfg.memSize ≤ a.toNat + 1 := by omega
  simp [accessFault, touched, misaligned, getLsbD_zero_eq, h0, h1, hp, ho]

/-- `fcause` and `finfo` agree as the table of 60_exceptions R403 says. -/
def recordFits (cfg : Config) (c : Cause) (info : BitVec 17) : Prop :=
  match c with
  | .memBounds => cfg.memSize ≤ info.toNat ∧ info.toNat ≤ 0x10000
  | .misaligned => cfg.alignPolicy = .fail ∧ info.getLsbD 0 = true ∧ info.getLsbD 16 = false
  | .divZero => info.extractLsb' 8 9 = 0x1C#9 ∨ info.extractLsb' 8 9 = 0x1E#9
  | .illegal =>
    cfg.illegalPolicy = .fault ∧ info.getLsbD 16 = false ∧
      decode (info.extractLsb' 0 16) 0#16 = none

/-- Every fault an access raises has a record that fits its cause. -/
theorem accessFault_fits {cfg : Config} {a : Word} {w : Width} {c : Cause} {info : BitVec 17}
    (h : accessFault cfg a w = some (c, info)) : recordFits cfg c info := by
  have ha := a.isLt
  cases w with
  | byte =>
    by_cases hb : cfg.memSize ≤ a.toNat
    · rw [accessFault_byte_bounds hb] at h
      cases h
      simp only [recordFits, BitVec.toNat_ofNat]
      omega
    · rw [accessFault_byte_none.2 (by omega)] at h
      cases h
  | word =>
    by_cases hb : cfg.memSize ≤ a.toNat
    · rw [accessFault_word_first hb] at h
      cases h
      simp only [recordFits, BitVec.toNat_ofNat]
      omega
    · by_cases hb1 : cfg.memSize = a.toNat + 1
      · rw [accessFault_word_second hb1] at h
        cases h
        simp only [recordFits, BitVec.toNat_ofNat]
        omega
      · by_cases hp : cfg.alignPolicy = .fail ∧ a.toNat % 2 = 1
        · rw [accessFault_word_misaligned (by omega) hp.1 hp.2] at h
          cases h
          refine ⟨hp.1, ?_, ?_⟩
          · simp [getLsbD_zero_eq, hp.2]
          · simp
        · have : accessFault cfg a .word = none := by
            refine accessFault_word_none.2 ⟨by omega, ?_⟩
            cases hpp : cfg.alignPolicy
            · exact .inl rfl
            · exact .inr (by
                have : ¬ a.toNat % 2 = 1 := fun hodd => hp ⟨hpp, hodd⟩
                omega)
          rw [this] at h
          cases h

/-! ## The memory primitives where they raise nothing -/

variable {s : State} {a : Word}

theorem memReadByte_ok (h : s.ByteOk a) :
    memReadByte s a = .ok (s.byteAt a.toNat, s.emit (readDiags s.cfg a .byte)) := by
  simp [memReadByte, accessFault_byte_none.2 h]

theorem memReadWord_ok (h : s.WordOk a) :
    memReadWord s a = .ok (s.wordAt a, s.emit (readDiags s.cfg a .word)) := by
  simp [memReadWord, accessFault_word_none.2 h]

theorem memWriteByte_ok (h : s.ByteOk a) (v : Byte) :
    memWriteByte s a v = .ok ((s.setByteAt a.toNat v).emit (writeDiags s.cfg a .byte)) := by
  simp [memWriteByte, accessFault_byte_none.2 h]

theorem memWriteWord_ok (h : s.WordOk a) (v : Word) :
    memWriteWord s a v = .ok ((s.setWordAt a v).emit (writeDiags s.cfg a .word)) := by
  simp [memWriteWord, accessFault_word_none.2 h]

/-! ## Everything each operation can do -/

/-- `t` comes from `s` inside a step: the configuration is the same, memory stays sound, the outputs
only grow, and Faulted is not entered. -/
structure Follows (s t : State) : Prop where
  cfg    : t.cfg = s.cfg
  memOk  : s.memOk = true → t.memOk = true
  diags  : s.out.diags <+: t.out.diags
  calls  : s.out.calls <+: t.out.calls
  run    : s.run ≠ .faulted → t.run ≠ .faulted

/-- A raise inside a step from `s`: its record fits its cause and the outputs only grow. -/
structure RaisesFrom (s : State) (c : Cause) (info : BitVec 17) (out : Output) : Prop where
  fits  : recordFits s.cfg c info
  diags : s.out.diags <+: out.diags
  calls : s.out.calls <+: out.calls

theorem Follows.rfl' (s : State) : Follows s s where
  cfg := rfl
  memOk := id
  diags := List.prefix_rfl
  calls := List.prefix_rfl
  run := id

theorem Follows.trans {s t u : State} (h : Follows s t) (k : Follows t u) : Follows s u where
  cfg := k.cfg.trans h.cfg
  memOk := fun m => k.memOk (h.memOk m)
  diags := h.diags.trans k.diags
  calls := h.calls.trans k.calls
  run := fun r => k.run (h.run r)

theorem RaisesFrom.of_follows {s t : State} {c : Cause} {info : BitVec 17} {out : Output}
    (h : Follows s t) (k : RaisesFrom t c info out) : RaisesFrom s c info out where
  fits := h.cfg ▸ k.fits
  diags := h.diags.trans k.diags
  calls := h.calls.trans k.calls

theorem follows_setReg (s : State) (r : Reg) (v : Word) : Follows s (s.setReg r v) :=
  { Follows.rfl' s with }

theorem follows_setPc (s : State) (v : Word) : Follows s (s.setPc v) := follows_setReg s _ v

theorem follows_advance (s : State) (k : Word) : Follows s (s.advance k) := follows_setReg s _ _

theorem follows_setFlags (s : State) (f : Flags) : Follows s (s.setFlags f) :=
  { Follows.rfl' s with }

theorem follows_setRecord (s : State) (c : BitVec 3) (info : BitVec 17) (p : Word) :
    Follows s (s.setRecord c info p) := { Follows.rfl' s with }

theorem follows_emit (s : State) (ds : List Diag) : Follows s (s.emit ds) :=
  { Follows.rfl' s with diags := List.prefix_append _ _ }

theorem follows_callOut (s : State) (n : BitVec 8) : Follows s (s.callOut n) :=
  { Follows.rfl' s with calls := List.prefix_append _ _ }

theorem follows_setByteAt (s : State) {i : Nat} (b : Byte) (h : i < s.cfg.memSize) :
    Follows s (s.setByteAt i b) :=
  { Follows.rfl' s with memOk := fun m => State.memOk_setByteAt m b h }

theorem follows_setWordAt (s : State) {i : Word} (v : Word) (h : i.toNat + 1 < s.cfg.memSize) :
    Follows s (s.setWordAt i v) :=
  { Follows.rfl' s with memOk := fun m => State.memOk_setWordAt m v h }

/-- A result of a part of a step from `s`, with the state of an `ok` read off by `f`. -/
def ResFrom {α : Type} (s : State) (f : α → State) : Res α → Prop
  | .ok a => Follows s (f a)
  | .raise c info out => RaisesFrom s c info out

theorem ResFrom.bind {α β : Type} {s : State} {f : α → State} {g : β → State} {r : Res α}
    {k : α → Res β} (h : ResFrom s f r) (hk : ∀ a, ResFrom (f a) g (k a)) :
    ResFrom s g (resBind r k) := by
  cases r with
  | ok a =>
    have := hk a
    simp only [resBind]
    cases hka : k a with
    | ok b =>
      rw [hka] at this
      exact Follows.trans h this
    | raise c info out =>
      rw [hka] at this
      exact RaisesFrom.of_follows h this
  | raise c info out => exact h

theorem raisesFrom_access {s : State} {a : Word} {w : Width} {c : Cause} {info : BitVec 17}
    (h : accessFault s.cfg a w = some (c, info)) : RaisesFrom s c info s.out :=
  ⟨accessFault_fits h, List.prefix_rfl, List.prefix_rfl⟩

theorem memReadByte_from (s : State) (a : Word) : ResFrom s Prod.snd (memReadByte s a) := by
  unfold memReadByte
  cases h : accessFault s.cfg a .byte with
  | some p => exact raisesFrom_access h
  | none => exact follows_emit s _

theorem memReadWord_from (s : State) (a : Word) : ResFrom s Prod.snd (memReadWord s a) := by
  unfold memReadWord
  cases h : accessFault s.cfg a .word with
  | some p => exact raisesFrom_access h
  | none => exact follows_emit s _

theorem memWriteByte_from (s : State) (a : Word) (v : Byte) :
    ResFrom s id (memWriteByte s a v) := by
  unfold memWriteByte
  cases h : accessFault s.cfg a .byte with
  | some p => exact raisesFrom_access h
  | none => exact (follows_setByteAt s v (accessFault_byte_none.1 h)).trans (follows_emit _ _)

theorem memWriteWord_from (s : State) (a v : Word) : ResFrom s id (memWriteWord s a v) := by
  unfold memWriteWord
  cases h : accessFault s.cfg a .word with
  | some p => exact raisesFrom_access h
  | none => exact (follows_setWordAt s v (accessFault_word_none.1 h).1).trans (follows_emit _ _)

theorem pushOn_from (s : State) (sp : Reg) (v : Word) : ResFrom s id (pushOn s sp v) :=
  (memWriteWord_from s _ v).bind fun t => follows_setReg t _ _

theorem popFrom_from (s : State) (sp : Reg) : ResFrom s Prod.snd (popFrom s sp) := by
  have h := memReadWord_from (s.setReg sp (s.reg sp + 2#16))
    ((s.setReg sp (s.reg sp + 2#16)).reg sp)
  unfold popFrom
  cases hr : memReadWord (s.setReg sp (s.reg sp + 2#16))
      ((s.setReg sp (s.reg sp + 2#16)).reg sp) with
  | ok p =>
    rw [hr] at h
    exact (follows_setReg s _ _).trans h
  | raise c info out =>
    rw [hr] at h
    exact RaisesFrom.of_follows (follows_setReg s _ _) h

end Sys2Proof.Machine
end

