-- ==== Sys2Proof/Laws/Exec.lean ====
section
/-! SUPPORT. What a meaning, and a step, can do, said once for all instructions: the state it answers
follows from the one it began in, or it is fault entry with a record that fits its cause. -/

set_option Elab.async false

namespace Sys2Proof.Machine

/-- Everything the outcome of a step part that began in `s` can be. -/
def OutcomeFrom (s : State) : Host.Outcome State Fault Refusal → Prop
  | .next t =>
    Follows s t ∨ ∃ c info out, RaisesFrom s c info out ∧ t = faultEntry s c info out
  | .fault _ => True
  | .refused _ => True

theorem outcome_complete {s : State} {r : Res State} (h : ResFrom s id r) :
    OutcomeFrom s (complete s r) := by
  cases r with
  | ok t => exact .inl h
  | raise c info out => exact .inr ⟨c, info, out, h, rfl⟩

/-- A part that goes on from a state that follows `s`. -/
theorem ResFrom.of_follows {α : Type} {s t : State} {f : α → State} {r : Res α}
    (h : Follows s t) (k : ResFrom t f r) : ResFrom s f r := by
  cases r with
  | ok a => exact Follows.trans h k
  | raise c info out => exact RaisesFrom.of_follows h k

theorem loadWord_from (t : State) (ra : Reg) (ea : Word) : ResFrom t id (loadWord t ra ea) :=
  (memReadWord_from t ea).bind fun p => follows_setReg p.2 _ _

theorem loadByte_from (t : State) (ra : Reg) (ea : Word) : ResFrom t id (loadByte t ra ea) :=
  (memReadByte_from t ea).bind fun p => follows_setReg p.2 _ _

theorem popInto_from (t : State) (sp ra : Reg) : ResFrom t id (popInto t sp ra) :=
  (popFrom_from t sp).bind fun p => follows_setReg p.2 _ _

theorem callTo_from (t : State) (target : Word) : ResFrom t id (callTo t target) :=
  (pushOn_from t Reg.rsp t.pc).bind fun u => follows_setPc u _

theorem outcome_advance {s : State} {k : Word} {r : Res State} (h : ResFrom (s.advance k) id r) :
    OutcomeFrom s (complete s r) := outcome_complete (h.of_follows (follows_advance s k))

theorem outcome_unlessSkipped {s : State} {k : Word} {cond : Cond} {r : Res State}
    (h : ResFrom (s.advance k) id r) :
    OutcomeFrom s (unlessSkipped s (s.advance k) cond r) := by
  unfold unlessSkipped
  split
  · exact .inl (follows_advance s k)
  · exact outcome_advance h

theorem follows_writeArith (t : State) (ra : Reg) (r : BitVec 32) :
    Follows t (writeArith t ra r) := (follows_setReg t _ _).trans (follows_setFlags _ _)

theorem follows_writeBool (t : State) (ra : Reg) (r : Word) : Follows t (writeBool t ra r) :=
  (follows_setReg t _ _).trans (follows_setFlags _ _)

theorem follows_writeShift (t : State) (ra : Reg) (n : BitVec 4) (sh : Shifted) :
    Follows t (writeShift t ra n sh) := (follows_setReg t _ _).trans (follows_setFlags _ _)

/-- A division word zero-extended to 17 bits keeps its high byte. -/
theorem extract_packGeneral (hi : BitVec 8) (a b : BitVec 4) :
    ((packGeneral hi a b).setWidth 17).extractLsb' 8 9 = hi.setWidth 9 := by
  apply BitVec.eq_of_getLsbD_eq
  intro i h
  rw [BitVec.getLsbD_extractLsb', BitVec.getLsbD_setWidth, BitVec.getLsbD_setWidth,
    packGeneral, packByte, getLsbD_ofBytes]
  have : 8 + i < 17 := by omega
  simp [h, this]

theorem outcome_divideStep {s : State} {k : Word} {ra a b : Reg} {d : Word} {hi : BitVec 8}
    (hhi : hi = 0x1C#8 ∨ hi = 0x1E#8) :
    OutcomeFrom s (divideStep s (s.advance k) ra d (packGeneral hi a b)) := by
  refine outcome_advance (k := k) ?_
  split
  · refine ⟨?_, List.prefix_rfl, List.prefix_rfl⟩
    simp only [recordFits, extract_packGeneral]
    rcases hhi with rfl | rfl
    · exact .inl rfl
    · exact .inr rfl
  · exact follows_writeArith _ _ _

theorem runAct_from {s : State} {act : HandlerAct} (h : actAllowed s.cfg act = true) :
    ResFrom s id (runAct s act) := by
  cases act with
  | setReg r v => exact follows_setReg s r v
  | setFlag f b => exact follows_setFlags s _
  | setByte a v => exact follows_setByteAt s v (by simpa [actAllowed] using h)
  | setRun r => exact { Follows.rfl' s with run := fun _ => by simpa [actAllowed] using h }
  | setRecord c info p => exact follows_setRecord s c info p
  | dpush v => exact pushOn_from s _ v
  | dpop => exact (popFrom_from s _).bind fun p => Follows.rfl' p.2

/-- A handler's acts, from a state that follows the step's first. -/
theorem outcome_runActs {s t : State} {n : BitVec 8} {acts : List HandlerAct}
    (h : Follows s t) : OutcomeFrom s (runActs s n t acts) := by
  induction acts generalizing t with
  | nil => exact .inl h
  | cons act rest ih =>
    unfold runActs
    split
    · next ha =>
      have hr := runAct_from ha
      cases e : runAct t act with
      | ok u =>
        rw [e] at hr
        exact ih (h.trans hr)
      | raise c info out =>
        rw [e] at hr
        exact .inr ⟨c, info, out, RaisesFrom.of_follows h hr, rfl⟩
    · trivial

theorem outcome_callHandler {s : State} {k : Word} {n : BitVec 8} {hd : Handler} :
    OutcomeFrom s (callHandler s (s.advance k) n hd) := by
  unfold callHandler
  split
  · trivial
  · exact outcome_runActs ((follows_advance s k).trans (follows_callOut _ n))

/-- What any meaning can do, from any state. -/
theorem exec_outcome (i : Instr) (s : State) : OutcomeFrom s (exec i s) := by
  have adv := follows_advance s
  cases i with
  | nop | mov | movi | movil | movai | bset | bclr =>
    first
    | exact .inl (adv _)
    | exact .inl ((adv _).trans (follows_setReg _ _ _))
  | halt => exact .inl { adv 2#16 with run := fun _ => by simp }
  | ret | pop | rpop => exact outcome_advance (popInto_from _ _ _)
  | syscall n =>
    show OutcomeFrom s (execSyscall n s)
    unfold execSyscall
    simp only
    split
    · exact outcome_callHandler
    · exact .inl (adv _)
  | add | addi | addil | sub | subi | subil | mul | mulil =>
    exact .inl ((adv _).trans (follows_writeArith _ _ _))
  | div => exact outcome_divideStep (.inl rfl)
  | divil => exact outcome_divideStep (.inr rfl)
  | and | andil | or | oril | xor | xoril | not =>
    exact .inl ((adv _).trans (follows_writeBool _ _ _))
  | shl | shli | shr | shri | rol | roli | ror | rori | rlc | rlci | rrc | rrci =>
    exact .inl ((adv _).trans (follows_writeShift _ _ _ _))
  | bit => exact .inl ((adv _).trans (follows_setFlags _ _))
  | ld | ldx => exact outcome_advance (loadWord_from _ _ _)
  | ldb | ldbx => exact outcome_advance (loadByte_from _ _ _)
  | st | stx => exact outcome_advance (memWriteWord_from _ _ _)
  | stb | stbx => exact outcome_advance (memWriteByte_from _ _ _)
  | push | rpush => exact outcome_advance (pushOn_from _ _ _)
  | jp | jr | jx | jxl => exact outcome_unlessSkipped (follows_setPc _ _)
  | call | callr | callx | callxl => exact outcome_unlessSkipped (callTo_from _ _)

/-! ## The cycle -/

/-- The fetch leaves the state it began in but for the diagnostics, and Illegal(w) is a word no
trailing word makes an instruction. -/
theorem fetch_from (s : State) : ResFrom s Prod.snd (fetch s) := by
  refine (memReadWord_from s s.pc).bind fun p => ?_
  split
  · exact (memReadWord_from p.2 _).bind fun q => Follows.rfl' q.2
  · exact Follows.rfl' p.2

/-- A memory read that raises nothing only emits. -/
theorem memReadWord_cases (s : State) (a : Word) :
    (∃ c info, memReadWord s a = .raise c info s.out) ∨
      (s.WordOk a ∧ memReadWord s a = .ok (s.wordAt a, s.emit (readDiags s.cfg a .word))) := by
  unfold memReadWord
  cases h : accessFault s.cfg a .word with
  | some p => exact .inl ⟨p.1, p.2, rfl⟩
  | none => exact .inr ⟨accessFault_word_none.1 h, rfl⟩

theorem State.emit_emit (s : State) (d e : List Diag) : (s.emit d).emit e = s.emit (d ++ e) := by
  simp [State.emit, List.append_assoc]

/-- A fetch that raises nothing: the words at pc, decoded, and the state with events emitted. -/
theorem fetch_ok {s : State} {f : Fetched} {t : State} (h : fetch s = .ok (f, t)) :
    ∃ ds imm, t = s.emit ds ∧ f = fetchedOf (s.wordAt s.pc) imm := by
  unfold fetch at h
  rcases memReadWord_cases s s.pc with ⟨c, info, hr⟩ | ⟨-, hr⟩
  · rw [hr] at h
    cases h
  · rw [hr] at h
    simp only [resBind] at h
    split at h
    · rcases memReadWord_cases (s.emit (readDiags s.cfg s.pc .word)) (s.pc + 2#16) with
        ⟨c, info, hr2⟩ | ⟨-, hr2⟩
      · rw [hr2] at h
        cases h
      · rw [hr2] at h
        cases h
        exact ⟨_, _, State.emit_emit _ _ _, rfl⟩
    · cases h
      exact ⟨_, _, rfl, rfl⟩

theorem outcome_runIllegal {s : State} {w imm : Word} (h : decode w imm = none) :
    OutcomeFrom s (runIllegal w s) := by
  unfold runIllegal
  cases hp : s.cfg.illegalPolicy with
  | nop => exact .inl (follows_advance s _)
  | fault =>
    have hd := decode_none_imm 0#16 h
    have hw : (w.setWidth 17).extractLsb' 0 16 = w := by
      apply BitVec.eq_of_getLsbD_eq
      intro i hi
      rw [BitVec.getLsbD_extractLsb', BitVec.getLsbD_setWidth]
      simp [hi, show i < 17 by omega]
    have fits : recordFits s.cfg .illegal (w.setWidth 17) := ⟨hp, by simp, by rw [hw]; exact hd⟩
    exact .inr ⟨.illegal, w.setWidth 17, s.out, ⟨fits, List.prefix_rfl, List.prefix_rfl⟩, rfl⟩

/-- What a step that executes can do: with `u` the state after the fetch's events, the outcome is
one of a meaning from `u`, or fault entry by the fetch. -/
theorem step_outcome {s : State} (h : s.run = .running) : OutcomeFrom s (step s) := by
  have hf := fetch_from s
  unfold step runCycle
  rw [h]
  simp only
  cases hr : fetch s with
  | raise c info out =>
    rw [hr] at hf
    exact .inr ⟨c, info, out, hf, rfl⟩
  | ok p =>
    obtain ⟨f, t⟩ := p
    obtain ⟨ds, imm, rfl, hfe⟩ := fetch_ok hr
    have lift : ∀ o, OutcomeFrom (s.emit ds) o → OutcomeFrom s o := by
      intro o ho
      cases o with
      | next u =>
        rcases ho with hu | ⟨c, info, out, hu, rfl⟩
        · exact .inl ((follows_emit s ds).trans hu)
        · exact .inr ⟨c, info, out, RaisesFrom.of_follows (follows_emit s ds) hu, rfl⟩
      | fault _ => trivial
      | refused _ => trivial
    cases f with
    | instr i => exact lift _ (exec_outcome i _)
    | illegal w =>
      refine lift _ (outcome_runIllegal (imm := imm) ?_)
      unfold fetchedOf at hfe
      cases hd : decode (s.wordAt s.pc) imm with
      | some i =>
        rw [hd] at hfe
        cases hfe
      | none =>
        rw [hd] at hfe
        cases hfe
        exact hd

end Sys2Proof.Machine
end

