-- ==== Sys2Proof/Laws/PerInstr.lean ====
section
/-! SUPPORT. Laws stated per instruction. `Encoding`: the first word alone tells whether a trailing
word follows, and the encoder writes just as many words (30_encoding R117). -/

set_option Elab.async false

namespace Sys2Proof.Laws.Encoding

/-- The first word the encoder writes is long exactly when the encoder writes a second word, and it
never writes a third (30_encoding R110, R117). -/
def Statement (i : Instr) : Prop :=
  (encode i).head?.map Word.isLong = some (decide (i.words = 2)) ∧ (i.words = 1 ∨ i.words = 2)

theorem nop (x : BitVec 8) :
    Statement (.nop x) := by
  simp [Statement, encode, Instr.words, longOpcodes]

theorem halt (x : BitVec 8) :
    Statement (.halt x) := by
  simp [Statement, encode, Instr.words, longOpcodes]

theorem ret (x : BitVec 8) :
    Statement (.ret x) := by
  simp [Statement, encode, Instr.words, longOpcodes]

theorem syscall (n : BitVec 8) :
    Statement (.syscall n) := by
  simp [Statement, encode, Instr.words, longOpcodes]

theorem mov (ra rb : Reg) :
    Statement (.mov ra rb) := by
  simp [Statement, encode, Instr.words, longOpcodes]

theorem movi (ra : Reg) (k : BitVec 4) :
    Statement (.movi ra k) := by
  simp [Statement, encode, Instr.words, longOpcodes]

theorem movil (ra : Reg) (x : BitVec 4) (imm : Word) :
    Statement (.movil ra x imm) := by
  simp [Statement, encode, Instr.words, longOpcodes]

theorem movai (k : BitVec 8) :
    Statement (.movai k) := by
  simp [Statement, encode, Instr.words, longOpcodes]

theorem add (ra rb : Reg) :
    Statement (.add ra rb) := by
  simp [Statement, encode, Instr.words, longOpcodes]

theorem addi (ra : Reg) (u : BitVec 4) :
    Statement (.addi ra u) := by
  simp [Statement, encode, Instr.words, longOpcodes]

theorem addil (ra : Reg) (x : BitVec 4) (imm : Word) :
    Statement (.addil ra x imm) := by
  simp [Statement, encode, Instr.words, longOpcodes]

theorem sub (ra rb : Reg) :
    Statement (.sub ra rb) := by
  simp [Statement, encode, Instr.words, longOpcodes]

theorem subi (ra : Reg) (u : BitVec 4) :
    Statement (.subi ra u) := by
  simp [Statement, encode, Instr.words, longOpcodes]

theorem subil (ra : Reg) (x : BitVec 4) (imm : Word) :
    Statement (.subil ra x imm) := by
  simp [Statement, encode, Instr.words, longOpcodes]

theorem mul (ra rb : Reg) :
    Statement (.mul ra rb) := by
  simp [Statement, encode, Instr.words, longOpcodes]

theorem mulil (ra : Reg) (x : BitVec 4) (imm : Word) :
    Statement (.mulil ra x imm) := by
  simp [Statement, encode, Instr.words, longOpcodes]

theorem div (ra rb : Reg) :
    Statement (.div ra rb) := by
  simp [Statement, encode, Instr.words, longOpcodes]

theorem divil (ra : Reg) (x : BitVec 4) (imm : Word) :
    Statement (.divil ra x imm) := by
  simp [Statement, encode, Instr.words, longOpcodes]

theorem and (ra rb : Reg) :
    Statement (.and ra rb) := by
  simp [Statement, encode, Instr.words, longOpcodes]

theorem andil (ra : Reg) (x : BitVec 4) (imm : Word) :
    Statement (.andil ra x imm) := by
  simp [Statement, encode, Instr.words, longOpcodes]

theorem or (ra rb : Reg) :
    Statement (.or ra rb) := by
  simp [Statement, encode, Instr.words, longOpcodes]

theorem oril (ra : Reg) (x : BitVec 4) (imm : Word) :
    Statement (.oril ra x imm) := by
  simp [Statement, encode, Instr.words, longOpcodes]

theorem xor (ra rb : Reg) :
    Statement (.xor ra rb) := by
  simp [Statement, encode, Instr.words, longOpcodes]

theorem xoril (ra : Reg) (x : BitVec 4) (imm : Word) :
    Statement (.xoril ra x imm) := by
  simp [Statement, encode, Instr.words, longOpcodes]

theorem not (ra : Reg) (x : BitVec 4) :
    Statement (.not ra x) := by
  simp [Statement, encode, Instr.words, longOpcodes]

theorem shl (ra rb : Reg) :
    Statement (.shl ra rb) := by
  simp [Statement, encode, Instr.words, longOpcodes]

theorem shli (ra : Reg) (u : BitVec 4) :
    Statement (.shli ra u) := by
  simp [Statement, encode, Instr.words, longOpcodes]

theorem shr (ra rb : Reg) :
    Statement (.shr ra rb) := by
  simp [Statement, encode, Instr.words, longOpcodes]

theorem shri (ra : Reg) (u : BitVec 4) :
    Statement (.shri ra u) := by
  simp [Statement, encode, Instr.words, longOpcodes]

theorem rol (ra rb : Reg) :
    Statement (.rol ra rb) := by
  simp [Statement, encode, Instr.words, longOpcodes]

theorem roli (ra : Reg) (u : BitVec 4) :
    Statement (.roli ra u) := by
  simp [Statement, encode, Instr.words, longOpcodes]

theorem ror (ra rb : Reg) :
    Statement (.ror ra rb) := by
  simp [Statement, encode, Instr.words, longOpcodes]

theorem rori (ra : Reg) (u : BitVec 4) :
    Statement (.rori ra u) := by
  simp [Statement, encode, Instr.words, longOpcodes]

theorem rlc (ra rb : Reg) :
    Statement (.rlc ra rb) := by
  simp [Statement, encode, Instr.words, longOpcodes]

theorem rlci (ra : Reg) (u : BitVec 4) :
    Statement (.rlci ra u) := by
  simp [Statement, encode, Instr.words, longOpcodes]

theorem rrc (ra rb : Reg) :
    Statement (.rrc ra rb) := by
  simp [Statement, encode, Instr.words, longOpcodes]

theorem rrci (ra : Reg) (u : BitVec 4) :
    Statement (.rrci ra u) := by
  simp [Statement, encode, Instr.words, longOpcodes]

theorem bit (ra : Reg) (u : BitVec 4) :
    Statement (.bit ra u) := by
  simp [Statement, encode, Instr.words, longOpcodes]

theorem bset (ra : Reg) (u : BitVec 4) :
    Statement (.bset ra u) := by
  simp [Statement, encode, Instr.words, longOpcodes]

theorem bclr (ra : Reg) (u : BitVec 4) :
    Statement (.bclr ra u) := by
  simp [Statement, encode, Instr.words, longOpcodes]

theorem ld (ra rb : Reg) :
    Statement (.ld ra rb) := by
  simp [Statement, encode, Instr.words, longOpcodes]

theorem ldb (ra rb : Reg) :
    Statement (.ldb ra rb) := by
  simp [Statement, encode, Instr.words, longOpcodes]

theorem st (ra rb : Reg) :
    Statement (.st ra rb) := by
  simp [Statement, encode, Instr.words, longOpcodes]

theorem stb (ra rb : Reg) :
    Statement (.stb ra rb) := by
  simp [Statement, encode, Instr.words, longOpcodes]

theorem ldx (ra rb : Reg) (imm : Word) :
    Statement (.ldx ra rb imm) := by
  simp [Statement, encode, Instr.words, longOpcodes]

theorem ldbx (ra rb : Reg) (imm : Word) :
    Statement (.ldbx ra rb imm) := by
  simp [Statement, encode, Instr.words, longOpcodes]

theorem stx (ra rb : Reg) (imm : Word) :
    Statement (.stx ra rb imm) := by
  simp [Statement, encode, Instr.words, longOpcodes]

theorem stbx (ra rb : Reg) (imm : Word) :
    Statement (.stbx ra rb imm) := by
  simp [Statement, encode, Instr.words, longOpcodes]

theorem push (ra : Reg) (x : BitVec 4) :
    Statement (.push ra x) := by
  simp [Statement, encode, Instr.words, longOpcodes]

theorem pop (ra : Reg) (x : BitVec 4) :
    Statement (.pop ra x) := by
  simp [Statement, encode, Instr.words, longOpcodes]

theorem rpush (ra : Reg) (x : BitVec 4) :
    Statement (.rpush ra x) := by
  simp [Statement, encode, Instr.words, longOpcodes]

theorem rpop (ra : Reg) (x : BitVec 4) :
    Statement (.rpop ra x) := by
  simp [Statement, encode, Instr.words, longOpcodes]

theorem jp (cond : Cond) (x : BitVec 8) (imm : Word) :
    Statement (.jp cond x imm) := by
  simp [Statement, encode, Instr.words]

theorem jr (cond : Cond) (disp : BitVec 8) :
    Statement (.jr cond disp) := by
  simp [Statement, encode, Instr.words]

theorem jx (cond : Cond) (rx : Reg) (off : BitVec 4) :
    Statement (.jx cond rx off) := by
  simp [Statement, encode, Instr.words]

theorem jxl (cond : Cond) (rx : Reg) (x : BitVec 4) (imm : Word) :
    Statement (.jxl cond rx x imm) := by
  simp [Statement, encode, Instr.words]

theorem call (cond : Cond) (x : BitVec 8) (imm : Word) :
    Statement (.call cond x imm) := by
  simp [Statement, encode, Instr.words]

theorem callr (cond : Cond) (disp : BitVec 8) :
    Statement (.callr cond disp) := by
  simp [Statement, encode, Instr.words]

theorem callx (cond : Cond) (rx : Reg) (off : BitVec 4) :
    Statement (.callx cond rx off) := by
  simp [Statement, encode, Instr.words]

theorem callxl (cond : Cond) (rx : Reg) (x : BitVec 4) (imm : Word) :
    Statement (.callxl cond rx x imm) := by
  simp [Statement, encode, Instr.words]

end Sys2Proof.Laws.Encoding
end

