-- ==== Sys2Proof/Tests/Slice0.lean ====
section
/-! SUPPORT. Tests of the author's own: the well-formedness smoke test, a word of every constructor
written out from the bit patterns of opcode_table.json, single steps with the start and end the
vectors of 95_test_vectors give, and for every obligation with hypotheses a witness that meets them. -/

set_option Elab.async false

namespace Sys2Proof.Tests

open Sys2Proof.Machine

/-! ## Helpers -/

/-- Four flags from bits, in the order C, Z, S, O. -/
def fl (c z s o : Nat) : Flags := ⟨c == 1, z == 1, s == 1, o == 1⟩

/-- The start state of a vector (95_test_vectors section 0): configuration, address of the
instruction, its words, registers, flags and memory bytes; every other value 0, Running. -/
def load (cfg : Config) (pc : Word) (ws : List Word) (regs : List (Reg × Word)) (f : Flags)
    (bytes : List (Nat × Byte)) : State :=
  let s : State := { State.reset with cfg := cfg, flags := f }
  let s := regs.foldl (fun s p => s.setReg p.1 p.2) s
  let s := bytes.foldl (fun s p => s.setByteAt p.1 p.2) s
  let s := (ws.foldl (fun (p : Word × State) w => (p.1 + 2#16, placeWord p.2 p.1 w)) (pc, s)).2
  s.setPc pc

/-- The configurations the vectors name. -/
def std : Config := Config.standard
def small (size : Nat) : Config := { std with memSize := size }
def strict : Config := { std with alignPolicy := .fail }
def strictIllegal : Config := { std with illegalPolicy := .fault }
def otherMask : Config := { std with oMask := .from16 }
def withH1 : Config := { std with handlers := [(1#8, .script [.dpush 0x0041#16])] }

/-- The step goes on Running with the listed registers, these flags and the listed bytes. -/
def gives (o : Host.Outcome State Fault Refusal) (regs : List (Reg × Word)) (f : Flags)
    (bytes : List (Nat × Byte)) : Bool :=
  match o with
  | .next t => t.run == .running && regs.all (fun p => t.reg p.1 == p.2) && t.flags == f
      && bytes.all (fun p => t.byteAt p.1 == p.2)
  | .fault _ => false
  | .refused _ => false

/-- The step enters Faulted with this record, fpc and pc both `pc`. -/
def faults (o : Host.Outcome State Fault Refusal) (code info : Nat) (pc : Word) : Bool :=
  match o with
  | .next t => t.run == .faulted && t.fcause.toNat == code && t.finfo.toNat == info
      && t.fpc == pc && t.pc == pc
  | .fault _ => false
  | .refused _ => false

/-- A field of the next state. -/
def see {α : Type} (f : State → α) (o : Host.Outcome State Fault Refusal) : Option α :=
  match o with
  | .next t => some (f t)
  | .fault _ => none
  | .refused _ => none

/-! ## Well-formedness -/

/-- An ill-formed term for each check, and a well-formed neighbour (30_encoding R121, R132). -/
theorem test_wf_refuses :
    [Instr.nop 1, .halt 1, .ret 1, .movil 0 1 0, .addil 0 1 0, .subil 0 1 0, .mulil 0 1 0,
      .divil 0 1 0, .andil 0 1 0, .oril 0 1 0, .xoril 0 1 0, .not 0 1, .push 0 1, .pop 0 1,
      .rpush 0 1, .rpop 0 1, .jp Cond.always 1 0, .call Cond.always 1 0,
      .jp ⟨false, true, .c⟩ 0 0, .call ⟨false, false, .z⟩ 0 0, .jr ⟨false, true, .c⟩ 0,
      .callr ⟨false, false, .o⟩ 0, .jx ⟨false, true, .c⟩ 0 0, .callx ⟨false, true, .c⟩ 0 0,
      .jxl ⟨false, false, .s⟩ 0 0 0, .callxl ⟨false, true, .c⟩ 0 0 0, .jxl Cond.always 0 1 0,
      .callxl Cond.always 0 1 0].all (fun i => !i.wf) = true := by decide

theorem test_wf_accepts :
    [Instr.nop 0, .movil 3 0 7, .push 13 0, .jp (Cond.suffix true .z) 0 5, .jr Cond.always 4,
      .callxl (Cond.suffix false .c) 1 0 0x200, .syscall 255, .add 1 2].all Instr.wf = true := by
  decide

/-! ## Decoding: a word of every constructor, from the bit patterns of opcode_table.json

Register a is 0101, register b and every short immediate 1010, an ignored field 1001 (or 10010110),
an 8-bit immediate 10110001, the trailing word 1000000000000001; of a condition, CE = 1, INV = 1,
CC = 10. -/


theorem test_decode_system :
    decode 0b0000000010010110#16 0b1000000000000001#16 = some (.nop 0b10010110)
    ∧ decode 0b0000000110010110#16 0b1000000000000001#16 = some (.halt 0b10010110)
    ∧ decode 0b0000001010010110#16 0b1000000000000001#16 = some (.ret 0b10010110)
    ∧ decode 0b0000001110110001#16 0b1000000000000001#16 = some (.syscall 0b10110001) := by decide

theorem test_decode_moves :
    decode 0b0000100001011010#16 0b1000000000000001#16 = some (.mov 5 10)
    ∧ decode 0b0000100101011010#16 0b1000000000000001#16 = some (.movi 5 0b1010)
    ∧ decode 0b0000101001011001#16 0b1000000000000001#16 = some (.movil 5 0b1001 0x8001)
    ∧ decode 0b0000101110110001#16 0b1000000000000001#16 = some (.movai 0b10110001) := by decide

theorem test_decode_arithmetic :
    decode 0b0001000001011010#16 0b1000000000000001#16 = some (.add 5 10)
    ∧ decode 0b0001000101011010#16 0b1000000000000001#16 = some (.addi 5 0b1010)
    ∧ decode 0b0001001001011001#16 0b1000000000000001#16 = some (.addil 5 0b1001 0x8001)
    ∧ decode 0b0001010001011010#16 0b1000000000000001#16 = some (.sub 5 10)
    ∧ decode 0b0001010101011010#16 0b1000000000000001#16 = some (.subi 5 0b1010)
    ∧ decode 0b0001011001011001#16 0b1000000000000001#16 = some (.subil 5 0b1001 0x8001)
    ∧ decode 0b0001100001011010#16 0b1000000000000001#16 = some (.mul 5 10)
    ∧ decode 0b0001101001011001#16 0b1000000000000001#16 = some (.mulil 5 0b1001 0x8001)
    ∧ decode 0b0001110001011010#16 0b1000000000000001#16 = some (.div 5 10)
    ∧ decode 0b0001111001011001#16 0b1000000000000001#16 = some (.divil 5 0b1001 0x8001) := by decide

theorem test_decode_boolean :
    decode 0b0010000001011010#16 0b1000000000000001#16 = some (.and 5 10)
    ∧ decode 0b0010001001011001#16 0b1000000000000001#16 = some (.andil 5 0b1001 0x8001)
    ∧ decode 0b0010010001011010#16 0b1000000000000001#16 = some (.or 5 10)
    ∧ decode 0b0010011001011001#16 0b1000000000000001#16 = some (.oril 5 0b1001 0x8001)
    ∧ decode 0b0010100001011010#16 0b1000000000000001#16 = some (.xor 5 10)
    ∧ decode 0b0010101001011001#16 0b1000000000000001#16 = some (.xoril 5 0b1001 0x8001)
    ∧ decode 0b0010110001011001#16 0b1000000000000001#16 = some (.not 5 0b1001) := by decide

theorem test_decode_shift :
    decode 0b0011000001011010#16 0b1000000000000001#16 = some (.shl 5 10)
    ∧ decode 0b0011000101011010#16 0b1000000000000001#16 = some (.shli 5 0b1010)
    ∧ decode 0b0011001001011010#16 0b1000000000000001#16 = some (.shr 5 10)
    ∧ decode 0b0011001101011010#16 0b1000000000000001#16 = some (.shri 5 0b1010)
    ∧ decode 0b0011010001011010#16 0b1000000000000001#16 = some (.rol 5 10)
    ∧ decode 0b0011010101011010#16 0b1000000000000001#16 = some (.roli 5 0b1010)
    ∧ decode 0b0011011001011010#16 0b1000000000000001#16 = some (.ror 5 10)
    ∧ decode 0b0011011101011010#16 0b1000000000000001#16 = some (.rori 5 0b1010)
    ∧ decode 0b0011100001011010#16 0b1000000000000001#16 = some (.rlc 5 10)
    ∧ decode 0b0011100101011010#16 0b1000000000000001#16 = some (.rlci 5 0b1010)
    ∧ decode 0b0011101001011010#16 0b1000000000000001#16 = some (.rrc 5 10)
    ∧ decode 0b0011101101011010#16 0b1000000000000001#16 = some (.rrci 5 0b1010) := by decide

theorem test_decode_bit_ops :
    decode 0b0100000001011010#16 0b1000000000000001#16 = some (.bit 5 0b1010)
    ∧ decode 0b0100000101011010#16 0b1000000000000001#16 = some (.bset 5 0b1010)
    ∧ decode 0b0100001001011010#16 0b1000000000000001#16 = some (.bclr 5 0b1010) := by decide

theorem test_decode_load_store :
    decode 0b0100100001011010#16 0b1000000000000001#16 = some (.ld 5 10)
    ∧ decode 0b0100100101011010#16 0b1000000000000001#16 = some (.ldb 5 10)
    ∧ decode 0b0100101001011010#16 0b1000000000000001#16 = some (.st 5 10)
    ∧ decode 0b0100101101011010#16 0b1000000000000001#16 = some (.stb 5 10)
    ∧ decode 0b0100110001011010#16 0b1000000000000001#16 = some (.ldx 5 10 0x8001)
    ∧ decode 0b0100110101011010#16 0b1000000000000001#16 = some (.ldbx 5 10 0x8001)
    ∧ decode 0b0100111001011010#16 0b1000000000000001#16 = some (.stx 5 10 0x8001)
    ∧ decode 0b0100111101011010#16 0b1000000000000001#16 = some (.stbx 5 10 0x8001) := by decide

theorem test_decode_stack :
    decode 0b0101000001011001#16 0b1000000000000001#16 = some (.push 5 0b1001)
    ∧ decode 0b0101000101011001#16 0b1000000000000001#16 = some (.pop 5 0b1001)
    ∧ decode 0b0101001001011001#16 0b1000000000000001#16 = some (.rpush 5 0b1001)
    ∧ decode 0b0101001101011001#16 0b1000000000000001#16 = some (.rpop 5 0b1001) := by decide

theorem test_decode_control :
    decode 0b1011100010010110#16 0b1000000000000001#16 = some (.jp ⟨true, true, .o⟩ 0b10010110 0x8001)
    ∧ decode 0b1011100110110001#16 0b1000000000000001#16 = some (.jr ⟨true, true, .o⟩ 0b10110001)
    ∧ decode 0b1011101001011010#16 0b1000000000000001#16 = some (.jx ⟨true, true, .o⟩ 5 0b1010)
    ∧ decode 0b1011101101011001#16 0b1000000000000001#16 = some (.jxl ⟨true, true, .o⟩ 5 0b1001 0x8001)
    ∧ decode 0b1111100010010110#16 0b1000000000000001#16 = some (.call ⟨true, true, .o⟩ 0b10010110 0x8001)
    ∧ decode 0b1111100110110001#16 0b1000000000000001#16 = some (.callr ⟨true, true, .o⟩ 0b10110001)
    ∧ decode 0b1111101001011010#16 0b1000000000000001#16 = some (.callx ⟨true, true, .o⟩ 5 0b1010)
    ∧ decode 0b1111101101011001#16 0b1000000000000001#16 = some (.callxl ⟨true, true, .o⟩ 5 0b1001 0x8001) := by decide

/-- Words of the other condition codes and of no condition (30_encoding R113, R132). -/
theorem test_decode_conditions :
    [0b1000000000000000#16, 0b1010000000000000#16, 0b1011000000000000#16, 0b1010010000000000#16,
      0b1011010000000000#16, 0b1010100000000000#16, 0b1011100000000000#16, 0b1010110000000000#16,
      0b1011110000000000#16].map Word.cond
    = [Cond.always, .suffix false .c, .suffix true .c, .suffix false .z, .suffix true .z,
      .suffix false .o, .suffix true .o, .suffix false .s, .suffix true .s] := by decide

/-- V6: the words emitted at both ends of each range, and no byte one past either end
(30_encoding R135). -/
theorem test_range_boundaries :
    (Instr.movi 0 0).emitWith (-8) = [0x08#8, 0x09#8] ∧ (Instr.movi 0 0).emitWith 7 = [0x07#8, 0x09#8]
    ∧ (Instr.movi 0 0).emitWith (-9) = [] ∧ (Instr.movi 0 0).emitWith 8 = []
    ∧ (Instr.movai 0).emitWith (-128) = [0x80#8, 0x0B#8]
    ∧ (Instr.movai 0).emitWith 127 = [0x7F#8, 0x0B#8]
    ∧ (Instr.movai 0).emitWith (-129) = [] ∧ (Instr.movai 0).emitWith 128 = []
    ∧ (Instr.addi 0 0).emitWith 0 = [0x00#8, 0x11#8] ∧ (Instr.addi 0 0).emitWith 15 = [0x0F#8, 0x11#8]
    ∧ (Instr.addi 0 0).emitWith (-1) = [] ∧ (Instr.addi 0 0).emitWith 16 = []
    ∧ (Instr.syscall 0).emitWith 0 = [0x00#8, 0x03#8]
    ∧ (Instr.syscall 0).emitWith 255 = [0xFF#8, 0x03#8]
    ∧ (Instr.syscall 0).emitWith (-1) = [] ∧ (Instr.syscall 0).emitWith 256 = []
    ∧ (Instr.movil 0 0 0).emitWith (-32768) = [0x00#8, 0x0A#8, 0x00#8, 0x80#8]
    ∧ (Instr.movil 0 0 0).emitWith 65535 = [0x00#8, 0x0A#8, 0xFF#8, 0xFF#8]
    ∧ (Instr.movil 0 0 0).emitWith (-32769) = [] ∧ (Instr.movil 0 0 0).emitWith 65536 = [] := by decide

theorem test_relative_displacement :
    relativeDisp 0x002A 0x0020 = some 4 ∧ encode (.jr Cond.always 4) = [0x8104#16]
    ∧ encode (.callr Cond.always 4) = [0xC104#16] := by decide

/-- Bytes are read low byte first, and a table row's word as the host numbers it
(30_encoding R110, R138). -/
theorem test_decode_bytes :
    decodeBytes [0xD0#8, 0x0A#8, 0xFE#8, 0x01#8, 0x77#8] = .ok (.movil 13 0 0x01FE, [0x77#8])
    ∧ decodeBytes [0x12#8, 0x7F#8] = .error (.illegal 0x7F12)
    ∧ decodeBytes [0x00#8, 0x80#8, 0x40#8] = .error .truncated
    ∧ decodeTableWord 16 0x4C01 = some (.ldx 0 1 0)
    ∧ decodeTableWord 32 0x01FE0AD0 = some (.movil 13 0 0x01FE) := by
  refine ⟨rfl, rfl, rfl, rfl, rfl⟩

/-- The first step after reset runs the placed instruction. -/
theorem test_withFetchWord :
    step (State.reset.withFetchWord 32 0x01FE0AD0)
      = exec (.movil 13 0 0x01FE) (State.reset.withFetchWord 32 0x01FE0AD0)
    ∧ step (State.reset.withFetchWord 16 0x0301)
      = exec (.syscall 1) (State.reset.withFetchWord 16 0x0301) := ⟨rfl, rfl⟩

/-! ## Single steps: vectors of 95_test_vectors -/

/-- T3, `MOV R0, PC`. -/
theorem test_T3_mov :
    gives (step (load std 0x0040 [0x080F]
      [] (fl 0 0 0 0) []))
      [(0, 0x0042), (15, 0x0042)] (fl 0 0 0 0) [] = true := by decide

/-- T4, `MOV PC, R1`. -/
theorem test_T4_mov :
    gives (step (load std 0x0000 [0x08F1]
      [(1, 0x0300)] (fl 0 0 0 0) []))
      [(15, 0x0300)] (fl 0 0 0 0) [] = true := by decide

/-- T5, `MOVI R2, -3`. -/
theorem test_T5_movi :
    gives (step (load std 0x0000 [0x092D]
      [] (fl 0 0 0 0) []))
      [(2, 0xFFFD), (15, 0x0002)] (fl 0 0 0 0) [] = true := by decide

/-- T6, `MOVI R0, -8`. -/
theorem test_T6_movi :
    gives (step (load std 0x0000 [0x0908]
      [] (fl 0 0 0 0) []))
      [(0, 0xFFF8), (15, 0x0002)] (fl 0 0 0 0) [] = true := by decide

/-- T8, `MOVIL SP, 0x01FE`. -/
theorem test_T8_movil :
    gives (step (load std 0x0000 [0x0AD0, 0x01FE]
      [] (fl 0 0 0 0) []))
      [(13, 0x01FE), (15, 0x0004)] (fl 0 0 0 0) [] = true := by decide

/-- T9, `MOVIL PC, 0x0123`. -/
theorem test_T9_movil :
    gives (step (load std 0x0000 [0x0AF0, 0x0123]
      [] (fl 0 0 0 0) []))
      [(15, 0x0123)] (fl 0 0 0 0) [] = true := by decide

/-- T10, `MOVAI -128`. -/
theorem test_T10_movai :
    gives (step (load std 0x0000 [0x0B80]
      [] (fl 0 0 0 0) []))
      [(8, 0xFF80), (15, 0x0002)] (fl 0 0 0 0) [] = true := by decide

/-- T11, `MOVAI 127`. -/
theorem test_T11_movai :
    gives (step (load std 0x0000 [0x0B7F]
      [] (fl 0 0 0 0) []))
      [(8, 0x007F), (15, 0x0002)] (fl 0 0 0 0) [] = true := by decide

/-- T20, `ADD R0, R1`. -/
theorem test_T20_add :
    gives (step (load std 0x0000 [0x1001]
      [(0, 0x8000), (1, 0x8000)] (fl 0 0 0 0) []))
      [(0, 0x0000), (15, 0x0002)] (fl 1 1 0 0) [] = true := by decide

/-- T45, `ADD R0, R1`. -/
theorem test_T45_add :
    gives (step (load otherMask 0x0000 [0x1001]
      [(0, 0x8000), (1, 0x8000)] (fl 0 0 0 0) []))
      [(0, 0x0000), (15, 0x0002)] (fl 1 1 0 1) [] = true := by decide

/-- T24, `ADDI R0, 0`. -/
theorem test_T24_addi :
    gives (step (load std 0x0000 [0x1100]
      [(0, 0x0000)] (fl 1 0 0 1) []))
      [(15, 0x0002)] (fl 0 1 0 0) [] = true := by decide

/-- T25, `ADDI R0, 15`. -/
theorem test_T25_addi :
    gives (step (load std 0x0000 [0x110F]
      [(0, 0xFFF1)] (fl 0 0 0 0) []))
      [(0, 0x0000), (15, 0x0002)] (fl 1 1 0 0) [] = true := by decide

/-- T26, `ADDIL R3, -1`. -/
theorem test_T26_addil :
    gives (step (load std 0x0000 [0x1230, 0xFFFF]
      [(3, 0x0000)] (fl 0 0 0 0) []))
      [(3, 0xFFFF), (15, 0x0004)] (fl 0 0 1 0) [] = true := by decide

/-- T27, `ADDIL R3, -1`. -/
theorem test_T27_addil :
    gives (step (load std 0x0000 [0x1230, 0xFFFF]
      [(3, 0x0005)] (fl 0 0 0 0) []))
      [(3, 0x0004), (15, 0x0004)] (fl 1 0 0 0) [] = true := by decide

/-- T28, `SUB R0, R1`. -/
theorem test_T28_sub :
    gives (step (load std 0x0000 [0x1401]
      [(0, 0x0003), (1, 0x0005)] (fl 0 0 0 0) []))
      [(0, 0xFFFE), (15, 0x0002)] (fl 1 0 1 1) [] = true := by decide

/-- T30, `SUB R0, R1`. -/
theorem test_T30_sub :
    gives (step (load std 0x0000 [0x1401]
      [(0, 0x8000), (1, 0x0001)] (fl 0 0 0 0) []))
      [(0, 0x7FFF), (15, 0x0002)] (fl 0 0 0 0) [] = true := by decide

/-- T31, `SUBI R1, 1`. -/
theorem test_T31_subi :
    gives (step (load std 0x0000 [0x1511]
      [(1, 0x0000)] (fl 0 0 0 0) []))
      [(1, 0xFFFF), (15, 0x0002)] (fl 1 0 1 1) [] = true := by decide

/-- T32, `SUBIL R2, 0`. -/
theorem test_T32_subil :
    gives (step (load std 0x0000 [0x1620, 0x0000]
      [(2, 0x8000)] (fl 0 0 0 0) []))
      [(15, 0x0004)] (fl 0 0 1 0) [] = true := by decide

/-- T34, `MUL R0, R1`. -/
theorem test_T34_mul :
    gives (step (load std 0x0000 [0x1801]
      [(0, 0x0200), (1, 0x0100)] (fl 0 0 0 0) []))
      [(0, 0x0000), (15, 0x0002)] (fl 0 1 0 1) [] = true := by decide

/-- T35, `MUL R0, R1`. -/
theorem test_T35_mul :
    gives (step (load std 0x0000 [0x1801]
      [(0, 0xFFFF), (1, 0xFFFF)] (fl 0 0 0 0) []))
      [(0, 0x0001), (15, 0x0002)] (fl 0 0 0 1) [] = true := by decide

/-- T37, `MULIL R0, -1`. -/
theorem test_T37_mulil :
    gives (step (load std 0x0000 [0x1A00, 0xFFFF]
      [(0, 0x0002)] (fl 0 0 0 0) []))
      [(0, 0xFFFE), (15, 0x0004)] (fl 1 0 1 0) [] = true := by decide

/-- T38, `DIV R0, R1`. -/
theorem test_T38_div :
    gives (step (load std 0x0000 [0x1C01]
      [(0, 0x0064), (1, 0x0007)] (fl 0 0 0 0) []))
      [(0, 0x000E), (15, 0x0002)] (fl 0 0 0 0) [] = true := by decide

/-- T41, `DIV R0, R1`. -/
theorem test_T41_div :
    faults (step (load std 0x0010 [0x1C01]
      [(0, 0x0005), (1, 0x0000)] (fl 0 0 0 0) []))
      3 0x1C01 0x0010 = true := by decide

/-- T43, `DIVIL R0, 0`. -/
theorem test_T43_divil :
    faults (step (load std 0x0000 [0x1E00, 0x0000]
      [(0, 0x0005)] (fl 0 0 0 0) []))
      3 0x1E00 0x0000 = true := by decide

/-- T44, `DIVIL R0, -1`. -/
theorem test_T44_divil :
    gives (step (load std 0x0000 [0x1E00, 0xFFFF]
      [(0, 0xFFFF)] (fl 0 0 0 0) []))
      [(0, 0x0001), (15, 0x0004)] (fl 0 0 0 0) [] = true := by decide

/-- T50, `AND R0, R1`. -/
theorem test_T50_and :
    gives (step (load std 0x0000 [0x2001]
      [(0, 0x0F0F), (1, 0x00FF)] (fl 1 0 0 0) []))
      [(0, 0x000F), (15, 0x0002)] (fl 1 0 0 1) [] = true := by decide

/-- T51, `AND R0, R1`. -/
theorem test_T51_and :
    gives (step (load std 0x0000 [0x2001]
      [(0, 0xF0F0), (1, 0x0F0F)] (fl 0 0 0 0) []))
      [(0, 0x0000), (15, 0x0002)] (fl 0 1 0 0) [] = true := by decide

/-- T52, `ANDIL R4, 0xFF00`. -/
theorem test_T52_andil :
    gives (step (load std 0x0000 [0x2240, 0xFF00]
      [(4, 0xABCD)] (fl 0 0 0 0) []))
      [(4, 0xAB00), (15, 0x0004)] (fl 0 0 1 0) [] = true := by decide

/-- T53, `OR R0, R1`. -/
theorem test_T53_or :
    gives (step (load std 0x0000 [0x2401]
      [(0, 0x1200), (1, 0x0034)] (fl 0 0 0 0) []))
      [(0, 0x1234), (15, 0x0002)] (fl 0 0 0 0) [] = true := by decide

/-- T54, `ORIL R0, 0x8001`. -/
theorem test_T54_oril :
    gives (step (load std 0x0000 [0x2600, 0x8001]
      [(0, 0x0000)] (fl 0 0 0 0) []))
      [(0, 0x8001), (15, 0x0004)] (fl 0 0 1 1) [] = true := by decide

/-- T55, `XOR R0, R0`. -/
theorem test_T55_xor :
    gives (step (load std 0x0000 [0x2800]
      [(0, 0x5555)] (fl 1 0 1 1) []))
      [(0, 0x0000), (15, 0x0002)] (fl 1 1 0 0) [] = true := by decide

/-- T56, `XORIL R1, 0x1234`. -/
theorem test_T56_xoril :
    gives (step (load std 0x0000 [0x2A10, 0x1234]
      [(1, 0x1234)] (fl 0 0 0 0) []))
      [(1, 0x0000), (15, 0x0004)] (fl 0 1 0 0) [] = true := by decide

/-- T57, `NOT R0`. -/
theorem test_T57_not :
    gives (step (load std 0x0000 [0x2C00]
      [(0, 0x0000)] (fl 0 0 0 0) []))
      [(0, 0xFFFF), (15, 0x0002)] (fl 0 0 1 1) [] = true := by decide

/-- T58, `NOT R0`. -/
theorem test_T58_not :
    gives (step (load std 0x0000 [0x2C00]
      [(0, 0xFFFF)] (fl 0 0 0 0) []))
      [(0, 0x0000), (15, 0x0002)] (fl 0 1 0 0) [] = true := by decide

/-- T61, `SHL R0, R1`. -/
theorem test_T61_shl :
    gives (step (load std 0x0000 [0x3001]
      [(0, 0x8001), (1, 0x0010)] (fl 1 0 0 0) []))
      [(15, 0x0002)] (fl 1 0 1 0) [] = true := by decide

/-- T77, `SHL R1, R1`. -/
theorem test_T77_shl :
    gives (step (load std 0x0000 [0x3011]
      [(1, 0x0004)] (fl 0 0 0 0) []))
      [(1, 0x0040), (15, 0x0002)] (fl 0 0 0 0) [] = true := by decide

/-- T63, `SHLI R0, 15`. -/
theorem test_T63_shli :
    gives (step (load std 0x0000 [0x310F]
      [(0, 0x0003)] (fl 0 0 0 0) []))
      [(0, 0x8000), (15, 0x0002)] (fl 1 0 1 0) [] = true := by decide

/-- T64, `SHLI R0, 0`. -/
theorem test_T64_shli :
    gives (step (load std 0x0000 [0x3100]
      [(0, 0x0000)] (fl 1 0 0 0) []))
      [(15, 0x0002)] (fl 1 1 0 0) [] = true := by decide

/-- T65, `SHR R0, R1`. -/
theorem test_T65_shr :
    gives (step (load std 0x0000 [0x3201]
      [(0, 0x0001), (1, 0x0001)] (fl 0 0 0 0) []))
      [(0, 0x0000), (15, 0x0002)] (fl 1 1 0 0) [] = true := by decide

/-- T66, `SHRI R0, 15`. -/
theorem test_T66_shri :
    gives (step (load std 0x0000 [0x330F]
      [(0, 0xC000)] (fl 0 0 0 0) []))
      [(0, 0x0001), (15, 0x0002)] (fl 1 0 0 0) [] = true := by decide

/-- T67, `ROL R0, R1`. -/
theorem test_T67_rol :
    gives (step (load std 0x0000 [0x3401]
      [(0, 0x8001), (1, 0x0001)] (fl 0 0 0 0) []))
      [(0, 0x0003), (15, 0x0002)] (fl 1 0 0 0) [] = true := by decide

/-- T68, `ROLI R0, 8`. -/
theorem test_T68_roli :
    gives (step (load std 0x0000 [0x3508]
      [(0, 0x12F4)] (fl 0 0 0 0) []))
      [(0, 0xF412), (15, 0x0002)] (fl 0 0 1 0) [] = true := by decide

/-- T69, `ROR R0, R1`. -/
theorem test_T69_ror :
    gives (step (load std 0x0000 [0x3601]
      [(0, 0x8001), (1, 0x0001)] (fl 0 0 0 0) []))
      [(0, 0xC000), (15, 0x0002)] (fl 1 0 1 0) [] = true := by decide

/-- T70, `RORI R0, 1`. -/
theorem test_T70_rori :
    gives (step (load std 0x0000 [0x3701]
      [(0, 0x0002)] (fl 0 0 0 0) []))
      [(0, 0x0001), (15, 0x0002)] (fl 0 0 0 0) [] = true := by decide

/-- T71, `RLC R0, R1`. -/
theorem test_T71_rlc :
    gives (step (load std 0x0000 [0x3801]
      [(0, 0x8000), (1, 0x0001)] (fl 0 0 0 0) []))
      [(0, 0x0000), (15, 0x0002)] (fl 1 1 0 0) [] = true := by decide

/-- T72, `RLC R0, R1`. -/
theorem test_T72_rlc :
    gives (step (load std 0x0000 [0x3801]
      [(0, 0x0000), (1, 0x0001)] (fl 1 0 0 0) []))
      [(0, 0x0001), (15, 0x0002)] (fl 0 0 0 0) [] = true := by decide

/-- T73, `RLCI R0, 15`. -/
theorem test_T73_rlci :
    gives (step (load std 0x0000 [0x390F]
      [(0, 0x0001)] (fl 0 0 0 0) []))
      [(0, 0x8000), (15, 0x0002)] (fl 0 0 1 0) [] = true := by decide

/-- T74, `RRC R0, R1`. -/
theorem test_T74_rrc :
    gives (step (load std 0x0000 [0x3A01]
      [(0, 0x0001), (1, 0x0001)] (fl 1 0 0 0) []))
      [(0, 0x8000), (15, 0x0002)] (fl 1 0 1 0) [] = true := by decide

/-- T75, `RRCI R0, 1`. -/
theorem test_T75_rrci :
    gives (step (load std 0x0000 [0x3B01]
      [(0, 0x0001)] (fl 0 0 0 0) []))
      [(0, 0x0000), (15, 0x0002)] (fl 1 1 0 0) [] = true := by decide

/-- T76, `RRCI R0, 0`. -/
theorem test_T76_rrci :
    gives (step (load std 0x0000 [0x3B00]
      [(0, 0x8000)] (fl 1 0 0 0) []))
      [(15, 0x0002)] (fl 1 0 1 0) [] = true := by decide

/-- T80, `BIT R0, 2`. -/
theorem test_T80_bit :
    gives (step (load std 0x0000 [0x4002]
      [(0, 0x0004)] (fl 0 0 0 0) []))
      [(15, 0x0002)] (fl 0 0 0 0) [] = true := by decide

/-- T81, `BIT R0, 3`. -/
theorem test_T81_bit :
    gives (step (load std 0x0000 [0x4003]
      [(0, 0x0004)] (fl 1 0 0 0) []))
      [(15, 0x0002)] (fl 1 1 0 0) [] = true := by decide

/-- T82, `BSET R1, 15`. -/
theorem test_T82_bset :
    gives (step (load std 0x0000 [0x411F]
      [(1, 0x0000)] (fl 0 0 0 0) []))
      [(1, 0x8000), (15, 0x0002)] (fl 0 0 0 0) [] = true := by decide

/-- T84, `BSET PC, 0`. -/
theorem test_T84_bset :
    gives (step (load std 0x0010 [0x41F0]
      [] (fl 0 0 0 0) []))
      [(15, 0x0013)] (fl 0 0 0 0) [] = true := by decide

/-- T83, `BCLR R1, 0`. -/
theorem test_T83_bclr :
    gives (step (load std 0x0000 [0x4210]
      [(1, 0xFFFF)] (fl 0 0 0 0) []))
      [(1, 0xFFFE), (15, 0x0002)] (fl 0 0 0 0) [] = true := by decide

/-- T101, `LD R0, R1`. -/
theorem test_T101_ld :
    faults (step (load strict 0x0000 [0x4801]
      [(1, 0x0101)] (fl 0 0 0 0) [(0x0100, 0x34), (0x0101, 0x12)]))
      2 0x101 0x0000 = true := by decide

/-- T102, `LD R0, R1`. -/
theorem test_T102_ld :
    faults (step (load std 0x0000 [0x4801]
      [(1, 0xFFFF)] (fl 0 0 0 0) []))
      1 0x10000 0x0000 = true := by decide

/-- T92, `LDB R0, R1`. -/
theorem test_T92_ldb :
    gives (step (load std 0x0000 [0x4901]
      [(1, 0x0100)] (fl 0 0 0 0) [(0x0100, 0x80)]))
      [(0, 0x0080), (15, 0x0002)] (fl 0 0 0 0) [] = true := by decide

/-- T93, `ST R0, R1`. -/
theorem test_T93_st :
    gives (step (load std 0x0000 [0x4A01]
      [(0, 0x0200), (1, 0xBEEF)] (fl 0 0 0 0) []))
      [(15, 0x0002)] (fl 0 0 0 0) [(0x0200, 0xEF), (0x0201, 0xBE)] = true := by decide

/-- T103, `ST R0, R1`. -/
theorem test_T103_st :
    faults (step (load (small 0x100) 0x0000 [0x4A01]
      [(0, 0x0100), (1, 0x1234)] (fl 0 0 0 0) []))
      1 0x100 0x0000 = true := by decide

/-- T94, `STB R0, R1`. -/
theorem test_T94_stb :
    gives (step (load std 0x0000 [0x4B01]
      [(0, 0x0201), (1, 0x1234)] (fl 0 0 0 0) []))
      [(15, 0x0002)] (fl 0 0 0 0) [(0x0201, 0x34)] = true := by decide

/-- T96, `LDX R0, R1, 4`. -/
theorem test_T96_ldx :
    gives (step (load std 0x0010 [0x4C01, 0x0004]
      [(1, 0xFFFE)] (fl 0 0 0 0) [(0x0002, 0x78), (0x0003, 0x56)]))
      [(0, 0x5678), (15, 0x0014)] (fl 0 0 0 0) [] = true := by decide

/-- T97, `LDBX R0, R1, -1`. -/
theorem test_T97_ldbx :
    gives (step (load std 0x0000 [0x4D01, 0xFFFF]
      [(1, 0x0102)] (fl 0 0 0 0) [(0x0100, 0x34), (0x0101, 0x12)]))
      [(0, 0x0012), (15, 0x0004)] (fl 0 0 0 0) [] = true := by decide

/-- T98, `STX R0, R1, 0x10`. -/
theorem test_T98_stx :
    gives (step (load std 0x0000 [0x4E01, 0x0010]
      [(0, 0x0200), (1, 0xBEEF)] (fl 0 0 0 0) []))
      [(15, 0x0004)] (fl 0 0 0 0) [(0x0210, 0xEF), (0x0211, 0xBE)] = true := by decide

/-- T99, `STBX R0, R1, 3`. -/
theorem test_T99_stbx :
    gives (step (load std 0x0000 [0x4F01, 0x0003]
      [(0, 0x0200), (1, 0x00AA)] (fl 0 0 0 0) []))
      [(15, 0x0004)] (fl 0 0 0 0) [(0x0203, 0xAA)] = true := by decide

/-- T112, `PUSH SP`. -/
theorem test_T112_push :
    gives (step (load std 0x0000 [0x50D0]
      [(13, 0x01FE)] (fl 0 0 0 0) []))
      [(13, 0x01FC), (15, 0x0002)] (fl 0 0 0 0) [(0x01FE, 0xFE), (0x01FF, 0x01)] = true := by decide

/-- T115, `PUSH R0`. -/
theorem test_T115_push :
    faults (step (load strict 0x0010 [0x5000]
      [(13, 0x0101), (0, 0xABCD)] (fl 0 0 0 0) []))
      2 0x101 0x0010 = true := by decide

/-- T113, `POP SP`. -/
theorem test_T113_pop :
    gives (step (load std 0x0000 [0x51D0]
      [(13, 0x01FC)] (fl 0 0 0 0) [(0x01FE, 0x00), (0x01FF, 0x03)]))
      [(13, 0x0300), (15, 0x0002)] (fl 0 0 0 0) [] = true := by decide

/-- T118, `POP R0`. -/
theorem test_T118_pop :
    faults (step (load (small 0x100) 0x0000 [0x5100]
      [(13, 0x00FE)] (fl 0 0 0 0) []))
      1 0x100 0x0000 = true := by decide

/-- T116, `RPUSH IP`. -/
theorem test_T116_rpush :
    gives (step (load std 0x0000 [0x52A0]
      [(14, 0x02FE), (10, 0x0040)] (fl 0 0 0 0) []))
      [(14, 0x02FC), (15, 0x0002)] (fl 0 0 0 0) [(0x02FE, 0x40)] = true := by decide

/-- T117, `RPOP IP`. -/
theorem test_T117_rpop :
    gives (step (load std 0x0000 [0x53A0]
      [(14, 0x02FC)] (fl 0 0 0 0) [(0x02FE, 0x40), (0x02FF, 0x00)]))
      [(14, 0x02FE), (10, 0x0040), (15, 0x0002)] (fl 0 0 0 0) [] = true := by decide

/-- T121, `JP[C] 0x0040`. -/
theorem test_T121_jp :
    gives (step (load std 0x0010 [0xA000, 0x0040]
      [] (fl 0 0 0 0) []))
      [(15, 0x0014)] (fl 0 0 0 0) [] = true := by decide

/-- T123, `JP[NC] 0x0040`. -/
theorem test_T123_jp :
    gives (step (load std 0x0010 [0xB000, 0x0040]
      [] (fl 0 0 0 0) []))
      [(15, 0x0040)] (fl 0 0 0 0) [] = true := by decide

/-- T127, `JR 0xFF82 (disp -128)`. -/
theorem test_T127_jr :
    gives (step (load std 0x0080 [0x8180]
      [] (fl 0 0 0 0) []))
      [(15, 0xFF82)] (fl 0 0 0 0) [] = true := by decide

/-- T129, `JR[P] 0x0100`. -/
theorem test_T129_jr :
    gives (step (load std 0x0000 [0xBD7F]
      [] (fl 0 0 1 0) []))
      [(15, 0x0002)] (fl 0 0 1 0) [] = true := by decide

/-- T135, `JX CA, -1`. -/
theorem test_T135_jx :
    gives (step (load std 0x0000 [0x82BF]
      [(11, 0x0300)] (fl 0 0 0 0) []))
      [(15, 0x02FE)] (fl 0 0 0 0) [] = true := by decide

/-- T136, `JX PC, 0`. -/
theorem test_T136_jx :
    gives (step (load std 0x0040 [0x82F0]
      [] (fl 0 0 0 0) []))
      [(15, 0x0042)] (fl 0 0 0 0) [] = true := by decide

/-- T138, `JXL R0, 0xFFFE`. -/
theorem test_T138_jxl :
    gives (step (load std 0x0000 [0x8300, 0xFFFE]
      [(0, 0x0000)] (fl 0 0 0 0) []))
      [(15, 0xFFFE)] (fl 0 0 0 0) [] = true := by decide

/-- T139, `JXL[Z] R0, 0x0100 (skipped)`. -/
theorem test_T139_jxl :
    gives (step (load std 0x0000 [0xA700, 0x0100]
      [(0, 0x0004)] (fl 0 0 0 0) []))
      [(15, 0x0004)] (fl 0 0 0 0) [] = true := by decide

/-- T140, `CALL 0x0100`. -/
theorem test_T140_call :
    gives (step (load std 0x0010 [0xC000, 0x0100]
      [(14, 0x02FE)] (fl 0 0 0 0) []))
      [(14, 0x02FC), (15, 0x0100)] (fl 0 0 0 0) [(0x02FE, 0x14)] = true := by decide

/-- T148, `CALL 0x0100`. -/
theorem test_T148_call :
    faults (step (load (small 0x100) 0x0010 [0xC000, 0x0100]
      [(14, 0x00FF)] (fl 0 0 0 0) []))
      1 0x100 0x0010 = true := by decide

/-- T143, `CALLR[NZ] 0x0040 (taken)`. -/
theorem test_T143_callr :
    gives (step (load std 0x0030 [0xF507]
      [(14, 0x02FE)] (fl 0 0 0 0) []))
      [(14, 0x02FC), (15, 0x0040)] (fl 0 0 0 0) [(0x02FE, 0x32)] = true := by decide

/-- T146, `CALLX RSP, 0`. -/
theorem test_T146_callx :
    gives (step (load std 0x0050 [0xC2E0]
      [(14, 0x02FE)] (fl 0 0 0 0) []))
      [(14, 0x02FC), (15, 0x02FE)] (fl 0 0 0 0) [(0x02FE, 0x52)] = true := by decide

/-- T145, `CALLXL R1, 0x0200`. -/
theorem test_T145_callxl :
    gives (step (load std 0x0060 [0xC310, 0x0200]
      [(14, 0x02FE), (1, 0x0002)] (fl 0 0 0 0) []))
      [(14, 0x02FC), (15, 0x0202)] (fl 0 0 0 0) [(0x02FE, 0x64)] = true := by decide

/-- T147, `RET`. -/
theorem test_T147_ret :
    gives (step (load std 0x0100 [0x0200]
      [(14, 0x02FC)] (fl 0 0 0 0) [(0x02FE, 0x14), (0x02FF, 0x00)]))
      [(14, 0x02FE), (15, 0x0014)] (fl 0 0 0 0) [] = true := by decide

/-- T149, `RET`. -/
theorem test_T149_ret :
    faults (step (load (small 0x100) 0x0010 [0x0200]
      [(14, 0x00FE)] (fl 0 0 0 0) []))
      1 0x100 0x0010 = true := by decide

/-- T163, `NOP (last word of memory)`. -/
theorem test_T163_nop :
    gives (step (load (small 0x100) 0x00FE [0x0000]
      [] (fl 0 0 0 0) []))
      [(15, 0x0100)] (fl 0 0 0 0) [] = true := by decide

/-- T167, `NOP (at the top of the address space)`. -/
theorem test_T167_nop :
    gives (step (load std 0xFFFE [0x0000]
      [] (fl 0 0 0 0) []))
      [(15, 0x0000)] (fl 0 0 0 0) [] = true := by decide

/-- T153, `SYSCALL 1`. -/
theorem test_T153_syscall :
    gives (step (load withH1 0x0000 [0x0301]
      [(13, 0x01FE)] (fl 0 0 0 0) []))
      [(13, 0x01FC), (15, 0x0002)] (fl 0 0 0 0) [(0x01FE, 0x41)] = true := by decide

/-- T154, `SYSCALL 2`. -/
theorem test_T154_syscall :
    gives (step (load withH1 0x0000 [0x0302]
      [(13, 0x01FE)] (fl 0 0 0 0) []))
      [(15, 0x0002)] (fl 0 0 0 0) [] = true := by decide

/-- T160, `(op 0x7F)`. -/
theorem test_T160_illegal :
    gives (step (load std 0x0000 [0x7F00]
      [] (fl 0 0 0 0) []))
      [(15, 0x0002)] (fl 0 0 0 0) [] = true := by decide

/-- T161, `(op 0x7F)`. -/
theorem test_T161_illegal :
    faults (step (load strictIllegal 0x0000 [0x7F12]
      [] (fl 0 0 0 0) []))
      4 0x7F12 0x0000 = true := by decide

/-- T166, `JP[C], skipped (trailing word at 0x00FE, outside memory)`. -/
theorem test_T166_fetch :
    faults (step (load (small 0xFE) 0x00FC [0xA000]
      [] (fl 0 0 0 0) []))
      1 0xFE 0x00FC = true := by decide

/-- T169, `NOP (odd address)`. -/
theorem test_T169_fetch :
    faults (step (load strict 0x0011 [0x0000]
      [] (fl 0 0 0 0) []))
      2 0x11 0x0011 = true := by decide
/-- T151, `HALT`. -/
theorem test_T151_halt :
    see (fun t => (t.run, t.pc)) (step (load std 0x0000 [0x0100] [] (fl 0 0 0 0) []))
      = some (.halted, 0x0002#16) := by decide

/-- T170, T172: a step when not Running. -/
theorem test_T170_stopped :
    see State.pc (step { load std 0x0010 [0x1C01] [] (fl 0 0 0 0) [] with run := .faulted })
      = some 0x0010#16
    ∧ see State.pc (step { load std 0x0002 [0x0100] [] (fl 0 0 0 0) [] with run := .halted })
      = some 0x0002#16 := by decide

/-- T100, T168: the diagnostic of a misaligned read and of a misaligned fetch. -/
theorem test_T100_align :
    see (fun t => t.out.diags) (step (load std 0x0000 [0x4801] [(1, 0x0101)] (fl 0 0 0 0) []))
      = some [.align 0x0101]
    ∧ see (fun t => t.out.diags) (step (load std 0x0011 [0x0000] [] (fl 0 0 0 0) []))
      = some [.align 0x0011] := by decide

/-- Write-protect and watch report and let the write happen (20_memory R77, R78). -/
theorem test_write_diags :
    see (fun t => (t.out.diags, t.byteAt 0x0201))
      (step (load { std with watch := some 0x0200#16, writeProtect := some (0x0201#16, 0x0300#16) }
        0x0000 [0x4A01] [(0, 0x0200), (1, 0xBEEF)] (fl 0 0 0 0) []))
      = some ([.wprot 0x0201, .watch 0x0200], 0xBE#8) := by decide

/-- T175, T176: run() returns after one step. -/
theorem test_T175_run :
    see (fun t => (t.run, t.pc)) (runBounded 5 (load std 0x0000 [0x0100] [] (fl 0 0 0 0) []))
      = some (.halted, 0x0002#16)
    ∧ see (fun t => (t.run, t.finfo)) (runBounded 5 (load std 0x0000 [0x1C00] [] (fl 0 0 0 0) []))
      = some (.faulted, 0x1C00#17) := by decide

/-- T171, T173: Reset after a fault and ResetToHalted. -/
theorem test_T171_reset :
    (let t := resetTx none (faultEntry (load std 0x0010 [] [(0, 0x0005)] (fl 0 0 0 0) [])
        .divZero 0x1C01 ⟨[], []⟩);
      (t.run, t.pc, t.fcause, t.finfo, t.fpc, t.reg 0) = (.running, 0, 0, 0, 0, 0x0005))
    ∧ (let t := resetToHalted (load std 0x0044 [] [(3, 0x1234)] (fl 0 1 0 0) []);
      (t.run, t.pc, t.reg 3, t.flags) = (.halted, 0x0044, 0x1234, fl 0 1 0 0)) := by decide

/-- A host write of the run state neither leaves Faulted nor makes a stopped engine execute
(60_exceptions R407, R434; log 24), and does stop a running one. -/
theorem test_host_write_run :
    hostTx { State.reset with run := .faulted } (.writeRun .halted) = none
    ∧ hostTx { State.reset with run := .halted } (.writeRun .running) = none
    ∧ (hostTx State.reset (.writeRun .halted)).map State.run = some .halted := by decide

/-- A host write of the fault record, while Faulted too, leaves the run state (60_exceptions R433). -/
theorem test_host_write_record :
    (hostTx { State.reset with run := .faulted } (.writeRecord 4 0x1FFFF 0xFFFE)).map
        (fun t => (t.fcause, t.finfo, t.fpc, t.run))
      = some (4, 0x1FFFF, 0xFFFE, .faulted) := by decide

/-- A build with the standard parameters and a draw of zeros. -/
def zeroBuild : Build := ⟨65536, 256, .warn, .nop, .above16⟩
def zeroDraw : InitValues := ⟨Vector.replicate 16 0#16, fl 0 0 0 0, []⟩

/-- The reset state is `Reset` of a newly built engine whose draws are 0 (70 R450, R451). -/
theorem test_reset_is_reset_of_new :
    State.reset = resetTx none (construct zeroBuild zeroDraw) := by decide

/-! ## Witnesses: a concrete state and operands that meet the hypotheses of each obligation

Where the obligation has several clauses, each clause has its own conjunct, at a boundary value. -/

/-- A state with the given configuration and registers, at 0x0010. -/
def atRegs (cfg : Config) (regs : List (Reg × Word)) : State := load cfg 0x0010 [] regs (fl 0 0 0 0) []

/-- A state with the given words at `pc`. -/
def atWords (cfg : Config) (pc : Word) (ws : List Word) : State := load cfg pc ws [] (fl 0 0 0 0) []

/-- Unconditional, and a condition on C that a clear C meets ([NC]) or fails ([C]). -/
def always : Cond := Cond.always
def ifC : Cond := .suffix false .c
def ifNotC : Cond := .suffix true .c

theorem test_wit_EncodeUndoesDecode :
    decodeBytes [0x12#8, 0x10#8, 0x77#8] = .ok (.add 1 2, [0x77#8]) := rfl

theorem test_wit_LengthFromFirstWord :
    decode 0x0AD0 0x01FE = some (.movil 13 0 0x01FE) ∧ decode 0x7FFF 0 = none := by decide

theorem test_wit_IgnoredFieldsChangeNothing : (0x0001#16 : Word) ≠ 0 := by decide

theorem test_wit_AssembledOperands :
    (Instr.addi 1 0).rangeClass = some .tinyUnsigned ∧ (Instr.addi 1 0).emitWith 15 ≠ []
    ∧ (Instr.addi 1 0).operandField = some 0 ∧ (Instr.nop 0).rangeClass = none
    ∧ relativeDisp 0x0120 0x0020 = some 0x7F
    ∧ (0x0120#16 : Word).toNat % 2 = (0x0020#16 : Word).toNat % 2
    ∧ (atWords std 0x0020 []).pc = 0x0020 ∧ Taken always (atWords std 0x0020 []).flags := by
  unfold Taken
  decide

theorem test_wit_CanonicalMemory :
    (atRegs std []).memOk = true ∧ 0xFFFF < (atRegs std []).cfg.memSize
    ∧ Memory.wf [(3, 1#8), (9, 2#8)] = true := by decide

theorem test_wit_WordsAreLittleEndian :
    (atRegs std []).memOk = true ∧ (atRegs std []).WordOk 0xFFFE := by decide

/-- A state whose slot 255 is filled with `h`. -/
def withHandler (h : Handler) (regs : List (Reg × Word)) : State :=
  atRegs { std with handlers := [(255#8, h)] } regs

/-- A state of `cfg` at 0x0010 whose slot 255 holds the script `acts`, with SP = `sp`. -/
def scripted (cfg : Config) (acts : List HandlerAct) (sp : Word) : State :=
  atRegs { cfg with handlers := [(255#8, .script acts)] } [(13, sp)]

theorem test_wit_AccessDiagnostics :
    (atRegs std [(2, 0xFFFD)]).AccessOk (operand (atRegs std [(2, 0xFFFD)]) 2 2) .word
    ∧ ¬ (atRegs std [(2, 0xFFFF)]).AccessOk (operand (atRegs std [(2, 0xFFFF)]) 2 2) .word
    ∧ (atRegs std [(2, 0xFFFF)]).AccessOk (operand (atRegs std [(2, 0xFFFF)]) 2 2) .byte
    ∧ ¬ (atRegs (small 0x100) [(2, 0x100)]).AccessOk
        (operand (atRegs (small 0x100) [(2, 0x100)]) 2 2) .byte
    ∧ Taken always (fl 0 0 0 0) := by
  unfold State.AccessOk Taken
  decide

/-- The clauses on a fetch that raises: at the edge of memory, and at an odd pc under `fail`. -/
theorem test_wit_AccessDiagnostics_fetch :
    (let s := atWords (small 0x100) 0x00FF [];
      s.run = .running ∧ ¬ s.WordOk s.pc)
    ∧ (let s := atWords strict 0xFFFD [];
      s.run = .running ∧ ¬ s.WordOk s.pc)
    ∧ (let s := atWords (small 0xFE) 0x00FC [0xA000];
      s.run = .running ∧ s.WordOk s.pc ∧ HoldsWord s s.pc 0xA000
      ∧ (0xA000 : Word).isLong = true ∧ ¬ s.WordOk (s.pc + 2)) := by
  unfold HoldsWord
  decide

/-- The clauses on a handler's primitives, at an access that raises nothing and at one that raises. -/
theorem test_wit_AccessDiagnostics_handler :
    (let s := scripted std [.dpush 0x0041] 0xFFFD;
      (255#8).toNat < s.cfg.tableSize
      ∧ s.cfg.handlers.lookup 255#8 = some (.script [.dpush 0x0041])
      ∧ s.WordOk (s.reg 13) ∧ ¬ (scripted std [.dpush 0x0041] 0xFFFF).WordOk 0xFFFF)
    ∧ (let s := scripted std [.dpop] 0xFFFE;
      (255#8).toNat < s.cfg.tableSize
      ∧ s.cfg.handlers.lookup 255#8 = some (.script [.dpop])
      ∧ s.WordOk (s.reg 13 + 2) ∧ ¬ (scripted std [.dpop] 0xFFFD).WordOk 0xFFFF) := by decide

theorem test_wit_StepWhenNotRunning :
    ({ atRegs std [] with run := .halted } : State).run ≠ .running
    ∧ ({ atRegs std [] with run := .faulted } : State).run ≠ .running := by decide

theorem test_wit_StepRunsDecoded :
    let s := atWords std 0xFFFC [0x0AD0, 0x01FE]
    s.run = .running ∧ s.WordOk s.pc ∧ HoldsWord s s.pc 0x0AD0
    ∧ s.WordOk (s.pc + 2) ∧ HoldsWord s (s.pc + 2) 0x01FE
    ∧ decode 0x0AD0 0x01FE = some (.movil 13 0 0x01FE)
    ∧ s.pc.toNat % 2 = 0 ∧ s.cfg.watch = none := by
  unfold HoldsWord
  decide

theorem test_wit_IllegalOpcodeStep :
    (let s := atWords std 0x0010 [0x7F12];
      s.run = .running ∧ s.WordOk s.pc ∧ HoldsWord s s.pc 0x7F12 ∧ s.cfg.illegalPolicy = .nop)
    ∧ (let s := atWords strictIllegal 0x0010 [0x7F12];
      s.run = .running ∧ s.WordOk s.pc ∧ HoldsWord s s.pc 0x7F12 ∧ s.cfg.illegalPolicy = .fault)
    ∧ (0x7F12#16 : Word).toNat < 0x8000 ∧ (0x7F12#16 : Word).toNat / 256 ∉ assignedOpcodes := by
  unfold HoldsWord
  decide

/-- The three ways a word access at `a` can fail, each met at a boundary by the state it is given. -/
def FaultCases (first second odd : State) (a : State → Word) : Prop :=
  first.cfg.memSize ≤ (a first).toNat ∧ second.cfg.memSize = (a second).toNat + 1
  ∧ (a odd).toNat + 1 < odd.cfg.memSize ∧ odd.cfg.alignPolicy = .fail ∧ (a odd).toNat % 2 = 1

theorem test_wit_FirstFetchFaults :
    FaultCases (atWords (small 0x100) 0x0100 []) (atWords (small 0x100) 0x00FF [])
      (atWords strict 0xFFFD []) State.pc
    ∧ (atWords (small 0x100) 0x0100 []).run = .running := by
  unfold FaultCases
  decide

theorem test_wit_TrailingFetchFaults :
    (let s := atWords (small 0xFE) 0x00FC [0xA000];
      s.run = .running ∧ s.WordOk s.pc ∧ HoldsWord s s.pc 0xA000 ∧ s.cfg.memSize = 0xFE)
    ∧ Word.isLong 0xA000 = true
    ∧ FaultCases (atWords (small 0xFE) 0x00FC [0xA000]) (atWords (small 0xFF) 0x00FC [0xA000])
        (atWords strict 0x0011 [0xA000]) (fun s => s.pc + 2) := by
  unfold HoldsWord FaultCases
  decide

theorem test_wit_RunningIsLeft :
    see State.run (step (atWords std 0x0010 [0x1C00])) = some .faulted
    ∧ see State.run (step (atWords std 0x0010 [0x0100])) = some .halted
    ∧ see State.run (step (atWords { std with handlers := [(3, .script [.setRun .halted])] } 0x0010
        [0x0303])) = some .halted := by decide

theorem test_wit_RunRepeatsStep :
    ({ atRegs std [] with run := .faulted } : State).run ≠ .running
    ∧ (atWords std 0x0010 [0x0100]).run = .running
    ∧ see State.run (runBounded 1 (atWords std 0x0010 [0x0100])) = some .halted := by decide

theorem test_wit_OnlyResetsLeaveAStop :
    let s : State := { atRegs std [] with run := .faulted }
    s.run ≠ .running ∧ (hostTx s .resetToHalted).isSome = true
    ∧ (hostTx s (.reset none)).isSome = true ∧ (hostTx s (.writeReg 1 2)).isSome = true
    ∧ see State.run (step s) = some .faulted := by decide

theorem test_wit_ConstructionState :
    zeroBuild.memSize = 65536 ∧ zeroBuild.tableSize ≤ 256
    ∧ (⟨Vector.replicate 16 0#16, fl 0 0 0 0, [(7, 1#8), (0xFFFF, 2#8)]⟩ : InitValues).bytes
        = [(7, 1#8)] ++ (0xFFFF, 2#8) :: [] ∧ 0xFFFF < zeroBuild.memSize := by decide

theorem test_wit_HostWrites :
    (atRegs std []).memOk = true ∧ 0xFFFF < (atRegs std []).cfg.memSize
    ∧ (atRegs std []).cfg.memSize ≤ 0x10000 ∧ (2#4 : Reg) ≠ 1
    ∧ (atRegs std []).run = .running ∧ RunState.halted ≠ .faulted
    ∧ ({ atRegs std [] with run := .halted } : State).run ≠ .running
    ∧ ({ atRegs std [] with run := .faulted } : State).run = .faulted := by decide

theorem test_wit_HostTransactionsKeepSoundness :
    (hostTx (atRegs std []) (.writeByte 0xFFFF 1)).isSome = true
    ∧ (atRegs std []).cfg.wf = true ∧ (atRegs std []).memOk = true := by decide

theorem test_wit_ConfigurationTransactions :
    (255#8).toNat < std.tableSize
    ∧ (atRegs { std with tableSize := 255 } []).cfg.tableSize ≤ (255#8).toNat := by decide

theorem test_wit_StepKeepsInvariant :
    (atWords std 0x0010 [0x1001]).Inv
    ∧ (see State.pc (step (atWords std 0x0010 [0x1001]))).isSome = true := by
  unfold State.Inv
  decide

theorem test_wit_FaultsArePrecise :
    (atWords std 0x0010 [0x1C00]).run = .running
    ∧ see State.run (step (atWords std 0x0010 [0x1C00])) = some .faulted := by decide

theorem test_wit_StepKeepsConfiguration :
    (see State.cfg (step (atWords (small 0x100) 0x0010 [0x1001]))).isSome = true := by decide

theorem test_wit_FaultRecordIsNeverRead :
    (atWords std 0x0010 [0x1001]).run = .running
    ∧ ∀ n, (atWords std 0x0010 [0x1001]).cfg.handlers.lookup n ≠ some .relation := by
  refine ⟨by decide, fun n h => ?_⟩
  cases h

theorem test_wit_OnlyFlagWritersWriteFlags :
    mayWriteFlags (.ld 0 1) = false
    ∧ (see State.flags (exec (.ld 0 1) (atRegs std []))).isSome = true := by decide

theorem test_wit_OnlyStoresWriteMemory :
    mayStore (.ld 0 1) = false
    ∧ (see State.mem (exec (.ld 0 1) (atRegs std []))).isSome = true := by decide

theorem test_wit_DivResults :
    operand (atRegs std [(1, 0x0007)]) 2 1 ≠ 0 ∧ operand (atRegs std []) 2 1 = 0 := by decide

theorem test_wit_CarryAndBorrow :
    (atRegs std []).cfg.oMask = .above16 ∧ (atRegs otherMask []).cfg.oMask = .from16 := by decide

theorem test_wit_LoadWordResults :
    (atRegs std [(1, 0xFFFE)]).WordOk (operand (atRegs std [(1, 0xFFFE)]) 2 1)
    ∧ FaultCases (atRegs (small 0x100) [(1, 0x0100)]) (atRegs std [(1, 0xFFFF)])
        (atRegs strict [(1, 0x0101)]) (fun s => operand s 2 1)
    ∧ (atRegs std [(1, 0xFFFF)]).WordOk (operand (atRegs std [(1, 0xFFFF)]) 4 1 + 0xFFFF)
    ∧ FaultCases (atRegs (small 0x100) [(1, 0x00FF)]) (atRegs std [(1, 0xFFFE)])
        (atRegs strict [(1, 0x0100)]) (fun s => operand s 4 1 + 0x0001) := by
  unfold FaultCases
  decide

theorem test_wit_LoadByteResults :
    (atRegs std [(1, 0xFFFF)]).ByteOk (operand (atRegs std [(1, 0xFFFF)]) 2 1)
    ∧ (atRegs (small 0x100) [(1, 0x0100)]).cfg.memSize
        ≤ (operand (atRegs (small 0x100) [(1, 0x0100)]) 2 1).toNat
    ∧ (atRegs std [(1, 0x0000)]).ByteOk (operand (atRegs std [(1, 0x0000)]) 4 1 + 0xFFFF)
    ∧ (atRegs (small 0x100) [(1, 0x00FF)]).cfg.memSize
        ≤ (operand (atRegs (small 0x100) [(1, 0x00FF)]) 4 1 + 0x0001).toNat := by decide

theorem test_wit_StoreWordResults :
    (atRegs std [(1, 0xFFFE)]).memOk = true
    ∧ (atRegs std [(1, 0xFFFE)]).WordOk (operand (atRegs std [(1, 0xFFFE)]) 2 1)
    ∧ FaultCases (atRegs (small 0x100) [(1, 0x0100)]) (atRegs std [(1, 0xFFFF)])
        (atRegs strict [(1, 0x0101)]) (fun s => operand s 2 1)
    ∧ (atRegs std [(1, 0xFFFE)]).WordOk (operand (atRegs std [(1, 0xFFFE)]) 4 1 + 0x0002)
    ∧ FaultCases (atRegs (small 0x100) [(1, 0x00FF)]) (atRegs std [(1, 0xFFFE)])
        (atRegs strict [(1, 0x0100)]) (fun s => operand s 4 1 + 0x0001) := by
  unfold FaultCases
  decide

theorem test_wit_StoreByteResults :
    (atRegs std [(1, 0xFFFF)]).memOk = true
    ∧ (atRegs std [(1, 0xFFFF)]).ByteOk (operand (atRegs std [(1, 0xFFFF)]) 2 1)
    ∧ (atRegs (small 0x100) [(1, 0x0100)]).cfg.memSize
        ≤ (operand (atRegs (small 0x100) [(1, 0x0100)]) 2 1).toNat
    ∧ (atRegs std [(1, 0xFFFF)]).ByteOk (operand (atRegs std [(1, 0xFFFF)]) 4 1 + 0x0001)
    ∧ (atRegs (small 0x100) [(1, 0x00FF)]).cfg.memSize
        ≤ (operand (atRegs (small 0x100) [(1, 0x00FF)]) 4 1 + 0x0001).toNat := by decide

theorem test_wit_PushResults :
    (atRegs std [(13, 0x0000)]).memOk = true
    ∧ (atRegs std [(13, 0x0000)]).WordOk ((atRegs std [(13, 0x0000)]).reg 13)
    ∧ FaultCases (atRegs (small 0x100) [(13, 0x0100)]) (atRegs std [(13, 0xFFFF)])
        (atRegs strict [(13, 0x0101)]) (fun s => s.reg 13)
    ∧ (atRegs std [(14, 0xFFFE)]).WordOk ((atRegs std [(14, 0xFFFE)]).reg 14)
    ∧ FaultCases (atRegs (small 0x100) [(14, 0x0100)]) (atRegs std [(14, 0xFFFF)])
        (atRegs strict [(14, 0x0101)]) (fun s => s.reg 14) := by
  unfold FaultCases
  decide

theorem test_wit_PopResults :
    (atRegs std [(13, 0xFFFE)]).WordOk ((atRegs std [(13, 0xFFFE)]).reg 13 + 2)
    ∧ FaultCases (atRegs (small 0x100) [(13, 0x00FE)]) (atRegs std [(13, 0xFFFD)])
        (atRegs strict [(13, 0x0101)]) (fun s => s.reg 13 + 2)
    ∧ (atRegs std [(14, 0xFFFC)]).WordOk ((atRegs std [(14, 0xFFFC)]).reg 14 + 2)
    ∧ FaultCases (atRegs (small 0x100) [(14, 0x00FE)]) (atRegs std [(14, 0xFFFD)])
        (atRegs strict [(14, 0x0101)]) (fun s => s.reg 14 + 2)
    ∧ (5#4 : Reg) ≠ 13 := by
  unfold FaultCases
  decide

theorem test_wit_PushThenPop :
    (atRegs std [(13, 0x0000)]).memOk = true
    ∧ (atRegs std [(13, 0x0000)]).WordOk ((atRegs std [(13, 0x0000)]).reg 13)
    ∧ (atRegs std [(14, 0xFFFE)]).WordOk ((atRegs std [(14, 0xFFFE)]).reg 14) := by decide

theorem test_wit_JumpResults :
    Taken always (fl 0 0 0 0) ∧ Taken ifNotC (fl 0 1 1 1) ∧ Taken ifC (fl 1 0 0 0) := by
  unfold Taken
  decide

theorem test_wit_SkippedControlOnlyAdvances :
    ¬ Taken ifC (fl 0 1 1 1) ∧ ¬ Taken ifNotC (fl 1 0 0 0) := by
  unfold Taken
  decide

theorem test_wit_CallResults :
    Taken ifNotC (atRegs std [(14, 0xFFFE)]).flags
    ∧ (atRegs std [(14, 0xFFFE)]).memOk = true
    ∧ (atRegs std [(14, 0xFFFE)]).WordOk ((atRegs std [(14, 0xFFFE)]).reg 14)
    ∧ FaultCases (atRegs (small 0x100) [(14, 0x0100)]) (atRegs std [(14, 0xFFFF)])
        (atRegs strict [(14, 0x0101)]) (fun s => s.reg 14) := by
  unfold FaultCases Taken
  decide

theorem test_wit_RetResults :
    (atRegs std [(14, 0xFFFC)]).WordOk ((atRegs std [(14, 0xFFFC)]).reg 14 + 2)
    ∧ FaultCases (atRegs (small 0x100) [(14, 0x00FE)]) (atRegs std [(14, 0xFFFD)])
        (atRegs strict [(14, 0x0101)]) (fun s => s.reg 14 + 2) := by
  unfold FaultCases
  decide

theorem test_wit_CallThenRet :
    (atRegs std [(14, 0x0000)]).memOk = true
    ∧ (atRegs std [(14, 0x0000)]).WordOk ((atRegs std [(14, 0x0000)]).reg 14)
    ∧ Taken ifNotC (atRegs std [(14, 0x0000)]).flags := by
  unfold Taken
  decide

theorem test_wit_SyscallWithoutHandler :
    (atRegs { std with tableSize := 255 } []).cfg.tableSize ≤ (255#8).toNat
    ∧ (atRegs std []).cfg.handlers.lookup 0#8 = none := by decide

theorem test_wit_SyscallRunsItsHandler :
    (255#8).toNat < (scripted std [.dpop] 0).cfg.tableSize
    ∧ (scripted std [.dpop] 0).cfg.handlers.lookup 255#8 = some (.script [.dpop])
    ∧ (scripted std [.dpop] 0).memOk = true
    ∧ (scripted std [.dpush 0x0041] 0xFFFE).WordOk ((scripted std [.dpush 0x0041] 0xFFFE).reg 13)
    ∧ (scripted std [.dpop] 0xFFFC).WordOk ((scripted std [.dpop] 0xFFFC).reg 13 + 2)
    ∧ (0xFFFF#16 : Word).toNat < std.memSize
    ∧ FaultCases (scripted (small 0x100) [.dpush 1] 0x0100) (scripted std [.dpush 1] 0xFFFF)
        (scripted strict [.dpush 1] 0x0101) (fun s => s.reg 13)
    ∧ FaultCases (scripted (small 0x100) [.dpop] 0x00FE) (scripted std [.dpop] 0xFFFD)
        (scripted strict [.dpop] 0x0101) (fun s => s.reg 13 + 2)
    ∧ actAllowed std (.setReg 1 2) = true ∧ HandlerAct.setReg 1 2 ≠ .dpop
    ∧ (small 0x100).memSize ≤ (0x0100#16 : Word).toNat := by
  unfold FaultCases
  decide

/-- A primitive that raises ends the step before an act that would be refused (logs 8, 9). -/
theorem test_raise_before_refusal :
    faults (exec (.syscall 255) (scripted (small 0x100) [.dpush 1, .setRun .faulted] 0x0100))
      1 0x100 0x0010 = true
    ∧ exec (.syscall 255) (scripted std [.setRun .faulted] 0x0100)
        = .refused (.handlerActRefused 255) := ⟨by decide, rfl⟩

theorem test_wit_SyscallOfAnUnknownHandler :
    (255#8).toNat < (withHandler .relation []).cfg.tableSize
    ∧ (withHandler .relation []).run ≠ .faulted ∧ (withHandler .relation []).memOk = true
    ∧ (withHandler .relation []).cfg.handlers.lookup 255#8 = some .relation := by decide

/-- Both cases of the acts of such a handler, whatever it chose: SP = 0xFFFE lets a push and a pop
complete, an access at 0xFFFF raises, and a direct write of the run state Faulted is not allowed. -/
theorem test_wit_SyscallOfAnUnknownHandler_acts :
    (withHandler .relation []).actsDone 0xFFFE [.dpush 1, .dpop, .setByte 0xFFFF 2] = true
    ∧ (withHandler .relation []).actsDone 0xFFFD [.dpop, .dpush 1] = false
    ∧ (withHandler .relation []).actsDone 0xFFFE [.dpop, .dpush 1, .setRun .faulted] = false
    ∧ (withHandler .relation []).actsDone 0xFFFB [.dpop, .setReg 13 0xFFFF] = true
    ∧ (let sp := spAfter 0xFFFB [.dpop, .setReg 13 0xFFFF];
      stackAddress sp (.dpush 1) = some 0xFFFF ∧ ¬ (withHandler .relation []).WordOk 0xFFFF)
    ∧ actAllowed (withHandler .relation []).cfg (.setRun .faulted) = false := by decide

/-- A pushed word lies low byte first at SP, and a second push below it leaves it. -/
theorem test_byteAfter_dpush :
    byteAfter 0x0100 0x0100 0 [.dpush 0x1234, .dpush 0xABCD] = 0x34
    ∧ byteAfter 0x0101 0x0100 0 [.dpush 0x1234, .dpush 0xABCD] = 0x12
    ∧ byteAfter 0x00FE 0x0100 0 [.dpush 0x1234, .dpush 0xABCD] = 0xCD
    ∧ byteAfter 0x0102 0x0100 7 [.dpush 0x1234, .dpop] = 7 := by decide

end Sys2Proof.Tests
end

/-! PROOFS, scope. The invariant at reset and along every step, and what host transactions keep. -/

namespace Sys2Proof.Machine

/-! ## The invariant -/

/-- A state that is not Faulted owes nothing of its record. -/
theorem faultOk_of_run_ne {s : State} (h : s.run ≠ .faulted) : s.faultOk = true := by
  simp [State.faultOk, h]

/-- The check of a record whose cause is `c` is the fit of its value (60_exceptions R403). -/
theorem recordOk_iff_fits {s : State} {c : Cause} (h : s.fcause = causeCode c) :
    s.recordOk = true ↔ recordFits s.cfg c s.finfo := by
  cases c <;> simp [State.recordOk, recordFits, causeCode, h, and_assoc]

/-- A step of an engine that is not Running does nothing (40_cycle R150). -/
theorem step_of_not_running {s : State} (h : s.run ≠ .running) : step s = .next s := by
  unfold step runCycle
  cases hr : s.run with
  | running => exact absurd hr h
  | halted | faulted => rfl

/-- A step part that is no fault entry keeps the invariant of a state that is not Faulted. -/
theorem Follows.inv {s t : State} (h : Follows s t) (hrun : s.run ≠ .faulted) (hs : s.Inv) :
    t.Inv := by
  obtain ⟨hcfg, hmem, -⟩ := hs
  exact ⟨h.cfg ▸ hcfg, h.memOk hmem, faultOk_of_run_ne (h.run hrun)⟩

/-- Fault entry with a record that fits its cause keeps the invariant (60_exceptions R404). -/
theorem faultEntry_inv {s : State} {c : Cause} {info : BitVec 17} {out : Output}
    (hfit : recordFits s.cfg c info) (hs : s.Inv) : (faultEntry s c info out).Inv := by
  obtain ⟨hcfg, hmem, -⟩ := hs
  have hrec : (faultEntry s c info out).recordOk = true := (recordOk_iff_fits rfl).2 hfit
  exact ⟨hcfg, hmem, by simp [State.faultOk, hrec]⟩

/-! ## Guarded host transactions -/

section

variable {s t : State}

theorem hostTx_writeRun_eq_some {r : RunState} :
    hostTx s (.writeRun r) = some t ↔
      runWriteAllowed s.run r = true ∧ { s with run := r } = t := by
  simp [hostTx]

theorem hostTx_writeByte_eq_some {a : Nat} {b : Byte} :
    hostTx s (.writeByte a b) = some t ↔ a < s.cfg.memSize ∧ s.setByteAt a b = t := by
  simp [hostTx]

/-- The handlers after AddSyscall: slot `n` holds `h` in place of what it held (00_scope R9). -/
def fillSlot (hs : List (BitVec 8 × Handler)) (n : BitVec 8) (h : Handler) :
    List (BitVec 8 × Handler) :=
  (n, h) :: hs.filter fun p => p.1 != n

theorem hostTx_addSyscall_eq_some {n : BitVec 8} {h : Handler} :
    hostTx s (.addSyscall n h) = some t ↔ n.toNat < s.cfg.tableSize ∧
      { s with cfg := { s.cfg with handlers := fillSlot s.cfg.handlers n h } } = t := by
  simp [hostTx, fillSlot]

end

/-- Dropping the entries of slot `n` leaves what every other slot holds. -/
theorem lookup_filter_ne {hs : List (BitVec 8 × Handler)} {n m : BitVec 8} (hm : m ≠ n) :
    (hs.filter fun p => p.1 != n).lookup m = hs.lookup m := by
  induction hs with
  | nil => rfl
  | cons p rest ih =>
    by_cases hp : p.1 = n
    · have hmn : (m == n) = false := by simpa using hm
      simpa [hp, List.lookup, hmn] using ih
    · simp [hp, List.lookup, ih]

theorem lookup_fillSlot (hs : List (BitVec 8 × Handler)) (n m : BitVec 8) (h : Handler) :
    (fillSlot hs n h).lookup m = if m = n then some h else hs.lookup m := by
  by_cases hm : m = n
  · simp [fillSlot, hm]
  · have hmn : (m == n) = false := by simpa using hm
    simp [fillSlot, List.lookup, hmn, hm, lookup_filter_ne hm]

/-! ## The obligations -/

/-- Settles O19: the reset memory lists nothing and the run state is Running. -/
theorem invariantAtReset : Obligations.InvariantAtReset :=
  ⟨by decide, reset_memOk, faultOk_of_run_ne (by decide)⟩

/-- Settles O26, from what a Running step can do: it goes on from the state or enters Faulted. -/
theorem stepKeepsInvariant : Obligations.StepKeepsInvariant := by
  intro s t hs hstep
  by_cases hrun : s.run = .running
  · have ho := step_outcome hrun
    rw [hstep] at ho
    obtain hfollows | ⟨c, info, out, hraise, rfl⟩ := ho
    · exact hfollows.inv (by simp [hrun]) hs
    · exact faultEntry_inv hraise.fits hs
  · rw [step_of_not_running hrun] at hstep
    cases hstep
    exact hs

/-- Settles O24, transaction by transaction: only a byte write changes memory, inside MEM_SIZE. -/
theorem hostTransactionsKeepSoundness : Obligations.HostTransactionsKeepSoundness := by
  intro s t tx h hcfg hmem
  cases tx with
  | reset draw =>
    cases h
    cases draw <;> exact ⟨hcfg, hmem, rfl⟩
  | resetToHalted | writeReg | writeFlag | writeRecord | setWatch | clearWatch | writeProtect =>
    cases h
    exact ⟨hcfg, hmem, rfl⟩
  | writeRun r =>
    obtain ⟨-, rfl⟩ := hostTx_writeRun_eq_some.1 h
    exact ⟨hcfg, hmem, rfl⟩
  | writeByte a b =>
    obtain ⟨ha, rfl⟩ := hostTx_writeByte_eq_some.1 h
    exact ⟨hcfg, State.memOk_setByteAt hmem b ha, rfl⟩
  | addSyscall n hd =>
    obtain ⟨-, rfl⟩ := hostTx_addSyscall_eq_some.1 h
    exact ⟨hcfg, hmem, rfl⟩

/-- Settles O25, the slot and the others by `lookup_fillSlot`. -/
theorem configurationTransactions : Obligations.ConfigurationTransactions := by
  intro s
  refine ⟨fun n h hn => ⟨fillSlot s.cfg.handlers n h, ?_, ?_, ?_⟩, fun n h hn => ?_,
    fun _ => rfl, rfl, fun _ _ => rfl⟩
  · exact hostTx_addSyscall_eq_some.2 ⟨hn, rfl⟩
  · simp [lookup_fillSlot]
  · intro m hm
    simp [lookup_fillSlot, hm]
  · exact if_neg (Nat.not_lt.2 hn)

end Sys2Proof.Machine

/-! PROOFS, state. Memory as a canonical list, what every step keeps of the configuration and the
outputs, which instructions write flags, and that the fault record is never read. -/

namespace Sys2Proof.Machine

/-! ## Canonical memories that read alike -/

/-- A canonical list in which the byte at `a` is not blank begins at or below `a`. -/
theorem Memory.head_le_of_get_ne_blank {d : Host.Cell} {m : List Host.Cell} {a : Nat}
    (hm : Memory.wf (d :: m) = true) (h : Memory.get (d :: m) a ≠ Memory.blankByte) : d.1 ≤ a := by
  obtain ⟨-, habove, -⟩ := (Memory.wf_cons d m).1 hm
  by_contra hlt
  refine h (Memory.get_of_above fun e he => ?_)
  rcases List.mem_cons.1 he with rfl | he
  · omega
  · have := habove e he
    omega

/-- The byte of a canonical list's first cell is not blank. -/
theorem Memory.get_head_ne_blank {c : Host.Cell} {m : List Host.Cell}
    (hm : Memory.wf (c :: m) = true) : Memory.get (c :: m) c.1 ≠ Memory.blankByte := by
  simpa [Memory.get] using ((Memory.wf_cons c m).1 hm).1

/-- Canonical lists are extensional: each begins at or below the other's first address, so their first
cells agree, and at that address both tails are blank. -/
theorem Memory.eq_of_get_eq {m n : List Host.Cell} (hm : Memory.wf m = true)
    (hn : Memory.wf n = true) (h : ∀ a, Memory.get m a = Memory.get n a) : m = n := by
  induction m generalizing n with
  | nil =>
    cases n with
    | nil => rfl
    | cons d n => exact absurd (h d.1).symm (Memory.get_head_ne_blank hn)
  | cons c m ih =>
    cases n with
    | nil => exact absurd (h c.1) (Memory.get_head_ne_blank hm)
    | cons d n =>
      have hdc : d.1 ≤ c.1 :=
        Memory.head_le_of_get_ne_blank hn (h c.1 ▸ Memory.get_head_ne_blank hm)
      have hcd : c.1 ≤ d.1 :=
        Memory.head_le_of_get_ne_blank hm (h d.1 ▸ Memory.get_head_ne_blank hn)
      have haddr : c.1 = d.1 := Nat.le_antisymm hcd hdc
      have hbyte : c.2 = d.2 := by simpa [Memory.get, haddr] using h c.1
      obtain ⟨-, habove, hmwf⟩ := (Memory.wf_cons c m).1 hm
      obtain ⟨-, habove', hnwf⟩ := (Memory.wf_cons d n).1 hn
      have htail : m = n := ih hmwf hnwf fun a => by
        by_cases ha : a = c.1
        · rw [ha, Memory.get_of_above habove, Memory.get_of_above (haddr ▸ habove')]
        · simpa [Memory.get, ← haddr, Ne.symm ha] using h a
      rw [Prod.ext haddr hbyte, htail]

/-! ## What a part of a step keeps of the state -/

/-- Where the result answers a state, read off by `f`, its `view` is that of `s`. -/
def ResKeeps {α β : Type} (view : State → β) (s : State) (f : α → State) : Res α → Prop
  | .ok a => view (f a) = view s
  | .raise _ _ _ => True

theorem ResKeeps.bind {α β γ : Type} {view : State → γ} {s : State} {f : α → State}
    {g : β → State} {r : Res α} {k : α → Res β} (h : ResKeeps view s f r)
    (hk : ∀ a, ResKeeps view (f a) g (k a)) : ResKeeps view s g (resBind r k) := by
  cases r with
  | raise cause info out => trivial
  | ok a =>
    have hka := hk a
    simp only [resBind]
    cases e : k a with
    | ok b =>
      rw [e] at hka
      exact Eq.trans hka h
    | raise cause info out => trivial

/-- The end of a step keeps a view that its result and fault entry keep. -/
theorem ResKeeps.complete {β : Type} {view : State → β} {s t : State} {r : Res State}
    (hr : ResKeeps view s id r)
    (hfault : ∀ cause info out, view (faultEntry s cause info out) = view s)
    (h : complete s r = .next t) : view t = view s := by
  cases r with
  | ok u =>
    cases h
    exact hr
  | raise cause info out =>
    cases h
    exact hfault cause info out

/-! ## Flags -/

section

variable (s : State)

theorem memReadByte_flags (a : Word) : ResKeeps State.flags s Prod.snd (memReadByte s a) := by
  unfold memReadByte
  split
  · trivial
  · rfl

theorem memReadWord_flags (a : Word) : ResKeeps State.flags s Prod.snd (memReadWord s a) := by
  unfold memReadWord
  split
  · trivial
  · rfl

theorem memWriteByte_flags (a : Word) (v : Byte) :
    ResKeeps State.flags s id (memWriteByte s a v) := by
  unfold memWriteByte
  split
  · trivial
  · rfl

theorem memWriteWord_flags (a v : Word) : ResKeeps State.flags s id (memWriteWord s a v) := by
  unfold memWriteWord
  split
  · trivial
  · rfl

theorem setPc_flags (v : Word) : ResKeeps State.flags s id (.ok (s.setPc v)) := rfl

theorem pushOn_flags (sp : Reg) (v : Word) : ResKeeps State.flags s id (pushOn s sp v) :=
  (memWriteWord_flags s _ v).bind fun _ => rfl

theorem loadWord_flags (ra : Reg) (ea : Word) : ResKeeps State.flags s id (loadWord s ra ea) :=
  (memReadWord_flags s ea).bind fun _ => rfl

theorem loadByte_flags (ra : Reg) (ea : Word) : ResKeeps State.flags s id (loadByte s ra ea) :=
  (memReadByte_flags s ea).bind fun _ => rfl

theorem popInto_flags (sp ra : Reg) : ResKeeps State.flags s id (popInto s sp ra) :=
  (memReadWord_flags (s.setReg sp _) _).bind fun _ => rfl

theorem callTo_flags (target : Word) : ResKeeps State.flags s id (callTo s target) :=
  (pushOn_flags s Reg.rsp s.pc).bind fun _ => rfl

end

/-- A step that ends with a result from the state with pc advanced keeps the flags if the result
does: fault entry keeps them (60_exceptions R404). -/
theorem complete_flags {s t : State} {k : Word} {r : Res State}
    (hr : ResKeeps State.flags (s.advance k) id r) (h : complete s r = .next t) :
    t.flags = s.flags :=
  ResKeeps.complete (view := State.flags) hr (fun _ _ _ => rfl) h

theorem unlessSkipped_flags {s t : State} {k : Word} {cond : Cond} {r : Res State}
    (hr : ResKeeps State.flags (s.advance k) id r)
    (h : unlessSkipped s (s.advance k) cond r = .next t) : t.flags = s.flags := by
  unfold unlessSkipped at h
  split at h
  · cases h
    rfl
  · exact complete_flags hr h

/-! ## Steps that differ in the fault record alone -/

/-- The result with its value changed by `f`. -/
def resMap {α β : Type} (f : α → β) (r : Res α) : Res β := resBind r fun a => .ok (f a)

theorem resBind_resMap {α α' β β' : Type} {f : α → α'} {g : β → β'} {r : Res α}
    {k : α → Res β} {k' : α' → Res β'} (h : ∀ a, k' (f a) = resMap g (k a)) :
    resBind (resMap f r) k' = resMap g (resBind r k) := by
  cases r with
  | ok a => exact h a
  | raise cause info out => rfl

section

variable (c : BitVec 3) (info : BitVec 17) (p : Word)

/-- The outcomes are the same, or they are next states outside Faulted of which the second is the
first with the record `c`, `info`, `p`. -/
inductive EndsAlike :
    Host.Outcome State Fault Refusal → Host.Outcome State Fault Refusal → Prop
  | same (o : Host.Outcome State Fault Refusal) : EndsAlike o o
  | moved {t : State} (h : t.run ≠ .faulted) : EndsAlike (.next t) (.next (t.setRecord c info p))

/-- The handlers of which nothing is known choose alike in `s` and in `s` with the record `c`, `info`,
`p`, pc at I + 2 (log 6). -/
def ChooseAlike (s : State) : Prop :=
  ∀ n, s.cfg.handlers.lookup n = some .relation →
    Config.handlerChoice s.out.calls.length n (s.advance 2#16).view
      = Config.handlerChoice s.out.calls.length n ((s.setRecord c info p).advance 2#16).view

variable {c info p} {s : State}

/-! ### The state, the memory primitives and the stacks -/

@[simp] theorem State.pc_setRecord : (s.setRecord c info p).pc = s.pc := rfl

theorem advance_setRecord (k : Word) :
    (s.setRecord c info p).advance k = (s.advance k).setRecord c info p := rfl

theorem memReadByte_setRecord (a : Word) :
    memReadByte (s.setRecord c info p) a
      = resMap (Prod.map id (State.setRecord · c info p)) (memReadByte s a) := by
  unfold memReadByte
  rw [State.setRecord_cfg]
  cases accessFault s.cfg a .byte <;> rfl

theorem memReadWord_setRecord (a : Word) :
    memReadWord (s.setRecord c info p) a
      = resMap (Prod.map id (State.setRecord · c info p)) (memReadWord s a) := by
  unfold memReadWord
  rw [State.setRecord_cfg]
  cases accessFault s.cfg a .word <;> rfl

theorem memWriteByte_setRecord (a : Word) (v : Byte) :
    memWriteByte (s.setRecord c info p) a v
      = resMap (State.setRecord · c info p) (memWriteByte s a v) := by
  unfold memWriteByte
  rw [State.setRecord_cfg]
  cases accessFault s.cfg a .byte <;> rfl

theorem memWriteWord_setRecord (a v : Word) :
    memWriteWord (s.setRecord c info p) a v
      = resMap (State.setRecord · c info p) (memWriteWord s a v) := by
  unfold memWriteWord
  rw [State.setRecord_cfg]
  cases accessFault s.cfg a .word <;> rfl

theorem pushOn_setRecord (sp : Reg) (v : Word) :
    pushOn (s.setRecord c info p) sp v
      = resMap (State.setRecord · c info p) (pushOn s sp v) := by
  unfold pushOn
  rw [State.reg_setRecord, memWriteWord_setRecord]
  exact resBind_resMap fun _ => rfl

theorem popFrom_setRecord (sp : Reg) :
    popFrom (s.setRecord c info p) sp
      = resMap (Prod.map id (State.setRecord · c info p)) (popFrom s sp) :=
  memReadWord_setRecord (s := s.setReg sp (s.reg sp + 2#16)) _

theorem popInto_setRecord (sp ra : Reg) :
    popInto (s.setRecord c info p) sp ra
      = resMap (State.setRecord · c info p) (popInto s sp ra) := by
  unfold popInto
  rw [popFrom_setRecord]
  exact resBind_resMap fun _ => rfl

theorem loadWord_setRecord (ra : Reg) (ea : Word) :
    loadWord (s.setRecord c info p) ra ea
      = resMap (State.setRecord · c info p) (loadWord s ra ea) := by
  unfold loadWord
  rw [memReadWord_setRecord]
  exact resBind_resMap fun _ => rfl

theorem loadByte_setRecord (ra : Reg) (ea : Word) :
    loadByte (s.setRecord c info p) ra ea
      = resMap (State.setRecord · c info p) (loadByte s ra ea) := by
  unfold loadByte
  rw [memReadByte_setRecord]
  exact resBind_resMap fun _ => rfl

theorem callTo_setRecord (target : Word) :
    callTo (s.setRecord c info p) target
      = resMap (State.setRecord · c info p) (callTo s target) := by
  unfold callTo
  rw [State.pc_setRecord, pushOn_setRecord]
  exact resBind_resMap fun _ => rfl

theorem fetch_setRecord :
    fetch (s.setRecord c info p)
      = resMap (Prod.map id (State.setRecord · c info p)) (fetch s) := by
  unfold fetch
  rw [State.pc_setRecord, memReadWord_setRecord]
  refine resBind_resMap fun q => ?_
  simp only [Prod.map, id]
  split
  · rw [memReadWord_setRecord]
    exact resBind_resMap fun _ => rfl
  · rfl

/-! ### The end of a step -/

/-- Fault entry overwrites the record, so it forgets the one it found (60_exceptions R404). -/
theorem faultEntry_setRecord (cause : Cause) (v : BitVec 17) (out : Output) :
    faultEntry (s.setRecord c info p) cause v out = faultEntry s cause v out := rfl

theorem endsAlike_complete {r : Res State} (hrun : s.run ≠ .faulted) (hr : ResFrom s id r) :
    EndsAlike c info p (complete s r)
      (complete (s.setRecord c info p) (resMap (State.setRecord · c info p) r)) := by
  cases r with
  | ok t => exact .moved (Follows.run hr hrun)
  | raise cause v out => exact .same _

/-- The end of a step whose part `r` ran from the state with pc advanced. -/
theorem endsAlike_advance {k : Word} {r r' : Res State} (hrun : s.run ≠ .faulted)
    (hr : ResFrom (s.advance k) id r) (h : r' = resMap (State.setRecord · c info p) r) :
    EndsAlike c info p (complete s r) (complete (s.setRecord c info p) r') :=
  h ▸ endsAlike_complete hrun (hr.of_follows (follows_advance s k))

theorem endsAlike_unlessSkipped {k : Word} {cond : Cond} {r r' : Res State}
    (hrun : s.run ≠ .faulted) (hr : ResFrom (s.advance k) id r)
    (h : r' = resMap (State.setRecord · c info p) r) :
    EndsAlike c info p (unlessSkipped s (s.advance k) cond r)
      (unlessSkipped (s.setRecord c info p) ((s.setRecord c info p).advance k) cond r') := by
  by_cases hskip : skips cond s.flags = true
  · simp only [unlessSkipped, State.advance_flags, State.setRecord_flags, hskip, if_true]
    exact .moved (t := s.advance k) hrun
  · simp only [unlessSkipped, State.advance_flags, State.setRecord_flags, hskip]
    exact endsAlike_advance hrun hr h

theorem endsAlike_divideStep {k : Word} {ra a b : Reg} {d : Word} {hi : BitVec 8}
    (hrun : s.run ≠ .faulted) :
    EndsAlike c info p (divideStep s (s.advance k) ra d (packGeneral hi a b))
      (divideStep (s.setRecord c info p) ((s.setRecord c info p).advance k) ra d
        (packGeneral hi a b)) := by
  unfold divideStep
  split
  · exact .same _
  · exact .moved (t := writeArith (s.advance k) ra _) hrun

/-! ### Handlers -/

/-- An act that writes the record forgets the one it found; every other act carries it along. -/
theorem runAct_setRecord (act : HandlerAct) :
    runAct (s.setRecord c info p) act = runAct s act
      ∨ runAct (s.setRecord c info p) act = resMap (State.setRecord · c info p) (runAct s act) := by
  cases act with
  | setRecord => exact .inl rfl
  | setReg | setFlag | setByte | setRun => exact .inr rfl
  | dpush v => exact .inr (pushOn_setRecord _ v)
  | dpop =>
    refine .inr ?_
    unfold runAct
    rw [popFrom_setRecord]
    exact resBind_resMap fun _ => rfl

/-- The record a step began with is not seen in what the acts leave. -/
theorem runActs_begun_setRecord (n : BitVec 8) (t : State) (acts : List HandlerAct) :
    runActs (s.setRecord c info p) n t acts = runActs s n t acts := by
  induction acts generalizing t with
  | nil => rfl
  | cons act rest ih => simp only [runActs, faultEntry_setRecord, ih]

theorem endsAlike_runActs {t : State} {n : BitVec 8} {acts : List HandlerAct}
    (ht : t.run ≠ .faulted) :
    EndsAlike c info p (runActs s n t acts) (runActs s n (t.setRecord c info p) acts) := by
  induction acts generalizing t with
  | nil => exact .moved ht
  | cons act rest ih =>
    unfold runActs
    rw [State.setRecord_cfg]
    split
    · next ha =>
      rcases runAct_setRecord (s := t) (c := c) (info := info) (p := p) act with he | he
      · rw [he]
        exact .same _
      · have hfrom := runAct_from ha
        rw [he]
        cases hact : runAct t act with
        | ok u =>
          rw [hact] at hfrom
          exact ih (Follows.run hfrom ht)
        | raise cause v out => exact .same _
    · exact .same _

/-- The handler of slot `n` does the same acts in both states. -/
theorem handlerActs_setRecord {n : BitVec 8} {h : Handler} (hch : ChooseAlike c info p s)
    (hslot : s.cfg.handlers.lookup n = some h) :
    handlerActs ((s.setRecord c info p).advance 2#16) n h = handlerActs (s.advance 2#16) n h := by
  cases h with
  | script acts => rfl
  | relation => exact (hch n hslot).symm

theorem handlerOf_eq_some {cfg : Config} {n : BitVec 8} {h : Handler} :
    handlerOf cfg n = some h ↔ n.toNat < cfg.tableSize ∧ cfg.handlers.lookup n = some h := by
  simp [handlerOf]

theorem endsAlike_syscall {n : BitVec 8} (hrun : s.run ≠ .faulted)
    (hch : ChooseAlike c info p s) :
    EndsAlike c info p (execSyscall n s) (execSyscall n (s.setRecord c info p)) := by
  simp only [execSyscall, State.advance_cfg, State.setRecord_cfg]
  cases hslot : handlerOf s.cfg n with
  | none => exact .moved (t := s.advance 2#16) hrun
  | some h =>
    simp only [callHandler, handlerActs_setRecord hch (handlerOf_eq_some.1 hslot).2]
    cases handlerActs (s.advance 2#16) n h with
    | none => exact .same _
    | some acts =>
      simp only [runActs_begun_setRecord]
      exact endsAlike_runActs (t := (s.advance 2#16).callOut n) hrun

/-! ### The meanings and the step -/

theorem endsAlike_exec (i : Instr) (hrun : s.run ≠ .faulted) (hch : ChooseAlike c info p s) :
    EndsAlike c info p (exec i s) (exec i (s.setRecord c info p)) := by
  cases i with
  | nop => exact .moved (t := s.advance 2#16) hrun
  | halt => exact .moved (t := { s.advance 2#16 with run := .halted }) (by simp)
  | syscall n => exact endsAlike_syscall hrun hch
  | mov | movi | movai | bset | bclr =>
    exact .moved (t := (s.advance 2#16).setReg _ _) hrun
  | movil => exact .moved (t := (s.advance 4#16).setReg _ _) hrun
  | add | addi | sub | subi => exact .moved (t := writeArith (s.advance 2#16) _ _) hrun
  | addil | subil => exact .moved (t := writeArith (s.advance 4#16) _ _) hrun
  | div | divil => exact endsAlike_divideStep hrun
  | mul | mulil =>
    -- Unifying the two products would unfold `BitVec.mul`; the record is moved out of them first.
    simp only [exec, execMul, execMulil, advance_setRecord, State.reg_setRecord]
    exact .moved (t := writeArith (s.advance _) _ _) hrun
  | and | or | xor | not => exact .moved (t := writeBool (s.advance 2#16) _ _) hrun
  | andil | oril | xoril => exact .moved (t := writeBool (s.advance 4#16) _ _) hrun
  | shl | shli | shr | shri | rol | roli | ror | rori | rlc | rlci | rrc | rrci =>
    exact .moved (t := writeShift (s.advance 2#16) _ _ _) hrun
  | bit => exact .moved (t := (s.advance 2#16).setFlags _) hrun
  | ret | pop | rpop =>
    exact endsAlike_advance hrun (popInto_from _ _ _)
      (popInto_setRecord (s := s.advance _) _ _)
  | ld | ldx =>
    exact endsAlike_advance hrun (loadWord_from _ _ _)
      (loadWord_setRecord (s := s.advance _) _ _)
  | ldb | ldbx =>
    exact endsAlike_advance hrun (loadByte_from _ _ _)
      (loadByte_setRecord (s := s.advance _) _ _)
  | st | stx =>
    exact endsAlike_advance hrun (memWriteWord_from _ _ _)
      (memWriteWord_setRecord (s := s.advance _) _ _)
  | stb | stbx =>
    exact endsAlike_advance hrun (memWriteByte_from _ _ _)
      (memWriteByte_setRecord (s := s.advance _) _ _)
  | push | rpush =>
    exact endsAlike_advance hrun (pushOn_from _ _ _)
      (pushOn_setRecord (s := s.advance _) _ _)
  | jp | jr | jx | jxl => exact endsAlike_unlessSkipped hrun (follows_setPc _ _) rfl
  | call | callr | callx | callxl =>
    exact endsAlike_unlessSkipped hrun (callTo_from _ _)
      (callTo_setRecord (s := s.advance _) _)

theorem endsAlike_runIllegal (w : Word) (hrun : s.run ≠ .faulted) :
    EndsAlike c info p (runIllegal w s) (runIllegal w (s.setRecord c info p)) := by
  unfold runIllegal
  rw [State.setRecord_cfg]
  cases s.cfg.illegalPolicy with
  | nop => exact .moved (t := s.advance 2#16) hrun
  | fault => exact .same _

theorem endsAlike_step (hrun : s.run = .running) (hch : ChooseAlike c info p s) :
    EndsAlike c info p (step s) (step (s.setRecord c info p)) := by
  simp only [step, runCycle, State.setRecord_run, hrun, fetch_setRecord]
  cases hf : fetch s with
  | raise cause v out => exact .same _
  | ok q =>
    obtain ⟨f, t⟩ := q
    obtain ⟨ds, imm, rfl, -⟩ := fetch_ok hf
    have ht : (s.emit ds).run ≠ .faulted := by simp [hrun]
    cases f with
    | instr i => exact endsAlike_exec i ht hch
    | illegal w => exact endsAlike_runIllegal w ht

end

/-! ## The obligations -/

/-- Settles O8, by the laws of a write and the extensionality of canonical lists. -/
theorem canonicalMemory : Obligations.CanonicalMemory := by
  refine ⟨fun s a b hm => ⟨?_, State.memOk_setByteAt hm b⟩, fun m n => Memory.eq_of_get_eq⟩
  have hwf : Memory.wf s.mem = true := by
    simp only [State.memOk, Bool.and_eq_true] at hm
    exact hm.1
  exact State.byteAt_setByteAt s hwf a b

/-- Settles O28, from what a Running step can do: the state it goes on to follows the first, or it
is fault entry with the outputs as the raise left them. -/
theorem stepKeepsConfigurationAndGrowsOutputs :
    Obligations.StepKeepsConfigurationAndGrowsOutputs := by
  intro s t hstep
  by_cases hrun : s.run = .running
  · have ho := step_outcome hrun
    rw [hstep] at ho
    obtain hfollows | ⟨cause, info, out, hraise, rfl⟩ := ho
    · exact ⟨hfollows.cfg, hfollows.diags, hfollows.calls⟩
    · exact ⟨rfl, hraise.diags, hraise.calls⟩
  · rw [step_of_not_running hrun] at hstep
    cases hstep
    exact ⟨rfl, List.prefix_rfl, List.prefix_rfl⟩

/-- Settles O30, from `endsAlike_step`: every part of a step carries the record along unread, and
fault entry overwrites it. -/
theorem faultRecordIsNeverRead : Obligations.FaultRecordIsNeverRead := by
  intro s c info p hrun hch
  have h := endsAlike_step hrun hch
  generalize step s = o, step (s.setRecord c info p) = o' at h ⊢
  cases h with
  | same o => cases o <;> simp
  | moved ht => exact .inr ⟨ht, rfl⟩

/-- Settles O31, family by family: the accesses, the stacks and the control transfers keep the
flags. -/
theorem onlyFlagWritersWriteFlags : Obligations.OnlyFlagWritersWriteFlags := by
  intro i s t hi h
  cases i with
  | nop | halt | mov | movi | movil | movai | bset | bclr =>
    cases h
    rfl
  | ret | pop | rpop => exact complete_flags (popInto_flags _ _ _) h
  | ld | ldx => exact complete_flags (loadWord_flags _ _ _) h
  | ldb | ldbx => exact complete_flags (loadByte_flags _ _ _) h
  | st | stx => exact complete_flags (memWriteWord_flags _ _ _) h
  | stb | stbx => exact complete_flags (memWriteByte_flags _ _ _) h
  | push | rpush => exact complete_flags (pushOn_flags _ _ _) h
  | jp | jr | jx | jxl => exact unlessSkipped_flags (setPc_flags _ _) h
  | call | callr | callx | callxl => exact unlessSkipped_flags (callTo_flags _ _) h
  | syscall | bit => cases hi
  | add | addi | addil | sub | subi | subil | mul | mulil | div | divil => cases hi
  | and | andil | or | oril | xor | xoril | not => cases hi
  | shl | shli | shr | shri | rol | roli | ror | rori | rlc | rlci | rrc | rrci => cases hi

end Sys2Proof.Machine

/-! PROOFS, memory. What an access emits and leaves alone, which instructions store, and that the
debug settings and the diagnostics are never read. -/

namespace Sys2Proof.Machine

/-! ## The memory primitives as one checked access -/

/-- What a memory primitive does: the check of an access of width `w` at `a` (20_memory R74, R75),
then the value `v`. -/
def checkedAccess {α : Type} (s : State) (a : Word) (w : Width) (v : α) : Res α :=
  match accessFault s.cfg a w with
  | some (cause, info) => .raise cause info s.out
  | none => .ok v

section

variable (s : State) (a : Word)

theorem memReadByte_eq_checkedAccess :
    memReadByte s a
      = checkedAccess s a .byte (s.byteAt a.toNat, s.emit (readDiags s.cfg a .byte)) := rfl

theorem memReadWord_eq_checkedAccess :
    memReadWord s a = checkedAccess s a .word (s.wordAt a, s.emit (readDiags s.cfg a .word)) := rfl

theorem memWriteByte_eq_checkedAccess (v : Byte) :
    memWriteByte s a v
      = checkedAccess s a .byte ((s.setByteAt a.toNat v).emit (writeDiags s.cfg a .byte)) := rfl

theorem memWriteWord_eq_checkedAccess (v : Word) :
    memWriteWord s a v
      = checkedAccess s a .word ((s.setWordAt a v).emit (writeDiags s.cfg a .word)) := rfl

end

/-! ## Steps that differ in the debug settings and the diagnostics alone -/

section

variable (watch : Option Word) (wp : Option (Word × Word))

/-- `s` with the debug settings `watch` and `wp` and the diagnostics `ds` in place of its own
(20_memory R77, R78). -/
def State.withDebug (ds : List Diag) (s : State) : State :=
  { s with
    cfg := { s.cfg with watch := watch, writeProtect := wp }
    out := { s.out with diags := ds } }

/-- `State.withDebug` on the state of an answer that carries a value too. -/
def withDebugSnd {α : Type} (ds : List Diag) (p : α × State) : α × State :=
  (p.1, p.2.withDebug watch wp ds)

/-- The results end alike: an answer is carried over by `carry`, and a raise differs in the
diagnostics alone. -/
inductive ResAlike {α : Type} (carry : List Diag → α → α) : Res α → Res α → Prop
  | ok (a : α) (ds : List Diag) : ResAlike carry (.ok a) (.ok (carry ds a))
  | raise (c : Cause) (info : BitVec 17) (out : Output) (ds : List Diag) :
      ResAlike carry (.raise c info out) (.raise c info { out with diags := ds })

/-- The outcomes end alike, and next states differ in the debug settings and the diagnostics
alone. -/
inductive OutcomeAlike :
    Host.Outcome State Fault Refusal → Host.Outcome State Fault Refusal → Prop
  | next (t : State) (ds : List Diag) : OutcomeAlike (.next t) (.next (t.withDebug watch wp ds))
  | fault (r : Fault) : OutcomeAlike (.fault r) (.fault r)
  | refused (r : Refusal) : OutcomeAlike (.refused r) (.refused r)

theorem ResAlike.bind {α β : Type} {carry : List Diag → α → α} {carry' : List Diag → β → β}
    {r r' : Res α} {k k' : α → Res β} (h : ResAlike carry r r')
    (hk : ∀ a ds, ResAlike carry' (k a) (k' (carry ds a))) :
    ResAlike carry' (resBind r k) (resBind r' k') := by
  cases h with
  | ok a ds => exact hk a ds
  | raise c info out ds => exact .raise c info out ds

variable {watch wp} {s : State} {ds : List Diag}

/-! ### The state, the memory primitives and the stacks -/

@[simp] theorem State.reg_withDebug (r : Reg) : (s.withDebug watch wp ds).reg r = s.reg r := rfl
@[simp] theorem State.pc_withDebug : (s.withDebug watch wp ds).pc = s.pc := rfl
@[simp] theorem State.withDebug_run : (s.withDebug watch wp ds).run = s.run := rfl
@[simp] theorem State.withDebug_flags : (s.withDebug watch wp ds).flags = s.flags := rfl

theorem advance_withDebug (k : Word) :
    (s.withDebug watch wp ds).advance k = (s.advance k).withDebug watch wp ds := rfl

/-- The check of an access reads neither debug setting. -/
theorem accessFault_withDebug (a : Word) (w : Width) :
    accessFault (s.withDebug watch wp ds).cfg a w = accessFault s.cfg a w := rfl

theorem checkedAccess_alike {α : Type} {carry : List Diag → α → α} (a : Word) (w : Width) (v : α)
    (ds' : List Diag) :
    ResAlike carry (checkedAccess s a w v)
      (checkedAccess (s.withDebug watch wp ds) a w (carry ds' v)) := by
  unfold checkedAccess
  rw [accessFault_withDebug]
  cases accessFault s.cfg a w with
  | none => exact .ok v ds'
  | some p => exact .raise p.1 p.2 s.out ds

theorem memReadByte_alike (a : Word) :
    ResAlike (withDebugSnd watch wp) (memReadByte s a)
      (memReadByte (s.withDebug watch wp ds) a) :=
  checkedAccess_alike a .byte _ (ds ++ readDiags (s.withDebug watch wp ds).cfg a .byte)

theorem memReadWord_alike (a : Word) :
    ResAlike (withDebugSnd watch wp) (memReadWord s a)
      (memReadWord (s.withDebug watch wp ds) a) :=
  checkedAccess_alike a .word _ (ds ++ readDiags (s.withDebug watch wp ds).cfg a .word)

theorem memWriteByte_alike (a : Word) (v : Byte) :
    ResAlike (State.withDebug watch wp) (memWriteByte s a v)
      (memWriteByte (s.withDebug watch wp ds) a v) :=
  checkedAccess_alike a .byte _ (ds ++ writeDiags (s.withDebug watch wp ds).cfg a .byte)

theorem memWriteWord_alike (a v : Word) :
    ResAlike (State.withDebug watch wp) (memWriteWord s a v)
      (memWriteWord (s.withDebug watch wp ds) a v) :=
  checkedAccess_alike a .word _ (ds ++ writeDiags (s.withDebug watch wp ds).cfg a .word)

theorem pushOn_alike (sp : Reg) (v : Word) :
    ResAlike (State.withDebug watch wp) (pushOn s sp v)
      (pushOn (s.withDebug watch wp ds) sp v) :=
  (memWriteWord_alike (s.reg sp) v).bind fun t ds => .ok (t.setReg sp _) ds

theorem popFrom_alike (sp : Reg) :
    ResAlike (withDebugSnd watch wp) (popFrom s sp) (popFrom (s.withDebug watch wp ds) sp) :=
  memReadWord_alike (s := s.setReg sp (s.reg sp + 2#16)) _

theorem popInto_alike (sp ra : Reg) :
    ResAlike (State.withDebug watch wp) (popInto s sp ra)
      (popInto (s.withDebug watch wp ds) sp ra) :=
  (popFrom_alike sp).bind fun p ds => .ok (p.2.setReg ra p.1) ds

theorem loadWord_alike (ra : Reg) (ea : Word) :
    ResAlike (State.withDebug watch wp) (loadWord s ra ea)
      (loadWord (s.withDebug watch wp ds) ra ea) :=
  (memReadWord_alike ea).bind fun p ds => .ok (p.2.setReg ra p.1) ds

theorem loadByte_alike (ra : Reg) (ea : Word) :
    ResAlike (State.withDebug watch wp) (loadByte s ra ea)
      (loadByte (s.withDebug watch wp ds) ra ea) :=
  (memReadByte_alike ea).bind fun p ds => .ok (p.2.setReg ra (p.1.setWidth 16)) ds

theorem callTo_alike (target : Word) :
    ResAlike (State.withDebug watch wp) (callTo s target)
      (callTo (s.withDebug watch wp ds) target) :=
  (pushOn_alike Reg.rsp s.pc).bind fun t ds => .ok (t.setPc target) ds

theorem fetch_alike :
    ResAlike (withDebugSnd watch wp) (fetch s) (fetch (s.withDebug watch wp ds)) := by
  refine (memReadWord_alike s.pc).bind fun p ds => ?_
  by_cases hlong : p.1.isLong = true
  · simp only [withDebugSnd, State.pc_withDebug, hlong, if_true]
    exact (memReadWord_alike (s.pc + 2#16)).bind fun q ds => .ok (fetchedOf p.1 q.1, q.2) ds
  · simp only [withDebugSnd, State.pc_withDebug, hlong]
    exact .ok (fetchedOf p.1 0#16, p.2) ds

/-! ### The end of a step -/

theorem outcomeAlike_complete {r r' : Res State} (h : ResAlike (State.withDebug watch wp) r r') :
    OutcomeAlike watch wp (complete s r) (complete (s.withDebug watch wp ds) r') := by
  cases h with
  | ok t ds => exact .next t ds
  | raise c info out ds => exact .next (faultEntry s c info out) ds

theorem outcomeAlike_unlessSkipped {t : State} {cond : Cond} {r r' : Res State} {ds' : List Diag}
    (h : ResAlike (State.withDebug watch wp) r r') :
    OutcomeAlike watch wp (unlessSkipped s t cond r)
      (unlessSkipped (s.withDebug watch wp ds) (t.withDebug watch wp ds') cond r') := by
  unfold unlessSkipped
  rw [State.withDebug_flags]
  split
  · exact .next t ds'
  · exact outcomeAlike_complete h

theorem outcomeAlike_divideStep {t : State} {ra : Reg} {d w : Word} :
    OutcomeAlike watch wp (divideStep s t ra d w)
      (divideStep (s.withDebug watch wp ds) (t.withDebug watch wp ds) ra d w) := by
  refine outcomeAlike_complete ?_
  split
  · exact .raise .divZero _ t.out ds
  · exact .ok (writeArith t ra _) ds

/-! ### Handlers -/

theorem runAct_alike (act : HandlerAct) :
    ResAlike (State.withDebug watch wp) (runAct s act) (runAct (s.withDebug watch wp ds) act) := by
  cases act with
  | setReg r v => exact .ok (s.setReg r v) ds
  | setFlag f b => exact .ok (s.setFlags _) ds
  | setByte a v => exact .ok (s.setByteAt _ v) ds
  | setRun r => exact .ok { s with run := r } ds
  | setRecord c info p => exact .ok (s.setRecord c info p) ds
  | dpush v => exact pushOn_alike Reg.sp v
  | dpop => exact (popFrom_alike Reg.sp).bind fun p ds => .ok p.2 ds

/-- Which acts a handler is allowed does not depend on the debug settings (70 R454). -/
theorem actAllowed_withDebug (act : HandlerAct) :
    actAllowed (s.withDebug watch wp ds).cfg act = actAllowed s.cfg act := by
  cases act <;> rfl

theorem outcomeAlike_runActs {t : State} {n : BitVec 8} {acts : List HandlerAct}
    {ds' : List Diag} :
    OutcomeAlike watch wp (runActs s n t acts)
      (runActs (s.withDebug watch wp ds) n (t.withDebug watch wp ds') acts) := by
  induction acts generalizing t ds' with
  | nil => exact .next t ds'
  | cons act rest ih =>
    unfold runActs
    rw [actAllowed_withDebug]
    split
    · have hact := runAct_alike (watch := watch) (wp := wp) (s := t) (ds := ds') act
      generalize runAct t act = r, runAct (t.withDebug watch wp ds') act = r' at hact ⊢
      cases hact with
      | ok u ds => exact ih
      | raise c info out ds => exact .next (faultEntry s c info out) ds
    · exact .refused _

/-- A handler of which nothing is known is given the same choice (log 6): it sees neither the
configuration nor the diagnostics, and its call-out has the same number. -/
theorem handlerActs_withDebug (n : BitVec 8) (h : Handler) :
    handlerActs (s.withDebug watch wp ds) n h = handlerActs s n h := by
  cases h <;> rfl

theorem outcomeAlike_syscall (n : BitVec 8) :
    OutcomeAlike watch wp (execSyscall n s) (execSyscall n (s.withDebug watch wp ds)) := by
  have hslot : handlerOf ((s.withDebug watch wp ds).advance 2#16).cfg n
      = handlerOf (s.advance 2#16).cfg n := rfl
  simp only [execSyscall, hslot]
  cases handlerOf (s.advance 2#16).cfg n with
  | none => exact .next (s.advance 2#16) ds
  | some h =>
    simp only [callHandler, advance_withDebug, handlerActs_withDebug]
    cases handlerActs (s.advance 2#16) n h with
    | none => exact .fault _
    | some acts => exact outcomeAlike_runActs (t := (s.advance 2#16).callOut n)

/-! ### The meanings and the step -/

theorem outcomeAlike_exec (i : Instr) :
    OutcomeAlike watch wp (exec i s) (exec i (s.withDebug watch wp ds)) := by
  cases i with
  | nop => exact .next (s.advance 2#16) ds
  | halt => exact .next { s.advance 2#16 with run := .halted } ds
  | syscall n => exact outcomeAlike_syscall n
  | mov | movi | movai | bset | bclr => exact .next ((s.advance 2#16).setReg _ _) ds
  | movil => exact .next ((s.advance 4#16).setReg _ _) ds
  | add | addi | sub | subi => exact .next (writeArith (s.advance 2#16) _ _) ds
  | addil | subil => exact .next (writeArith (s.advance 4#16) _ _) ds
  | mul | mulil =>
    -- Unifying the two products would unfold `BitVec.mul`; the settings are moved out first.
    simp only [exec, execMul, execMulil, advance_withDebug, State.reg_withDebug]
    exact .next (writeArith (s.advance _) _ _) ds
  | div => exact outcomeAlike_divideStep (t := s.advance 2#16)
  | divil => exact outcomeAlike_divideStep (t := s.advance 4#16)
  | and | or | xor | not => exact .next (writeBool (s.advance 2#16) _ _) ds
  | andil | oril | xoril => exact .next (writeBool (s.advance 4#16) _ _) ds
  | shl | shli | shr | shri | rol | roli | ror | rori | rlc | rlci | rrc | rrci =>
    exact .next (writeShift (s.advance 2#16) _ _ _) ds
  | bit => exact .next ((s.advance 2#16).setFlags _) ds
  | ret | pop | rpop => exact outcomeAlike_complete (popInto_alike (s := s.advance _) _ _)
  | ld | ldx => exact outcomeAlike_complete (loadWord_alike (s := s.advance _) _ _)
  | ldb | ldbx => exact outcomeAlike_complete (loadByte_alike (s := s.advance _) _ _)
  | st | stx => exact outcomeAlike_complete (memWriteWord_alike (s := s.advance _) _ _)
  | stb | stbx => exact outcomeAlike_complete (memWriteByte_alike (s := s.advance _) _ _)
  | push | rpush => exact outcomeAlike_complete (pushOn_alike (s := s.advance _) _ _)
  | jp | jr | jx | jxl =>
    exact outcomeAlike_unlessSkipped (t := s.advance _) (.ok ((s.advance _).setPc _) ds)
  | call | callr | callx | callxl =>
    exact outcomeAlike_unlessSkipped (t := s.advance _) (callTo_alike _)

theorem outcomeAlike_runIllegal (w : Word) :
    OutcomeAlike watch wp (runIllegal w s) (runIllegal w (s.withDebug watch wp ds)) := by
  have hpolicy : (s.withDebug watch wp ds).cfg.illegalPolicy = s.cfg.illegalPolicy := rfl
  unfold runIllegal
  rw [hpolicy]
  cases s.cfg.illegalPolicy with
  | nop => exact .next (s.advance 2#16) ds
  | fault => exact outcomeAlike_complete (.raise .illegal _ s.out ds)

theorem outcomeAlike_step :
    OutcomeAlike watch wp (step s) (step (s.withDebug watch wp ds)) := by
  simp only [step, runCycle, State.withDebug_run]
  cases s.run with
  | halted | faulted => exact .next s ds
  | running =>
    have hfetch := fetch_alike (watch := watch) (wp := wp) (s := s) (ds := ds)
    generalize fetch s = r, fetch (s.withDebug watch wp ds) = r' at hfetch ⊢
    cases hfetch with
    | raise c info out ds => exact .next (faultEntry s c info out) ds
    | ok p ds =>
      obtain ⟨f, t⟩ := p
      cases f with
      | instr i => exact outcomeAlike_exec i
      | illegal w => exact outcomeAlike_runIllegal w

end

/-! ## What keeps memory -/

theorem checkedAccess_keeps {α β : Type} {view : State → β} {s : State} {a : Word} {w : Width}
    {f : α → State} {v : α} (h : view (f v) = view s) :
    ResKeeps view s f (checkedAccess s a w v) := by
  unfold checkedAccess
  cases accessFault s.cfg a w with
  | none => exact h
  | some p => trivial

section

variable (s : State)

/-- A read changes the output stream alone. -/
theorem memReadByte_mem (a : Word) : ResKeeps State.mem s Prod.snd (memReadByte s a) := by
  rw [memReadByte_eq_checkedAccess]
  exact checkedAccess_keeps rfl

theorem memReadWord_mem (a : Word) : ResKeeps State.mem s Prod.snd (memReadWord s a) := by
  rw [memReadWord_eq_checkedAccess]
  exact checkedAccess_keeps rfl

theorem loadWord_mem (ra : Reg) (ea : Word) : ResKeeps State.mem s id (loadWord s ra ea) :=
  (memReadWord_mem s ea).bind fun _ => rfl

theorem loadByte_mem (ra : Reg) (ea : Word) : ResKeeps State.mem s id (loadByte s ra ea) :=
  (memReadByte_mem s ea).bind fun _ => rfl

theorem popInto_mem (sp ra : Reg) : ResKeeps State.mem s id (popInto s sp ra) :=
  (memReadWord_mem (s.setReg sp _) _).bind fun _ => rfl

end

/-- A step that ends with a result from the state with pc advanced keeps memory if the result does:
fault entry keeps it (60_exceptions R404). -/
theorem complete_mem {s t : State} {k : Word} {r : Res State}
    (hr : ResKeeps State.mem (s.advance k) id r) (h : complete s r = .next t) : t.mem = s.mem :=
  ResKeeps.complete (view := State.mem) hr (fun _ _ _ => rfl) h

/-- A jump, taken or skipped, keeps memory. -/
theorem unlessSkipped_setPc_mem {s t : State} {k target : Word} {cond : Cond}
    (h : unlessSkipped s (s.advance k) cond (.ok ((s.advance k).setPc target)) = .next t) :
    t.mem = s.mem := by
  unfold unlessSkipped at h
  split at h <;> cases h <;> rfl

theorem divideStep_mem {s t : State} {k : Word} {ra : Reg} {d w : Word}
    (h : divideStep s (s.advance k) ra d w = .next t) : t.mem = s.mem := by
  unfold divideStep at h
  split at h <;> cases h <;> rfl

/-! ## Words as numbers, and sound memory -/

theorem State.wf_of_memOk {s : State} (h : s.memOk = true) : Memory.wf s.mem = true := by
  simp only [State.memOk, Bool.and_eq_true] at h
  exact h.1

theorem toNat_low8 (w : Word) : w.low8.toNat = w.toNat % 256 := by
  simp [Word.low8]

theorem toNat_high8 (w : Word) : w.high8.toNat = w.toNat / 256 := by
  have := w.isLt
  simp [Word.high8, Nat.shiftRight_eq_div_pow]
  omega

/-- The word that lies at `a` is the one a read of `a` answers (20_memory R72). -/
theorem holdsWord_iff {s : State} {a v : Word} : HoldsWord s a v ↔ s.wordAt a = v := by
  have hlow : (s.wordAt a).toNat % 256 = (s.byteAt a.toNat).toNat := by
    rw [← toNat_low8, State.wordAt, low8_ofBytes]
  have hhigh : (s.wordAt a).toNat / 256 = (s.byteAt (a.toNat + 1)).toNat := by
    rw [← toNat_high8, State.wordAt, high8_ofBytes]
  rw [HoldsWord, ← BitVec.toNat_inj]
  omega

/-! ## The events of an access -/

theorem mem_touched {a : Word} {w : Width} {b : Nat} : b ∈ touched a w ↔ Touches a w b := by
  cases w <;> simp [touched, Touches]

theorem misaligned_iff {a : Word} {w : Width} :
    misaligned a w = true ↔ w = .word ∧ a.toNat % 2 = 1 := by
  cases w with
  | byte => simp [misaligned]
  | word => rw [misaligned, getLsbD_zero_eq, decide_eq_true_eq, eq_self, true_and]

theorem isProtected_iff {cfg : Config} {b : Nat} : isProtected cfg b = true ↔
    ∃ lo hi, cfg.writeProtect = some (lo, hi) ∧ lo.toNat ≤ b ∧ b ≤ hi.toNat := by
  unfold isProtected
  cases cfg.writeProtect with
  | none => simp
  | some p =>
    obtain ⟨lo, hi⟩ := p
    simp [and_assoc]

theorem mem_watchDiags {cfg : Config} {bs : List Nat} {d : Diag} : d ∈ watchDiags cfg bs ↔
    ∃ wa, cfg.watch = some wa ∧ wa.toNat ∈ bs ∧ d = .watch wa.toNat := by
  unfold watchDiags
  cases cfg.watch <;> simp

theorem mem_readDiags {cfg : Config} {a : Word} {w : Width} {d : Diag} :
    d ∈ readDiags cfg a w ↔ ((w = .word ∧ a.toNat % 2 = 1) ∧ d = .align a.toNat) ∨
      ∃ wa, cfg.watch = some wa ∧ Touches a w wa.toNat ∧ d = .watch wa.toNat := by
  simp [readDiags, misaligned_iff, mem_watchDiags, mem_touched]

/-- A store emits what a read does and WPROT for each protected byte (20_memory R77). -/
theorem mem_writeDiags {cfg : Config} {a : Word} {w : Width} {d : Diag} :
    d ∈ writeDiags cfg a w ↔
      d ∈ readDiags cfg a w ∨ ∃ b, Touches a w b ∧ isProtected cfg b = true ∧ .wprot b = d := by
  simp only [writeDiags, readDiags, List.mem_append, List.mem_map, List.mem_filter, mem_touched,
    and_assoc]
  exact or_right_comm

theorem accessEvents_readDiags (cfg : Config) (a : Word) (w : Width) :
    AccessEvents cfg a w false (readDiags cfg a w) where
  align i := by
    simp only [mem_readDiags, Diag.align.injEq, reduceCtorEq, and_false, exists_false, or_false]
    constructor
    · rintro ⟨⟨hw, hodd⟩, rfl⟩
      exact ⟨hw, rfl, hodd⟩
    · rintro ⟨hw, rfl, hodd⟩
      exact ⟨⟨hw, hodd⟩, rfl⟩
  wprot b := by simp [mem_readDiags]
  watch b := by
    simp only [mem_readDiags, Diag.watch.injEq, reduceCtorEq, and_false, false_or]
    constructor
    · rintro ⟨wa, hwatch, htouch, rfl⟩
      exact ⟨⟨wa, hwatch, rfl⟩, htouch⟩
    · rintro ⟨⟨wa, hwatch, rfl⟩, htouch⟩
      exact ⟨wa, hwatch, htouch, rfl⟩

theorem accessEvents_writeDiags (cfg : Config) (a : Word) (w : Width) :
    AccessEvents cfg a w true (writeDiags cfg a w) where
  align i := by simpa [mem_writeDiags] using (accessEvents_readDiags cfg a w).align i
  wprot b := by simp [mem_writeDiags, mem_readDiags, isProtected_iff]
  watch b := by simpa [mem_writeDiags] using (accessEvents_readDiags cfg a w).watch b

/-! ## What a part of a step emits -/

theorem accessFault_none_iff {s : State} {a : Word} {w : Width} :
    accessFault s.cfg a w = none ↔ s.AccessOk a w := by
  cases w with
  | byte => exact accessFault_byte_none
  | word => exact accessFault_word_none

/-- The result of a part of a step from `s` emits the events of its one access, of width `w` at `a`;
it raises where the access does, and then emits none (log 14). -/
def ResEmits {α : Type} (s : State) (a : Word) (w : Width) (stores : Bool) (f : α → State) :
    Res α → Prop
  | .ok v => s.AccessOk a w ∧
      ∃ ds, (f v).out.diags = s.out.diags ++ ds ∧ AccessEvents s.cfg a w stores ds
  | .raise _ _ out => ¬ s.AccessOk a w ∧ out.diags = s.out.diags

section

variable {α β : Type} {s : State} {a : Word} {w : Width} {stores : Bool}

theorem checkedAccess_emits {f : α → State} {v : α} {ds : List Diag}
    (hv : (f v).out.diags = s.out.diags ++ ds) (hds : AccessEvents s.cfg a w stores ds) :
    ResEmits s a w stores f (checkedAccess s a w v) := by
  unfold checkedAccess
  cases h : accessFault s.cfg a w with
  | none => exact ⟨accessFault_none_iff.1 h, ds, hv, hds⟩
  | some p => exact ⟨fun hok => by simp [accessFault_none_iff.2 hok] at h, rfl⟩

/-- What follows the access emits nothing. -/
theorem ResEmits.bind {f : α → State} {g : β → State} {r : Res α} {k : α → β}
    (h : ResEmits s a w stores f r) (hk : ∀ v, (g (k v)).out = (f v).out) :
    ResEmits s a w stores g (resBind r fun v => .ok (k v)) := by
  cases r with
  | ok v =>
    obtain ⟨hok, ds, hds, hev⟩ := h
    exact ⟨hok, ds, hk v ▸ hds, hev⟩
  | raise c info out => exact h

/-- Only the configuration and the events emitted before count of the state a part began in. -/
theorem ResEmits.of_same {t : State} {f : α → State} {r : Res α} (h : ResEmits t a w stores f r)
    (hcfg : t.cfg = s.cfg) (hout : t.out.diags = s.out.diags) : ResEmits s a w stores f r := by
  have hok : t.AccessOk a w ↔ s.AccessOk a w := by
    rw [← accessFault_none_iff, hcfg, accessFault_none_iff]
  cases r with
  | ok v =>
    obtain ⟨ht, ds, hds, hev⟩ := h
    exact ⟨hok.1 ht, ds, hout ▸ hds, hcfg ▸ hev⟩
  | raise c info out => exact ⟨mt hok.2 h.1, h.2.trans hout⟩

variable (s a)

theorem memReadByte_emits : ResEmits s a .byte false Prod.snd (memReadByte s a) := by
  rw [memReadByte_eq_checkedAccess]
  exact checkedAccess_emits rfl (accessEvents_readDiags _ _ _)

theorem memReadWord_emits : ResEmits s a .word false Prod.snd (memReadWord s a) := by
  rw [memReadWord_eq_checkedAccess]
  exact checkedAccess_emits rfl (accessEvents_readDiags _ _ _)

theorem memWriteByte_emits (v : Byte) : ResEmits s a .byte true id (memWriteByte s a v) := by
  rw [memWriteByte_eq_checkedAccess]
  exact checkedAccess_emits rfl (accessEvents_writeDiags _ _ _)

theorem memWriteWord_emits (v : Word) : ResEmits s a .word true id (memWriteWord s a v) := by
  rw [memWriteWord_eq_checkedAccess]
  exact checkedAccess_emits rfl (accessEvents_writeDiags _ _ _)

theorem loadWord_emits (ra : Reg) : ResEmits s a .word false id (loadWord s ra a) :=
  (memReadWord_emits s a).bind fun _ => rfl

theorem loadByte_emits (ra : Reg) : ResEmits s a .byte false id (loadByte s ra a) :=
  (memReadByte_emits s a).bind fun _ => rfl

theorem pushOn_emits (sp : Reg) (v : Word) :
    ResEmits s (s.reg sp) .word true id (pushOn s sp v) :=
  (memWriteWord_emits s (s.reg sp) v).bind fun _ => rfl

theorem popFrom_emits (sp : Reg) :
    ResEmits s (s.reg sp + 2#16) .word false Prod.snd (popFrom s sp) := by
  simp only [popFrom, State.reg_setReg, if_true]
  exact (memReadWord_emits (s.setReg sp _) _).of_same rfl rfl

theorem popInto_emits (sp ra : Reg) :
    ResEmits s (s.reg sp + 2#16) .word false id (popInto s sp ra) :=
  (popFrom_emits s sp).bind fun _ => rfl

theorem callTo_emits (target : Word) :
    ResEmits s (s.reg Reg.rsp) .word true id (callTo s target) :=
  (pushOn_emits s Reg.rsp s.pc).bind fun _ => rfl

end

/-! ## What a step emits -/

section

variable {s : State} {a : Word} {w : Width} {stores : Bool}

theorem emitsFor_complete {r : Res State} (h : ResEmits s a w stores id r) :
    EmitsFor s a w stores (complete s r) := by
  cases r with
  | ok t =>
    obtain ⟨hok, ds, hds, hev⟩ := h
    exact ⟨t, ds, rfl, hds, fun _ => hev, fun hraise => absurd hok hraise⟩
  | raise c info out =>
    obtain ⟨hraise, hout⟩ := h
    exact ⟨faultEntry s c info out, [], rfl, by simpa using hout,
      fun hok => absurd hok hraise, fun _ => rfl⟩

/-- The end of a step whose part ran from the state with pc advanced. -/
theorem emitsFor_advance {k : Word} {r : Res State}
    (h : ResEmits (s.advance k) a w stores id r) : EmitsFor s a w stores (complete s r) :=
  emitsFor_complete (h.of_same rfl rfl)

/-- What a meaning reads as `x[r]` is the register after the fetch's advance (40_cycle R158). -/
theorem operand_eq_reg_advance (k : Word) (r : Reg) : operand s k r = (s.advance k).reg r :=
  (s.reg_advance r k).symm

theorem reg_advance_of_ne (k : Word) {r : Reg} (h : r ≠ Reg.pc) :
    (s.advance k).reg r = s.reg r := by
  simp [h]

variable {sp : Reg}

theorem emitsFor_push {k v : Word} (hsp : sp ≠ Reg.pc) :
    EmitsFor s (s.reg sp) .word true (complete s (pushOn (s.advance k) sp v)) := by
  rw [← reg_advance_of_ne k hsp]
  exact emitsFor_advance (pushOn_emits _ sp v)

theorem emitsFor_pop {k : Word} {ra : Reg} (hsp : sp ≠ Reg.pc) :
    EmitsFor s (s.reg sp + 2#16) .word false (complete s (popInto (s.advance k) sp ra)) := by
  rw [← reg_advance_of_ne k hsp]
  exact emitsFor_advance (popInto_emits _ sp ra)

/-- An instruction is taken exactly where it is not skipped (40_cycle R153). -/
theorem skips_eq_false_iff {cond : Cond} {fl : Flags} : skips cond fl = false ↔ Taken cond fl := by
  unfold skips Taken
  cases cond.ce <;> simp

theorem emitsFor_call {k target : Word} {cond : Cond} (h : Taken cond s.flags) :
    EmitsFor s (s.reg 14#4) .word true
      (unlessSkipped s (s.advance k) cond (callTo (s.advance k) target)) := by
  rw [unlessSkipped, State.advance_flags, skips_eq_false_iff.2 h,
    ← reg_advance_of_ne k (show (14#4 : Reg) ≠ Reg.pc by decide)]
  exact emitsFor_advance (callTo_emits _ target)

/-! ### A handler of one act -/

theorem exec_syscall_script {n : BitVec 8} {acts : List HandlerAct}
    (hn : n.toNat < s.cfg.tableSize) (hslot : s.cfg.handlers.lookup n = some (.script acts)) :
    exec (.syscall n) s = runActs s n ((s.advance 2#16).callOut n) acts := by
  simp only [exec, execSyscall, State.advance_cfg, handlerOf_eq_some.2 ⟨hn, hslot⟩]
  rfl

theorem runActs_singleton {t : State} {n : BitVec 8} {act : HandlerAct}
    (h : actAllowed t.cfg act = true) : runActs s n t [act] = complete s (runAct t act) := by
  simp only [runActs, h, if_true]
  cases runAct t act <;> rfl

/-- A SYSCALL whose handler is one act emits what that act emits, done after the call-out. -/
theorem emitsFor_syscall {n : BitVec 8} {act : HandlerAct} (hn : n.toNat < s.cfg.tableSize)
    (hslot : s.cfg.handlers.lookup n = some (.script [act]))
    (hallowed : actAllowed s.cfg act = true)
    (h : ResEmits ((s.advance 2#16).callOut n) a w stores id
      (runAct ((s.advance 2#16).callOut n) act)) :
    EmitsFor s a w stores (exec (.syscall n) s) := by
  rw [exec_syscall_script hn hslot, runActs_singleton (t := (s.advance 2#16).callOut n) hallowed]
  exact emitsFor_complete (h.of_same rfl rfl)

/-! ### A fetch that raises -/

theorem memReadWord_raise (h : ¬ s.WordOk a) :
    ∃ c info, memReadWord s a = .raise c info s.out :=
  (memReadWord_cases s a).resolve_right fun hok => h hok.1

theorem step_of_fetch_raise {c : Cause} {info : BitVec 17} {out : Output}
    (hrun : s.run = .running) (h : fetch s = .raise c info out) :
    step s = .next (faultEntry s c info out) := by
  simp only [step, runCycle, hrun, h]

theorem fetch_raise_first (h : ¬ s.WordOk s.pc) : ∃ c info, fetch s = .raise c info s.out := by
  obtain ⟨c, info, hraise⟩ := memReadWord_raise h
  exact ⟨c, info, by rw [fetch, hraise]; rfl⟩

/-- Where the trailing fetch raises, the events of the first stay (log 14). -/
theorem fetch_raise_trailing (hpc : s.WordOk s.pc) (hlong : (s.wordAt s.pc).isLong = true)
    (h : ¬ s.WordOk (s.pc + 2#16)) :
    ∃ c info, fetch s = .raise c info (s.emit (readDiags s.cfg s.pc .word)).out := by
  obtain ⟨c, info, hraise⟩ :=
    memReadWord_raise (s := s.emit (readDiags s.cfg s.pc .word)) (a := s.pc + 2#16) h
  exact ⟨c, info, by simp only [fetch, memReadWord_ok hpc, resBind, hlong, if_true, hraise]⟩

end

/-! ## The obligations -/

/-- Settles O29, from `outcomeAlike_step`: every part of a step carries the debug settings along
unread and only appends to the diagnostics. -/
theorem diagnosticsNeverInfluence : Obligations.DiagnosticsNeverInfluence := by
  intro s ds watch wp
  have h := outcomeAlike_step (watch := watch) (wp := wp) (s := s) (ds := ds)
  unfold State.withDebug at h
  generalize step s = o at h ⊢
  generalize step _ = o' at h ⊢
  cases h <;> rfl

/-- Settles O9, by the laws of a word write and of its read back. -/
theorem wordsAreLittleEndian : Obligations.WordsAreLittleEndian := by
  intro s a v hm hok
  have hwf := State.wf_of_memOk hm
  refine ⟨_, memWriteWord_ok hok v, ?_, ?_, fun i hlow hhigh => ?_, ?_⟩
  · simp [State.byteAt_setWordAt s hwf, toNat_low8]
  · simp [State.byteAt_setWordAt s hwf, toNat_high8]
  · simp [State.byteAt_setWordAt s hwf, hlow, hhigh]
  · rw [memReadWord_ok (s := (s.setWordAt a v).emit _) hok, State.wordAt_emit,
      State.wordAt_setWordAt s hwf]
    exact ⟨_, rfl⟩

/-- Settles O10: each access emits its own events (`memReadWord_emits` and the like), and the parts
of a step around it emit nothing. -/
theorem accessDiagnostics : Obligations.AccessDiagnostics := by
  have hsp : Reg.sp ≠ Reg.pc := by decide
  have hrsp : Reg.rsp ≠ Reg.pc := by decide
  refine ⟨fun cfg a => accessEvents_readDiags cfg a .word, ?_, ?_, ?_, ?_⟩
  · intro s hrun hpc
    obtain ⟨c, info, hfetch⟩ := fetch_raise_first hpc
    exact ⟨_, step_of_fetch_raise hrun hfetch, rfl⟩
  · intro s w hrun hpc hw hlong htrail
    rw [← holdsWord_iff.1 hw] at hlong
    obtain ⟨c, info, hfetch⟩ := fetch_raise_trailing hpc hlong htrail
    exact ⟨_, step_of_fetch_raise hrun hfetch, rfl⟩
  · intro s n v hn
    have hreg : ((s.advance 2#16).callOut n).reg Reg.sp = s.reg 13#4 := reg_advance_of_ne 2#16 hsp
    rw [← hreg]
    exact ⟨fun hslot => emitsFor_syscall hn hslot rfl (pushOn_emits _ Reg.sp v),
      fun hslot => emitsFor_syscall hn hslot rfl ((popFrom_emits _ Reg.sp).bind fun _ => rfl)⟩
  · intro s ra rb x k p d imm cond
    simp only [operand_eq_reg_advance]
    exact ⟨emitsFor_advance (loadWord_emits _ _ ra), emitsFor_advance (loadByte_emits _ _ ra),
      emitsFor_advance (memWriteWord_emits _ _ _), emitsFor_advance (memWriteByte_emits _ _ _),
      emitsFor_advance (loadWord_emits _ _ ra), emitsFor_advance (loadByte_emits _ _ ra),
      emitsFor_advance (memWriteWord_emits _ _ _), emitsFor_advance (memWriteByte_emits _ _ _),
      emitsFor_push hsp, emitsFor_pop hsp, emitsFor_push hrsp, emitsFor_pop hrsp,
      emitsFor_pop hrsp,
      fun ht => ⟨emitsFor_call ht, emitsFor_call ht, emitsFor_call ht, emitsFor_call ht⟩⟩

/-- Settles O32, family by family: reads, jumps and the register operations keep memory. -/
theorem onlyStoresWriteMemory : Obligations.OnlyStoresWriteMemory := by
  intro i s t hi h
  cases i with
  | st | stb | stx | stbx | push | rpush | call | callr | callx | callxl | syscall => cases hi
  | nop | halt | mov | movi | movil | movai | bit | bset | bclr
  | add | addi | addil | sub | subi | subil | mul | mulil
  | and | andil | or | oril | xor | xoril | not
  | shl | shli | shr | shri | rol | roli | ror | rori | rlc | rlci | rrc | rrci =>
    cases h
    rfl
  | div | divil => exact divideStep_mem h
  | ret | pop | rpop => exact complete_mem (popInto_mem _ _ _) h
  | ld | ldx => exact complete_mem (loadWord_mem _ _ _) h
  | ldb | ldbx => exact complete_mem (loadByte_mem _ _ _) h
  | jp | jr | jx | jxl => exact unlessSkipped_setPc_mem h

end Sys2Proof.Machine

/-! PROOFS, encoding. The decoder and the encoder undo each other, the illegal words, the length the
first word tells, the operands' ranges and fields, and what ignored fields leave alone. -/

namespace Sys2Proof

/-! ## The fields of a word, packed again -/

section

variable (w : Word)

/-- A bit of a word by its value. -/
theorem getLsbD_eq_decide (i : Nat) : w.getLsbD i = decide (w.toNat / 2 ^ i % 2 = 1) := by
  rw [BitVec.getLsbD, Nat.testBit_eq_decide_div_mod_eq]

theorem isControl_eq_decide : w.isControl = decide (0x8000 ≤ w.toNat) := by
  have hlt := w.isLt
  rw [Word.isControl, getLsbD_eq_decide, decide_eq_decide]
  omega

theorem toNat_op : w.op.toNat = w.toNat / 256 % 128 := by
  simp [Word.op, Nat.shiftRight_eq_div_pow]

end

theorem bits_ofBits : ∀ b : BitVec 2, (Flag.ofBits b).bits = b := by decide

section

variable {w : Word}

theorem isControl_eq_false_iff : w.isControl = false ↔ w.toNat < 0x8000 := by
  rw [isControl_eq_decide, decide_eq_false_iff_not, not_le]

theorem toNat_op_of_general (h : w.toNat < 0x8000) : w.op.toNat = w.toNat / 256 := by
  rw [toNat_op]
  omega

/-- The high byte of a general word is its opcode (30_encoding R112). -/
theorem ofNat_op_eq_high8 (hc : w.isControl = false) {n : Nat} (hop : w.op.toNat = n) :
    BitVec.ofNat 8 n = w.high8 := by
  have hlt := isControl_eq_false_iff.1 hc
  rw [← BitVec.toNat_inj, Machine.toNat_high8, ← toNat_op_of_general hlt, hop,
    BitVec.toNat_ofNat, Nat.mod_eq_of_lt (by omega)]

theorem packByte_of_op (hc : w.isControl = false) {n : Nat} (hop : w.op.toNat = n) :
    packByte (BitVec.ofNat 8 n) w.low8 = w := by
  rw [ofNat_op_eq_high8 hc hop, packByte, ofBytes_high8_low8]

theorem packGeneral_of_op (hc : w.isControl = false) {n : Nat} (hop : w.op.toNat = n) :
    packGeneral (BitVec.ofNat 8 n) w.fieldA w.fieldB = w := by
  rw [packGeneral, packNibbles_fields, packByte_of_op hc hop]

/-- A control-flow word is its fields packed (30_encoding R113). -/
theorem packControl_fields (hc : w.isControl = true) :
    packControl (w.extractLsb' 14 1) w.cond (w.extractLsb' 8 2) w.low8 = w := by
  apply BitVec.eq_of_getLsbD_eq
  intro i hi
  by_cases h : i < 8
  · rw [packControl, getLsbD_ofBytes, if_pos h, Word.low8, BitVec.getLsbD_extractLsb']
    simp [h]
  · obtain ⟨j, hj, rfl⟩ : ∃ j, j < 8 ∧ i = 8 + j := ⟨i - 8, by omega, by omega⟩
    rw [Word.isControl] at hc
    rw [getLsbD_packControl _ _ _ _ j hj]
    obtain rfl | rfl | rfl | rfl | rfl | rfl | rfl | rfl :
      j = 0 ∨ j = 1 ∨ j = 2 ∨ j = 3 ∨ j = 4 ∨ j = 5 ∨ j = 6 ∨ j = 7 := by omega
    all_goals simp [controlBits, Word.cond, bits_ofBits, hc]

/-- Whether a general word is long, by its opcode (30_encoding R117). -/
theorem isLong_of_op (hc : w.isControl = false) {n : Nat} (hop : w.op.toNat = n) :
    w.isLong = longOpcodes.contains (BitVec.ofNat 7 n) := by
  rw [Word.isLong, hc, ← hop, BitVec.ofNat_toNat, BitVec.setWidth_eq]
  rfl

end

/-! ## The encoder undoes the decoder -/

/-- The words of an instruction whose first word is `w`, `imm` being the word after it
(30_encoding R117). -/
def wordsFrom (w imm : Word) : List Word := if w.isLong then [w, imm] else [w]

/-- Opcode by opcode: the encoder writes the opcode decoded, which is the word's high byte
(30_encoding R118). -/
theorem encode_decodeGeneral {w imm : Word} {i : Instr} (hc : w.isControl = false)
    (h : decodeGeneral w imm = some i) : encode i = wordsFrom w imm := by
  unfold decodeGeneral at h
  split at h
  case h_53 => cases h
  all_goals
    rename_i hop
    cases h
    simp [encode, wordsFrom, packByte_of_op hc hop, packGeneral_of_op hc hop, isLong_of_op hc hop,
      longOpcodes]

/-- Every control-flow word is its fields packed (30_encoding R113). -/
theorem exists_packControl {w : Word} (hc : w.isControl = true) :
    ∃ call cond mode a b, w = packControl call cond mode (packNibbles a b) :=
  ⟨_, _, _, w.fieldA, w.fieldB, by rw [packNibbles_fields, packControl_fields hc]⟩

/-- MODE by MODE, for jumps and calls: the encoder packs the fields decoded (30_encoding R119). -/
theorem encode_decodeControl {w : Word} (imm : Word) (hc : w.isControl = true) :
    encode (decodeControl w imm) = wordsFrom w imm := by
  obtain ⟨call, cond, mode, a, b, rfl⟩ := exists_packControl hc
  have hcall : ∀ l : BitVec 1, l = 0#1 ∨ l = 1#1 := by decide
  have hmode : ∀ m : BitVec 2, m = 0#2 ∨ m = 1#2 ∨ m = 2#2 ∨ m = 3#2 := by decide
  obtain rfl | rfl := hcall call
  all_goals
    obtain rfl | rfl | rfl | rfl := hmode mode
    all_goals simp [decodeControl, encode, wordsFrom]

/-- The words decoded are the words the encoder writes (30_encoding R124). -/
theorem encode_of_decode {w imm : Word} {i : Instr} (h : decode w imm = some i) :
    encode i = wordsFrom w imm := by
  rw [decode] at h
  split at h
  case isTrue hc =>
    cases h
    exact encode_decodeControl imm hc
  case isFalse hc => exact encode_decodeGeneral (Bool.eq_false_of_not_eq_true hc) h

/-- Bytes that decode are the words decoded, and the rest. -/
theorem decodeBytes_eq_ok {bs rest : List Byte} {i : Instr}
    (h : decodeBytes bs = .ok (i, rest)) :
    ∃ w imm, decode w imm = some i ∧ bs = (wordsFrom w imm).flatMap Word.bytes ++ rest := by
  unfold decodeBytes at h
  split at h
  case h_2 => cases h
  case h_1 b0 b1 tail =>
    simp only at h
    split at h
    case isTrue hl =>
      split at h
      case h_2 => cases h
      case h_1 b2 b3 rest' =>
        split at h
        case h_2 => cases h
        case h_1 j hd =>
          cases h
          exact ⟨_, _, hd, by simp [wordsFrom, hl, Word.bytes]⟩
    case isFalse hl =>
      split at h
      case h_2 => cases h
      case h_1 j hd =>
        cases h
        exact ⟨_, _, hd, by simp [wordsFrom, hl, Word.bytes]⟩

/-! ## The decoder undoes the encoder -/

/-- The first word of an instruction. -/
def Instr.firstWord (i : Instr) : Word := (encode i).getD 0 0#16

/-- The trailing word of an instruction, 0 where it has none. -/
def Instr.trailingWord (i : Instr) : Word := (encode i).getD 1 0#16

/-- Each field the encoder packs is read back by the decoder: the opcode first, which leaves one arm
of the decoder's table, then the operands. -/
theorem decode_firstWord (i : Instr) : decode i.firstWord i.trailingWord = some i := by
  rw [Instr.firstWord, Instr.trailingWord]
  cases i with
  | jp | jr | jx | jxl | call | callr | callx | callxl => simp [encode, decode, decodeControl]
  | nop | halt | ret | syscall | movai =>
    rw [encode, List.getD_cons_zero, decode, isControl_packByte, decodeGeneral, op_packByte]
    refine congrArg some ?_
    simp
  | _ =>
    rw [encode, List.getD_cons_zero, decode, isControl_packGeneral, decodeGeneral, op_packGeneral]
    refine congrArg some ?_
    simp

theorem encode_eq_wordsFrom (i : Instr) : encode i = wordsFrom i.firstWord i.trailingWord :=
  encode_of_decode (decode_firstWord i)

theorem trailingWord_of_short {i : Instr} (h : i.firstWord.isLong = false) :
    i.trailingWord = 0#16 := by
  rw [Instr.trailingWord, encode_eq_wordsFrom, wordsFrom, h]
  rfl

/-- The bytes of an instruction's words decode as the words do. -/
theorem decodeBytes_wordsFrom {w imm : Word} {i : Instr} (h : decode w imm = some i)
    (hshort : w.isLong = false → imm = 0#16) (rest : List Byte) :
    decodeBytes ((wordsFrom w imm).flatMap Word.bytes ++ rest) = .ok (i, rest) := by
  cases hl : w.isLong with
  | true => simp [wordsFrom, Word.bytes, decodeBytes, hl, h]
  | false =>
    obtain rfl := hshort hl
    simp [wordsFrom, Word.bytes, decodeBytes, hl, h]

/-! ## Illegal words -/

/-- The decoder's table lists the assigned opcodes, each once (30_encoding R118). -/
theorem decodeGeneral_eq_none_iff {w imm : Word} :
    decodeGeneral w imm = none ↔ w.op.toNat ∉ Machine.assignedOpcodes := by
  unfold decodeGeneral
  split
  case h_53 =>
    simp only [Machine.assignedOpcodes, List.cons_append, List.nil_append, List.mem_cons,
      List.not_mem_nil, or_false, not_or, true_iff]
    and_intros <;> assumption
  all_goals
    rename_i hop
    exact iff_of_false (Option.some_ne_none _) (by rw [hop]; decide)

theorem decode_eq_none_iff {w imm : Word} :
    decode w imm = none ↔ w.isControl = false ∧ w.op.toNat ∉ Machine.assignedOpcodes := by
  rw [decode, ← decodeGeneral_eq_none_iff (imm := imm)]
  cases w.isControl <;> simp

/-- Illegal words by their value (30_encoding R120). -/
theorem decode_eq_none_iff_toNat {w imm : Word} : decode w imm = none ↔
    w.toNat < 0x8000 ∧ w.toNat / 256 ∉ Machine.assignedOpcodes := by
  rw [decode_eq_none_iff, isControl_eq_false_iff]
  exact and_congr_right fun h => by rw [toNat_op_of_general h]

/-- An illegal word is short, the long opcodes being assigned ones (30_encoding R117). -/
theorem isLong_of_decode_none {w imm : Word} (h : decode w imm = none) : w.isLong = false := by
  obtain ⟨hc, hop⟩ := decode_eq_none_iff.1 h
  have hassigned : ∀ op ∈ longOpcodes, op.toNat ∈ Machine.assignedOpcodes := by decide
  rw [Word.isLong, hc]
  simpa using mt (hassigned w.op) hop

/-- Long words by their value (30_encoding R117). -/
theorem isLong_iff {w : Word} : w.isLong = true ↔
      (w.toNat < 0x8000 ∧ w.toNat / 256 ∈
        [0x0A, 0x12, 0x16, 0x1A, 0x1E, 0x22, 0x26, 0x2A, 0x4C, 0x4D, 0x4E, 0x4F])
      ∨ (0x8000 ≤ w.toNat ∧ (w.toNat / 256 % 4 = 0 ∨ w.toNat / 256 % 4 = 3)) := by
  by_cases h : 0x8000 ≤ w.toNat
  · rw [Word.isLong, isControl_eq_decide, if_pos (decide_eq_true h), getLsbD_eq_decide,
      getLsbD_eq_decide, beq_iff_eq, decide_eq_decide]
    omega
  · have hlt : w.toNat < 0x8000 := by omega
    rw [Word.isLong, isControl_eq_false_iff.2 hlt, if_neg Bool.false_ne_true,
      List.contains_iff_mem, ← List.mem_map_of_injective BitVec.toNat_injective,
      toNat_op_of_general hlt]
    simp [longOpcodes, hlt, h]

/-! ## What the assembler emits for an operand -/

theorem encodeBytes_ne_nil (i : Instr) : encodeBytes i ≠ [] := by
  rw [encodeBytes, encode_eq_wordsFrom, wordsFrom]
  split <;> simp [Word.bytes]

/-- The least value a range class accepts (30_encoding R135). -/
def RangeClass.least : RangeClass → Int
  | .tinySigned => -8
  | .tinyUnsigned | .byteUnsigned => 0
  | .byteSigned => -128
  | .word => -32768

/-- The greatest value a range class accepts (30_encoding R135). -/
def RangeClass.greatest : RangeClass → Int
  | .tinySigned => 7
  | .tinyUnsigned => 15
  | .byteSigned => 127
  | .byteUnsigned => 255
  | .word => 65535

theorem RangeClass.accepts_iff (k : RangeClass) (v : Int) :
    k.accepts v = true ↔ k.least ≤ v ∧ v ≤ k.greatest := by
  cases k <;> simp [accepts, least, greatest]

theorem RangeClass.accepts_eq_false_iff (k : RangeClass) (v : Int) :
    k.accepts v = false ↔ v < k.least ∨ k.greatest < v := by
  rw [← Bool.not_eq_true, accepts_iff]
  omega

theorem RangeClass.toNat_emod_lt (k : RangeClass) (v : Int) :
    (v % 2 ^ k.width).toNat < 2 ^ k.width := by
  have := Int.emod_lt_of_pos v (show (0 : Int) < 2 ^ k.width by positivity)
  zify
  omega

section

variable {i : Instr} {k : RangeClass} {v : Int}

/-- No byte is emitted exactly on a RangeError (30_encoding R135). -/
theorem Instr.emitWith_eq_nil_iff (h : i.rangeClass = some k) :
    i.emitWith v = [] ↔ v < k.least ∨ k.greatest < v := by
  rw [← RangeClass.accepts_eq_false_iff, ← withOperand_eq_none h, emitWith]
  cases i.withOperand v with
  | none => simp
  | some j => simp [encodeBytes_ne_nil]

theorem Instr.emitWith_eq_nil_of_mem {l : List Instr} (hl : ∀ i ∈ l, i.rangeClass = some k) :
    ∀ i ∈ l, i.emitWith v = [] ↔ v < k.least ∨ k.greatest < v :=
  fun i hi => emitWith_eq_nil_iff (hl i hi)

theorem Instr.emitWith_of_accepts (h : i.rangeClass = some k) (hv : k.accepts v = true) :
    i.emitWith v = encodeBytes (i.withField (v % 2 ^ k.width).toNat) := by
  simp [emitWith, withOperand, h, RangeClass.field, hv]

theorem Instr.emitWith_of_rangeClass_none (h : i.rangeClass = none) :
    i.emitWith v = encodeBytes i := by
  simp [emitWith, withOperand, h]

theorem Instr.withField_withField (i : Instr) (f g : Nat) :
    (i.withField f).withField g = i.withField g := by
  cases i <;> rfl

theorem Instr.withField_operandField {f : Nat} (h : i.operandField = some f) :
    i.withField f = i := by
  cases i <;> cases h <;> simp [withField]

/-- What an accepted value makes of an instruction: its field is the value modulo 2 to the width,
and putting the old field back gives the old instruction. -/
theorem Instr.exists_emitWith (h : i.rangeClass = some k) (hne : i.emitWith v ≠ []) :
    ∃ j : Instr, i.emitWith v = encodeBytes j
      ∧ j.operandField = some (v % 2 ^ k.width).toNat
      ∧ ∀ f, i.operandField = some f → j.withField f = i := by
  have hv : k.accepts v = true := by
    rw [Ne, emitWith_eq_nil_iff h, ← RangeClass.accepts_eq_false_iff] at hne
    simpa using hne
  refine ⟨_, emitWith_of_accepts h hv, operandField_withField h (k.toNat_emod_lt v), fun f hf => ?_⟩
  rw [withField_withField, withField_operandField hf]

end

/-! ## Relative displacements -/

section

variable {target here : Word} {d : BitVec 8}

theorem relativeDisp_eq_none_iff : relativeDisp target here = none ↔
    relativeDistance target here < -128 ∨ 127 < relativeDistance target here := by
  have h := RangeClass.byteSigned.accepts_eq_false_iff (relativeDistance target here)
  rw [relativeDisp, Option.map_eq_none_iff, RangeClass.field, ite_eq_right_iff]
  simpa [RangeClass.least, RangeClass.greatest] using h

/-- A displacement is the byte-signed field of the distance (30_encoding R135). -/
theorem relativeDisp_eq_some (h : relativeDisp target here = some d) :
    RangeClass.byteSigned.accepts (relativeDistance target here) = true
      ∧ d.toNat = (relativeDistance target here % 2 ^ RangeClass.byteSigned.width).toNat := by
  obtain ⟨f, hf, rfl⟩ := Option.map_eq_some_iff.1 h
  rw [RangeClass.field, Option.ite_none_right_eq_some, Option.some_inj] at hf
  obtain ⟨hv, rfl⟩ := hf
  have hlt := RangeClass.byteSigned.toNat_emod_lt (relativeDistance target here)
  exact ⟨hv, (BitVec.toNat_ofNat _ 8).trans (Nat.mod_eq_of_lt hlt)⟩

theorem toInt_relativeDisp (h : relativeDisp target here = some d) :
    d.toInt = relativeDistance target here := by
  obtain ⟨hv, hd⟩ := relativeDisp_eq_some h
  obtain ⟨hlow, hhigh⟩ := (RangeClass.accepts_iff _ _).1 hv
  simp only [RangeClass.least, RangeClass.greatest, RangeClass.width] at hlow hhigh hd
  rw [BitVec.toInt_eq_toNat_bmod, hd, Int.bmod_def]
  omega

/-- What an instruction with a byte-signed operand emits for a distance in range. -/
theorem Instr.emitWith_relativeDistance {i : Instr} (hi : i.rangeClass = some .byteSigned)
    (h : relativeDisp target here = some d) :
    i.emitWith (relativeDistance target here) = encodeBytes (i.withField d.toNat) := by
  obtain ⟨hv, hd⟩ := relativeDisp_eq_some h
  rw [emitWith_of_accepts hi hv, hd]

end

end Sys2Proof

namespace Sys2Proof.Machine

/-! ## The jump by a displacement -/

/-- The displacement to an address an even distance away is undone by the jump's target
(48_control_transfer R361). -/
theorem relativeTarget_of_relativeDisp {target here : Word} {d : BitVec 8} {t : State}
    (h : relativeDisp target here = some d) (heven : target.toNat % 2 = here.toNat % 2)
    (hpc : t.pc = here + 2#16) : relativeTarget t d = target := by
  have hd := toInt_relativeDisp h
  have ht := target.isLt
  have hh := here.isLt
  rw [relativeDistance] at hd
  rw [relativeTarget, simm8, BitVec.signExtend, hd, hpc, ← BitVec.toNat_inj]
  simp only [BitVec.toNat_add, BitVec.toNat_shiftLeft, BitVec.toNat_ofInt, BitVec.toNat_ofNat,
    Nat.shiftLeft_eq]
  omega

theorem execJr_of_taken {cond : Cond} {s : State} (h : Taken cond s.flags) (d : BitVec 8) :
    execJr cond d s = .next ((s.advance 2#16).setPc (relativeTarget (s.advance 2#16) d)) := by
  simp only [execJr, unlessSkipped, State.advance_flags, skips_eq_false_iff.2 h]
  rfl

/-! ## The step of an illegal word -/

theorem fetch_of_short {s : State} (hpc : s.WordOk s.pc) (h : (s.wordAt s.pc).isLong = false) :
    fetch s = .ok (fetchedOf (s.wordAt s.pc) 0#16, s.emit (readDiags s.cfg s.pc .word)) := by
  simp [fetch, memReadWord_ok hpc, resBind, h]

/-- An illegal word is fetched alone, its read's events emitted, and goes to the policy
(30_encoding R120). -/
theorem step_of_illegal {s : State} (hrun : s.run = .running) (hpc : s.WordOk s.pc)
    (h : decode (s.wordAt s.pc) 0#16 = none) :
    step s = runIllegal (s.wordAt s.pc) (s.emit (readDiags s.cfg s.pc .word)) := by
  simp only [step, runCycle, hrun, fetch_of_short hpc (isLong_of_decode_none h), fetchedOf, h]

theorem frame_advance_emit (s : State) (k : Word) (ds : List Diag) :
    Frame s ((s.emit ds).advance k) k (fun _ => False) (fun _ => False) where
  regs r _ := (operand_eq_reg_advance k r).symm
  bytes _ _ := rfl
  control := ⟨rfl, rfl, rfl, rfl, rfl⟩
  calls := rfl

/-- The record of an ILLEGAL fault holds the word (60_exceptions R403). -/
theorem faultedAs_illegal (s : State) (w : Word) (ds : List Diag) (out : Output) :
    FaultedAs s (faultEntry (s.emit ds) .illegal (w.setWidth 17) out) 4 w.toNat where
  run := rfl
  fcause := rfl
  finfo := BitVec.toNat_setWidth_of_le (by omega)
  fpc := rfl
  regs := rfl
  flags := rfl
  mem := rfl
  cfg := rfl

/-! ## Ignored fields -/

section

variable {s t : State}

/-- A division that does not raise does not use the instruction word. -/
theorem divideStep_of_ne_zero {ra : Reg} {d : Word} (h : d ≠ 0#16) (w : Word) :
    divideStep s t ra d w = .next (writeArith t ra (zext32 (t.reg ra) / zext32 d)) := by
  rw [divideStep, if_neg h]
  rfl

/-- With CE = 0 nothing is skipped, whatever INV and CC say (40_cycle R153). -/
theorem unlessSkipped_of_unconditional (inv : Bool) (cc : Flag) (r : Res State) :
    unlessSkipped s t ⟨false, inv, cc⟩ r = complete s r := rfl

end

/-! ## The obligations -/

/-- Settles O1: the encoder writes the words its first word tells, which decode to the instruction. -/
theorem decodeUndoesEncode : Obligations.DecodeUndoesEncode := by
  intro i rest
  rw [encodeBytes, encode_eq_wordsFrom]
  exact decodeBytes_wordsFrom (decode_firstWord i) trailingWord_of_short rest

/-- Settles O2: bytes that decode are the words decoded, which the encoder gives back. -/
theorem encodeUndoesDecode : Obligations.EncodeUndoesDecode := by
  intro bs i rest h
  obtain ⟨w, imm, hd, hbs⟩ := decodeBytes_eq_ok h
  rw [hbs, encodeBytes, encode_of_decode hd]

/-- Settles O3, from the decoder's table of general opcodes. -/
theorem illegalWordsAreTheUnassignedOpcodes :
    Obligations.IllegalWordsAreTheUnassignedOpcodes :=
  ⟨fun _ _ => decode_eq_none_iff_toNat, by decide⟩

/-- Settles O4: the encoder undoes the decoder, and the long opcodes are assigned ones. -/
theorem lengthFromFirstWord : Obligations.LengthFromFirstWord :=
  ⟨fun _ _ _ => encode_of_decode, fun _ _ => isLong_of_decode_none, fun _ => isLong_iff⟩

/-- Settles O5 by running the decoder. -/
theorem exampleWordsDecode : Obligations.ExampleWordsDecode := by
  unfold Obligations.ExampleWordsDecode
  decide

/-- Settles O6: no meaning takes an ignored field but DIVIL's, which uses it for its fault alone; and
with CE = 0 the condition test does not look at INV and CC. -/
theorem ignoredFieldsChangeNothing : Obligations.IgnoredFieldsChangeNothing := by
  intro s ra x y p q imm cond inv inv' cc cc' d
  have hdivil (hne : imm ≠ 0#16) : exec (.divil ra x imm) s = exec (.divil ra y imm) s :=
    (divideStep_of_ne_zero hne _).trans (divideStep_of_ne_zero hne _).symm
  refine ⟨rfl, rfl, rfl, rfl, rfl, rfl, rfl, hdivil, rfl, rfl, rfl, rfl, rfl, rfl, rfl, rfl,
    rfl, rfl, rfl, rfl, ?_⟩
  simp only [exec, execJp, execJr, execJx, execJxl, execCall, execCallr, execCallx, execCallxl,
    unlessSkipped_of_unconditional, and_self]

/-- Settles O7, class by class and by what a field written reads as. -/
theorem assembledOperands : Obligations.AssembledOperands := by
  refine ⟨fun ra rb x k p imm cond v => ⟨?_, ?_, ?_, ?_, ?_⟩,
    fun i v k h hne => Instr.exists_emitWith h hne,
    fun i v h => Instr.emitWith_of_rangeClass_none h, fun target here =>
      ⟨relativeDisp_eq_none_iff, fun d s cond h => ⟨fun q => ?_, fun heven hpc ht => ?_⟩⟩⟩
  · exact Instr.emitWith_eq_nil_of_mem (k := .tinySigned) (by simp [Instr.rangeClass])
  · exact Instr.emitWith_eq_nil_of_mem (k := .tinyUnsigned) (by simp [Instr.rangeClass])
  · exact Instr.emitWith_eq_nil_of_mem (k := .byteSigned) (by simp [Instr.rangeClass])
  · exact Instr.emitWith_eq_nil_iff (k := .byteUnsigned) rfl
  · exact Instr.emitWith_eq_nil_of_mem (k := .word) (by simp [Instr.rangeClass])
  · have hjr := Instr.emitWith_relativeDistance (i := .jr cond q) rfl h
    have hcallr := Instr.emitWith_relativeDistance (i := .callr cond q) rfl h
    exact ⟨by simpa [Instr.withField] using hjr, by simpa [Instr.withField] using hcallr⟩
  · refine ⟨_, execJr_of_taken ht d, ?_⟩
    rw [State.pc_setPc, relativeTarget_of_relativeDisp h heven (by rw [State.pc_advance, hpc])]

/-- Settles O13, from `step_of_illegal`, policy by policy. -/
theorem illegalOpcodeStep : Obligations.IllegalOpcodeStep := by
  intro s w hrun hpc hw hgeneral hop
  obtain rfl := holdsWord_iff.1 hw
  have hillegal : decode (s.wordAt s.pc) 0#16 = none :=
    decode_eq_none_iff_toNat.2 ⟨hgeneral, hop⟩
  rw [step_of_illegal hrun hpc hillegal, runIllegal, State.emit_cfg]
  constructor
  · intro hp
    rw [hp]
    exact ⟨_, rfl, rfl, frame_advance_emit s _ _⟩
  · intro hp
    rw [hp]
    exact ⟨_, rfl, faultedAs_illegal s _ _ _⟩

end Sys2Proof.Machine

/-! PROOFS, cycle. What a step does when it fetches, faults or runs a decoded instruction, what ends
Running, `run()`, and the flag functions. -/

namespace Sys2Proof.Machine

/-! ## The flag functions as numbers -/

theorem eq_zero_eq_decide (r : Word) : (r == 0#16) = decide (r.toNat = 0) := by
  rw [beq_eq_decide, decide_eq_decide, BitVec.toNat_eq]
  rfl

theorem getLsbD_fifteen_eq_decide (r : Word) : r.getLsbD 15 = decide (2 ^ 15 ≤ r.toNat) :=
  r.msb_eq_getLsbD_last.symm.trans r.msb_eq_decide

/-- The bit from which on `O_MASK` selects (00_scope R7). -/
def oMaskLowBit : OMask → Nat
  | .above16 => 17
  | .from16  => 16

theorem oMaskBits_eq_shiftLeft (m : OMask) :
    oMaskBits m = BitVec.allOnes 32 <<< oMaskLowBit m := by
  cases m <;> decide

/-- Nothing is left of a number below the bit from which on a mask selects. -/
theorem and_allOnes_shiftLeft_eq_zero_iff {w : Nat} (r : BitVec w) (k : Nat) :
    r &&& (BitVec.allOnes w <<< k) = 0#w ↔ r.toNat < 2 ^ k := by
  have hlt : r.toNat / 2 ^ k * 2 ^ k < 2 ^ w := (Nat.div_mul_le_self _ _).trans_lt r.isLt
  rw [← BitVec.shiftLeft_ushiftRight, ← BitVec.toNat_inj]
  simp [BitVec.toNat_shiftLeft, Nat.shiftRight_eq_div_pow, Nat.shiftLeft_eq, Nat.mod_eq_of_lt hlt,
    Nat.div_eq_zero_iff]

/-- O of `arith_flags` is set from the mask's lowest bit on (40_cycle R170). -/
theorem arithFlags_o (m : OMask) (r : BitVec 32) :
    (arithFlags m r).o = decide (2 ^ oMaskLowBit m ≤ r.toNat) := by
  change (r &&& oMaskBits m != 0#32) = _
  rw [bne, beq_eq_decide, ← decide_not, decide_eq_decide, oMaskBits_eq_shiftLeft,
    and_allOnes_shiftLeft_eq_zero_iff, not_lt]

theorem arithFlags_z (m : OMask) (r : BitVec 32) :
    (arithFlags m r).z = decide (r.toNat % 2 ^ 16 = 0) := by
  simp only [arithFlags, eq_zero_eq_decide, BitVec.extractLsb'_toNat, Nat.shiftRight_zero]

theorem skips_iff_not_taken {cond : Cond} {fl : Flags} :
    skips cond fl = true ↔ ¬ Taken cond fl := by
  rw [← skips_eq_false_iff, Bool.not_eq_false]

/-! ## Fetching a decoded instruction -/

section

variable {s : State}

theorem fetch_of_long (hpc : s.WordOk s.pc) (h : (s.wordAt s.pc).isLong = true)
    (htrail : s.WordOk (s.pc + 2#16)) :
    fetch s = .ok (fetchedOf (s.wordAt s.pc) (s.wordAt (s.pc + 2#16)),
      s.emit (readDiags s.cfg s.pc .word ++ readDiags s.cfg (s.pc + 2#16) .word)) := by
  have hread := memReadWord_ok (s := s.emit (readDiags s.cfg s.pc .word)) (a := s.pc + 2#16) htrail
  simp [fetch, memReadWord_ok hpc, resBind, h, hread, State.emit_emit]

/-- The word after a one-word instruction is not part of it (30_encoding R124). -/
theorem decode_zero_of_short {w imm : Word} {i : Instr} (h : decode w imm = some i)
    (hshort : w.isLong = false) : decode w 0#16 = some i := by
  have hwords : encode i = [w] := by rw [encode_of_decode h, wordsFrom, hshort]; rfl
  simpa [Instr.firstWord, Instr.trailingWord, hwords] using decode_firstWord i

theorem step_of_fetch_instr {i : Instr} {t : State} (hrun : s.run = .running)
    (h : fetch s = .ok (.instr i, t)) : step s = exec i t := by
  simp only [step, runCycle, hrun, h]

theorem step_of_fetch_illegal {w : Word} {t : State} (hrun : s.run = .running)
    (h : fetch s = .ok (.illegal w, t)) : step s = runIllegal w t := by
  simp only [step, runCycle, hrun, h]

/-- With the address even and no watch set, a word read emits nothing (20_memory R75, R78). -/
theorem readDiags_eq_nil {cfg : Config} {a : Word} (heven : a.toNat % 2 = 0)
    (hwatch : cfg.watch = none) : readDiags cfg a .word = [] := by
  have haligned : misaligned a .word = false := by
    rw [misaligned, getLsbD_zero_eq, heven]
    rfl
  simp [readDiags, haligned, watchDiags, hwatch]

/-- Everything a Running step can be: fault entry by the fetch, or the meaning of the word decoded
at pc, or the illegal-opcode policy, from the state with the fetch's events emitted. -/
theorem step_running_cases (hrun : s.run = .running) :
    (∃ c info out, step s = .next (faultEntry s c info out))
    ∨ ∃ ds imm,
      (∃ i, decode (s.wordAt s.pc) imm = some i ∧ step s = exec i (s.emit ds))
      ∨ (decode (s.wordAt s.pc) imm = none
          ∧ step s = runIllegal (s.wordAt s.pc) (s.emit ds)) := by
  cases hf : fetch s with
  | raise c info out => exact .inl ⟨c, info, out, step_of_fetch_raise hrun hf⟩
  | ok p =>
    obtain ⟨f, t⟩ := p
    obtain ⟨ds, imm, rfl, rfl⟩ := fetch_ok hf
    refine .inr ⟨ds, imm, ?_⟩
    unfold fetchedOf at hf
    split at hf
    case h_1 i hd => exact .inl ⟨i, hd, step_of_fetch_instr hrun hf⟩
    case h_2 hd => exact .inr ⟨hd, step_of_fetch_illegal hrun hf⟩

end

/-! ## Faults of a word access -/

theorem faultedAs_faultEntry (s : State) (c : Cause) (info : BitVec 17) (out : Output) :
    FaultedAs s (faultEntry s c info out) (causeCode c).toNat info.toNat :=
  ⟨rfl, rfl, rfl, rfl, rfl, rfl, rfl, rfl⟩

section

variable {s : State} {made : List (BitVec 8)} {a : Word} {o : Host.Outcome State Fault Refusal}
  {out : Output}

/-- An outcome that is fault entry with whatever a word access at `a` raises meets the three ways
such an access can raise (20_memory R74, R75). -/
theorem wordFaultsAfter_of_faultEntry (hdiags : s.out.diags <+: out.diags)
    (hcalls : out.calls = s.out.calls ++ made)
    (h : ∀ c info, accessFault s.cfg a .word = some (c, info) →
      o = .next (faultEntry s c info out)) :
    WordFaultsAfter s made a o := by
  have ha := a.isLt
  have faults {c : Cause} {info : BitVec 17} {n : Nat}
      (hf : accessFault s.cfg a .word = some (c, info)) (hn : info.toNat = n) :
      FaultsAfter s made o (causeCode c).toNat n :=
    ⟨_, h c info hf, hn ▸ faultedAs_faultEntry s c info out, hdiags, hcalls⟩
  refine ⟨fun hb => faults (accessFault_word_first hb) ?_,
    fun hb => faults (accessFault_word_second hb) ?_,
    fun hb hp ho => faults (accessFault_word_misaligned hb hp ho) ?_⟩
  · exact (BitVec.toNat_ofNat _ 17).trans (Nat.mod_eq_of_lt (by omega))
  · exact (BitVec.toNat_ofNat _ 17).trans (Nat.mod_eq_of_lt (by omega))
  · exact BitVec.toNat_setWidth_of_le (by omega)

theorem memReadWord_of_accessFault {c : Cause} {info : BitVec 17}
    (h : accessFault s.cfg a .word = some (c, info)) :
    memReadWord s a = .raise c info s.out := by
  rw [memReadWord, h]

end

/-! ## What keeps the run state -/

/-- `view` looks at nothing that a register write, a byte write or an emission changes. -/
structure AccessKeeps {β : Type} (view : State → β) : Prop where
  setReg    : ∀ s r v, view (State.setReg s r v) = view s
  setByteAt : ∀ s a b, view (State.setByteAt s a b) = view s
  emit      : ∀ s ds, view (State.emit s ds) = view s

theorem accessKeeps_run : AccessKeeps State.run :=
  ⟨fun _ _ _ => rfl, fun _ _ _ => rfl, fun _ _ => rfl⟩

section

variable {β : Type} {view : State → β} (h : AccessKeeps view) (s : State)

include h

theorem memReadByte_keeps (a : Word) :
    ResKeeps view s Prod.snd (memReadByte s a) := by
  rw [memReadByte_eq_checkedAccess]
  exact checkedAccess_keeps (h.emit _ _)

theorem memReadWord_keeps (a : Word) :
    ResKeeps view s Prod.snd (memReadWord s a) := by
  rw [memReadWord_eq_checkedAccess]
  exact checkedAccess_keeps (h.emit _ _)

theorem memWriteByte_keeps (a : Word) (v : Byte) :
    ResKeeps view s id (memWriteByte s a v) := by
  rw [memWriteByte_eq_checkedAccess]
  exact checkedAccess_keeps ((h.emit _ _).trans (h.setByteAt _ _ _))

theorem memWriteWord_keeps (a v : Word) :
    ResKeeps view s id (memWriteWord s a v) := by
  rw [memWriteWord_eq_checkedAccess]
  exact checkedAccess_keeps
    ((h.emit _ _).trans ((h.setByteAt _ _ _).trans (h.setByteAt _ _ _)))

theorem setPc_keeps (v : Word) : ResKeeps view s id (.ok (s.setPc v)) := h.setReg s _ v

theorem pushOn_keeps (sp : Reg) (v : Word) : ResKeeps view s id (pushOn s sp v) :=
  (memWriteWord_keeps h s _ v).bind fun t => h.setReg t _ _

theorem loadWord_keeps (ra : Reg) (ea : Word) :
    ResKeeps view s id (loadWord s ra ea) :=
  (memReadWord_keeps h s ea).bind fun p => h.setReg p.2 _ _

theorem loadByte_keeps (ra : Reg) (ea : Word) :
    ResKeeps view s id (loadByte s ra ea) :=
  (memReadByte_keeps h s ea).bind fun p => h.setReg p.2 _ _

theorem popFrom_keeps (sp : Reg) : ResKeeps view s Prod.snd (popFrom s sp) := by
  have hread := memReadWord_keeps h (s.setReg sp (s.reg sp + 2#16))
    ((s.setReg sp (s.reg sp + 2#16)).reg sp)
  unfold ResKeeps at hread
  rwa [h.setReg] at hread

theorem popInto_keeps (sp ra : Reg) : ResKeeps view s id (popInto s sp ra) :=
  (popFrom_keeps h s sp).bind fun p => h.setReg p.2 _ _

theorem callTo_keeps (target : Word) : ResKeeps view s id (callTo s target) :=
  (pushOn_keeps h s Reg.rsp s.pc).bind fun t => h.setReg t _ _

end

section

variable {s t : State} {k : Word} {r : Res State}

/-- A step that ends with a result from the state with pc advanced leaves the run state where the
result does, or enters Faulted. -/
theorem complete_run (hr : ResKeeps State.run (s.advance k) id r) (h : complete s r = .next t) :
    t.run = .faulted ∨ t.run = s.run := by
  cases r with
  | ok u =>
    cases h
    exact .inr hr
  | raise c info out =>
    cases h
    exact .inl rfl

theorem unlessSkipped_run {cond : Cond} (hr : ResKeeps State.run (s.advance k) id r)
    (h : unlessSkipped s (s.advance k) cond r = .next t) : t.run = .faulted ∨ t.run = s.run := by
  unfold unlessSkipped at h
  split at h
  · cases h
    exact .inr rfl
  · exact complete_run hr h

theorem divideStep_run {ra : Reg} {d w : Word} (h : divideStep s (s.advance k) ra d w = .next t) :
    t.run = .faulted ∨ t.run = s.run := by
  refine complete_run (k := k) ?_ h
  split
  · trivial
  · rfl

theorem runIllegal_run {w : Word} (h : runIllegal w s = .next t) :
    t.run = .faulted ∨ t.run = s.run := by
  unfold runIllegal at h
  split at h <;> cases h
  · exact .inr rfl
  · exact .inl rfl

/-- The instruction is HALT, or a SYSCALL of a filled slot of the table. -/
def EndsRunning (cfg : Config) (i : Instr) : Prop :=
  (∃ x, i = .halt x)
  ∨ ∃ n, i = .syscall n ∧ n.toNat < cfg.tableSize ∧ (cfg.handlers.lookup n).isSome = true

/-- Any meaning but HALT's and a handler's leaves the run state or enters Faulted
(40_cycle R163). -/
theorem exec_run {i : Instr} (h : exec i s = .next t) :
    EndsRunning s.cfg i ∨ t.run = .faulted ∨ t.run = s.run := by
  have keeps := accessKeeps_run
  cases i with
  | halt x => exact .inl (.inl ⟨x, rfl⟩)
  | syscall n =>
    cases hslot : handlerOf s.cfg n with
    | some hd =>
      obtain ⟨hn, hfilled⟩ := handlerOf_eq_some.1 hslot
      exact .inl (.inr ⟨n, rfl, hn, Option.isSome_of_eq_some hfilled⟩)
    | none =>
      simp only [exec, execSyscall, State.advance_cfg, hslot] at h
      cases h
      exact .inr (.inr rfl)
  | nop | mov | movi | movil | movai | bit | bset | bclr
  | add | addi | addil | sub | subi | subil | mul | mulil
  | and | andil | or | oril | xor | xoril | not
  | shl | shli | shr | shri | rol | roli | ror | rori | rlc | rlci | rrc | rrci =>
    cases h
    exact .inr (.inr rfl)
  | div | divil => exact .inr (divideStep_run h)
  | ret | pop | rpop => exact .inr (complete_run (popInto_keeps keeps _ _ _) h)
  | ld | ldx => exact .inr (complete_run (loadWord_keeps keeps _ _ _) h)
  | ldb | ldbx => exact .inr (complete_run (loadByte_keeps keeps _ _ _) h)
  | st | stx => exact .inr (complete_run (memWriteWord_keeps keeps _ _ _) h)
  | stb | stbx => exact .inr (complete_run (memWriteByte_keeps keeps _ _ _) h)
  | push | rpush => exact .inr (complete_run (pushOn_keeps keeps _ _ _) h)
  | jp | jr | jx | jxl => exact .inr (unlessSkipped_run (setPc_keeps keeps _ _) h)
  | call | callr | callx | callxl => exact .inr (unlessSkipped_run (callTo_keeps keeps _ _) h)

end

/-! ## run() -/

theorem runBounded_of_not_running {s : State} (h : s.run ≠ .running) (k : Nat) :
    runBounded k s = .next s := by
  cases k with
  | zero => rfl
  | succ k => exact if_neg h

theorem runBounded_succ {s : State} (h : s.run = .running) (k : Nat) :
    runBounded (k + 1) s =
      match step s with
      | .next t => runBounded k t
      | .fault r => .fault r
      | .refused r => .refused r := if_pos h

/-- A larger bound goes on from the state the smaller one reaches. -/
theorem runBounded_add {k m : Nat} {s t : State} (h : runBounded k s = .next t) :
    runBounded (k + m) s = runBounded m t := by
  induction k generalizing s with
  | zero =>
    cases h
    rw [Nat.zero_add]
  | succ k ih =>
    by_cases hrun : s.run = .running
    · rw [Nat.add_right_comm, runBounded_succ hrun]
      rw [runBounded_succ hrun] at h
      cases hstep : step s with
      | next u =>
        rw [hstep] at h
        exact ih h
      | fault r | refused r =>
        rw [hstep] at h
        cases h
    · rw [runBounded_of_not_running hrun] at h ⊢
      cases h
      rw [runBounded_of_not_running hrun]

/-! ## The obligations -/

/-- Settles O16: any meaning but HALT's and a handler's leaves the run state or enters Faulted,
and so do a fetch that raises and the illegal-opcode policy. -/
theorem runningIsLeftOnlyByFaultHaltOrHandler :
    Obligations.RunningIsLeftOnlyByFaultHaltOrHandler := by
  intro s t hrun hstep hleft
  have of_run (h : t.run = .faulted ∨ t.run = s.run) : t.run = .faulted :=
    h.resolve_right fun hsame => hleft (hsame.trans hrun)
  obtain ⟨c, info, out, hfetch⟩ | ⟨ds, imm, ⟨i, hd, hexec⟩ | ⟨-, hillegal⟩⟩ :=
    step_running_cases hrun
  · rw [hfetch] at hstep
    cases hstep
    exact .inl rfl
  · obtain hends | hkeeps := exec_run (hexec.symm.trans hstep)
    · refine .inr ⟨s.wordAt s.pc, imm, holdsWord_iff.2 rfl, ?_⟩
      obtain ⟨x, rfl⟩ | ⟨n, rfl, hslot⟩ := hends
      · exact .inl ⟨x, hd⟩
      · exact .inr ⟨n, hd, hslot⟩
    · exact .inl (of_run hkeeps)
  · exact .inl (of_run (runIllegal_run (s := s.emit ds) (hillegal.symm.trans hstep)))

/-- Settles O14: the step is fault entry with what the first fetch raises. -/
theorem firstFetchFaults : Obligations.FirstFetchFaults := by
  intro s hrun
  refine wordFaultsAfter_of_faultEntry List.prefix_rfl (List.append_nil _).symm fun c info hf => ?_
  exact step_of_fetch_raise hrun (by rw [fetch, memReadWord_of_accessFault hf]; rfl)

/-- Settles O15: the step is fault entry with what the trailing fetch raises, and the outputs as the
first fetch left them. -/
theorem trailingFetchFaults : Obligations.TrailingFetchFaults := by
  intro s w hrun hpc hw hlong
  obtain rfl := holdsWord_iff.1 hw
  refine wordFaultsAfter_of_faultEntry List.prefix_rfl (List.append_nil _).symm fun c info hf => ?_
  have hfetch : fetch s = .raise c info (s.emit (readDiags s.cfg s.pc .word)).out := by
    simp only [fetch, memReadWord_ok hpc, resBind, hlong, if_true, memReadWord_of_accessFault hf]
  exact step_of_fetch_raise hrun hfetch

/-- Settles O17, the bounds adding up by `runBounded_add`. -/
theorem runRepeatsStep : Obligations.RunRepeatsStep :=
  ⟨fun k _ h => runBounded_of_not_running h k, fun _ => rfl, fun k _ h => runBounded_succ h k,
    fun _ _ _ _ => runBounded_add⟩

/-- Settles O11, by `step_of_not_running`. -/
theorem stepWhenNotRunning : Obligations.StepWhenNotRunning := fun _ => step_of_not_running

/-- Settles O12, for one-word and long forms; from an even pc with no watch set neither
fetch emits. -/
theorem stepRunsDecoded : Obligations.StepRunsDecoded := by
  intro s w imm i hrun hpc hw htrail hd
  obtain rfl := holdsWord_iff.1 hw
  have hstep : step s = exec i (s.emit (readDiags s.cfg s.pc .word
      ++ if (s.wordAt s.pc).isLong then readDiags s.cfg (s.pc + 2#16) .word else [])) := by
    cases hlong : (s.wordAt s.pc).isLong with
    | true =>
      obtain ⟨hok, himm⟩ := htrail hlong
      refine step_of_fetch_instr hrun ?_
      rw [fetch_of_long hpc hlong hok, holdsWord_iff.1 himm, fetchedOf, hd]
      rfl
    | false =>
      refine step_of_fetch_instr hrun ?_
      rw [fetch_of_short hpc hlong, fetchedOf, decode_zero_of_short hd hlong]
      simp
  refine ⟨hstep, fun heven hwatch => ?_⟩
  have heven' : (s.pc + 2#16).toNat % 2 = 0 := by
    rw [BitVec.toNat_add, BitVec.toNat_ofNat]
    omega
  simpa [readDiags_eq_nil heven hwatch, readDiags_eq_nil heven' hwatch] using hstep

/-- Settles O33, flag by flag. -/
theorem flagFunctions : Obligations.FlagFunctions := by
  refine ⟨fun m r => ⟨rfl, arithFlags_z m r, rfl, ?_⟩,
    fun f r => ⟨rfl, eq_zero_eq_decide r, getLsbD_zero_eq r, getLsbD_fifteen_eq_decide r⟩,
    fun f r n cout => ⟨?_, eq_zero_eq_decide r, getLsbD_fifteen_eq_decide r, rfl⟩,
    fun cond f => skips_iff_not_taken⟩
  · rw [arithFlags_o]
    cases m <;> rfl
  · simp only [shiftFlags, ← BitVec.toNat_inj]
    rfl

end Sys2Proof.Machine

/-! PROOFS, moves. Words written as the rules write them decode to the instructions the encoder
writes so, what a register write after the advance leaves alone, and the four moves. -/

namespace Sys2Proof.Machine

/-! ## Words written from the rules -/

section

variable {w imm : Word} {i : Instr}

/-- A first word without a second decodes alike whatever follows it (30_encoding R124). -/
theorem decode_of_encode_short (h : encode i = [w]) (imm : Word) : decode w imm = some i := by
  have hzero : decode w 0#16 = some i := by
    simpa [Instr.firstWord, Instr.trailingWord, h] using decode_firstWord i
  have hshort : w.isLong = false := by
    have hwords := encode_of_decode hzero
    by_contra hlong
    simp [h, wordsFrom, hlong] at hwords
  cases hd : decode w imm with
  | none => simp [decode_none_imm 0#16 hd] at hzero
  | some j => rw [← hzero, decode_zero_of_short hd hshort]

theorem decode_of_encode_long (h : encode i = [w, imm]) : decode w imm = some i := by
  simpa [Instr.firstWord, Instr.trailingWord, h] using decode_firstWord i

/-- A word decodes to what the encoder writes with it, alone or before the word that follows. -/
theorem decodesTo_of_encode {mk : Word → Instr}
    (h : ∀ imm, encode (mk imm) = [w] ∨ encode (mk imm) = [w, imm]) : DecodesTo w mk := fun imm =>
  (h imm).elim (fun hs => decode_of_encode_short hs imm) decode_of_encode_long

end

/-- The nibbles of a byte, each at its place in a word (30_encoding R118). -/
theorem setWidth_packNibbles (a b : BitVec 4) :
    (packNibbles a b).setWidth 16 = (a.setWidth 16 <<< 4) ||| b.setWidth 16 := by
  apply BitVec.eq_of_getLsbD_eq
  intro i hi
  rw [BitVec.getLsbD_setWidth, getLsbD_packNibbles]
  by_cases h : i < 4
  · simp [h, hi]
  · have hb : b.getLsbD i = false := BitVec.getLsbD_of_ge b i (by omega)
    simp [h, hi, hb]

section

variable {base : Word}

/-- A base word with an empty low byte is the opcode's byte, which the field then follows
(30_encoding R118). -/
theorem word1_eq_packByte (h : base.low8 = 0#8) (low : BitVec 8) :
    word1 base low = packByte base.high8 low := by
  have hbase : Word.ofBytes base.high8 0#8 = base := h ▸ ofBytes_high8_low8 base
  rw [word1, packByte, ← hbase, high8_ofBytes]
  simp [Word.ofBytes]

theorem word2_eq_packGeneral (h : base.low8 = 0#8) (a b : BitVec 4) :
    word2 base a b = packGeneral base.high8 a b := by
  rw [packGeneral, ← word1_eq_packByte h, word1, setWidth_packNibbles, ← BitVec.or_assoc, word2]

theorem decodesTo_word1 {mk : Word → Instr} {low : BitVec 8} (h : base.low8 = 0#8)
    (hmk : ∀ imm, encode (mk imm) = [packByte base.high8 low]) :
    DecodesTo (word1 base low) mk :=
  word1_eq_packByte h low ▸ decodesTo_of_encode fun imm => .inl (hmk imm)

theorem decodesTo_word2 {mk : Word → Instr} {a b : BitVec 4} (h : base.low8 = 0#8)
    (hmk : ∀ imm, encode (mk imm) = [packGeneral base.high8 a b]
      ∨ encode (mk imm) = [packGeneral base.high8 a b, imm]) :
    DecodesTo (word2 base a b) mk :=
  word2_eq_packGeneral h a b ▸ decodesTo_of_encode hmk

end

/-! ## What a move writes -/

/-- A register write after the advance leaves the rest alone; into register 15 it replaces the advanced
pc (40_cycle R158, R159). -/
theorem wroteOnly_setReg_advance (s : State) (k : Word) (d : Reg) (v : Word) :
    WroteOnly s ((s.advance k).setReg d v) k d where
  frame :=
    { regs r hr := by rw [State.reg_setReg, if_neg hr, operand_eq_reg_advance]
      bytes _ _ := rfl
      control := ⟨rfl, rfl, rfl, rfl, rfl⟩
      calls := rfl }
  diags := rfl

theorem toInt_simm4 (k : BitVec 4) : (simm4 k).toInt = k.toInt :=
  BitVec.toInt_signExtend_of_le (by decide)

theorem toInt_simm8 (k : BitVec 8) : (simm8 k).toInt = k.toInt :=
  BitVec.toInt_signExtend_of_le (by decide)

/-! ## The four moves -/

/-- Settles O34, move by move: the encoder gives the words, and each meaning is a register write
after the advance. -/
theorem moveResults : Obligations.MoveResults := by
  intro s ra rb k x k8 imm
  refine ⟨⟨decodesTo_word2 rfl fun _ => .inl rfl, ?_⟩,
    ⟨decodesTo_word2 rfl fun _ => .inl rfl, ?_⟩,
    ⟨decodesTo_word2 rfl fun _ => .inr rfl, ?_⟩,
    decodesTo_word1 rfl fun _ => rfl, ?_⟩
  · exact ⟨_, rfl, by simp [operand_eq_reg_advance], rfl, wroteOnly_setReg_advance s _ ra _⟩
  · exact ⟨_, rfl, by simp [toInt_simm4], rfl, wroteOnly_setReg_advance s _ ra _⟩
  · exact ⟨_, rfl, by simp, rfl, wroteOnly_setReg_advance s _ ra _⟩
  · exact ⟨_, rfl, by simp [Reg.a, toInt_simm8], rfl, wroteOnly_setReg_advance s _ Reg.a _⟩

end Sys2Proof.Machine

/-! PROOFS, arithmetic. What the family's register and flag write leaves, its 32-bit results as
numbers, and the division by zero. -/

namespace Sys2Proof.Machine

/-! ## What the family writes -/

/-- A flag write is no part of the frame of an instruction that writes one register. -/
theorem WroteOnly.setFlags {s t : State} {k : Word} {d : Reg} (h : WroteOnly s t k d) (f : Flags) :
    WroteOnly s (t.setFlags f) k d where
  frame :=
    { regs := h.frame.regs
      bytes := h.frame.bytes
      control :=
        have hc := h.frame.control
        ⟨hc.run, hc.fcause, hc.finfo, hc.fpc, hc.cfg⟩
      calls := h.frame.calls }
  diags := h.diags

/-- `x[ra] <- r32[15:0]; arith_flags(r32)` after the advance, in numbers (42_arithmetic R219). -/
theorem arithResult_writeArith (s : State) (k : Word) (ra : Reg) (r : BitVec 32) :
    ArithResult s (writeArith (s.advance k) ra r) k ra r.toNat where
  value := by simp [writeArith]
  carry := rfl
  zero := arithFlags_z _ r
  sign := rfl
  odd := by
    change (arithFlags s.cfg.oMask r).o = _
    rw [arithFlags_o]
    cases s.cfg.oMask <;> rfl
  rest := (wroteOnly_setReg_advance s k ra _).setFlags _

/-- An outcome that is the family's write of `r`, for what `r` is as a number. -/
theorem exists_arithResult {s : State} {o : Host.Outcome State Fault Refusal} {k : Word} {ra : Reg}
    {r : BitVec 32} {n : Nat} (ho : o = .next (writeArith (s.advance k) ra r)) (hr : r.toNat = n) :
    ∃ t, o = .next t ∧ ArithResult s t k ra n :=
  ⟨_, ho, hr ▸ arithResult_writeArith s k ra r⟩

section

variable {s t : State} {k : Word} {ra : Reg} {n : Nat}

/-- A result of 16 bits clears C, and O under either mask (42_arithmetic R228). -/
theorem ArithResult.clear_of_lt (h : ArithResult s t k ra n) (hn : n < 2 ^ 16) :
    t.flags.c = false ∧ t.flags.o = false := by
  refine ⟨h.carry.trans (Nat.testBit_lt_two_pow hn), h.odd.trans ?_⟩
  cases s.cfg.oMask <;> exact decide_eq_false (by omega)

/-- A result with bits 31 to 16 set, as a borrow leaves it, sets C, and O under either mask. -/
theorem ArithResult.set_of_le (h : ArithResult s t k ra n) (hlo : 2 ^ 32 - 2 ^ 16 ≤ n)
    (hhi : n < 2 ^ 32) : t.flags.c = true ∧ t.flags.o = true := by
  refine ⟨h.carry.trans ?_, h.odd.trans ?_⟩
  · rw [Nat.testBit_eq_decide_div_mod_eq]
    exact decide_eq_true (by omega)
  · cases s.cfg.oMask <;> exact decide_eq_true (by omega)

/-- The difference modulo 2^32 has bits 31 to 16 set on a borrow and clear without one, so C and O tell
the borrow (42_arithmetic R223). -/
theorem ArithResult.flags_of_sub {a b : Word}
    (h : ArithResult s t k ra ((2 ^ 32 + a.toNat - b.toNat) % 2 ^ 32)) :
    t.flags.c = decide (a.toNat < b.toNat) ∧ t.flags.o = decide (a.toNat < b.toNat) := by
  by_cases hlt : a.toNat < b.toNat
  · rw [decide_eq_true hlt]
    exact h.set_of_le (by omega) (by omega)
  · rw [decide_eq_false hlt]
    exact h.clear_of_lt (by omega)

/-- A sum of two 16-bit numbers stays below 2^17, so bit 16 is its carry (42_arithmetic R220). -/
theorem ArithResult.carry_of_add {a b : Word} (h : ArithResult s t k ra (a.toNat + b.toNat)) :
    t.flags.c = decide (2 ^ 16 ≤ a.toNat + b.toNat) := by
  rw [h.carry, Nat.testBit_eq_decide_div_mod_eq, decide_eq_decide]
  omega

end

/-! ## The 32-bit results as numbers (42_arithmetic R219) -/

section

variable (a b : Word)

theorem toNat_zext32 : (zext32 a).toNat = a.toNat := BitVec.toNat_setWidth_of_le (by omega)

theorem toNat_uimm4 (u : BitVec 4) : (uimm4 u).toNat = u.toNat :=
  BitVec.toNat_setWidth_of_le (by omega)

theorem toNat_zext32_add : (zext32 a + zext32 b).toNat = a.toNat + b.toNat := by
  rw [BitVec.toNat_add, toNat_zext32, toNat_zext32]
  omega

theorem toNat_zext32_sub :
    (zext32 a - zext32 b).toNat = (2 ^ 32 + a.toNat - b.toNat) % 2 ^ 32 := by
  rw [BitVec.toNat_sub, toNat_zext32, toNat_zext32]
  omega

/-- The product of two 16-bit numbers fits in 32 bits. -/
theorem toNat_zext32_mul : (zext32 a * zext32 b).toNat = a.toNat * b.toNat := by
  have hlt : a.toNat * b.toNat < 2 ^ 16 * 2 ^ 16 := Nat.mul_lt_mul'' a.isLt b.isLt
  rw [BitVec.toNat_mul, toNat_zext32, toNat_zext32]
  exact Nat.mod_eq_of_lt hlt

theorem toNat_zext32_div : (zext32 a / zext32 b).toNat = a.toNat / b.toNat := by
  rw [BitVec.toNat_udiv, toNat_zext32, toNat_zext32]

end

/-! ## Division -/

/-- A division by a divisor that is not 0 (42_arithmetic R228, R229). -/
theorem exists_divideStep {s : State} {k d : Word} (hd : d ≠ 0#16) (ra : Reg) (w : Word) :
    ∃ t, divideStep s (s.advance k) ra d w = .next t
      ∧ ArithResult s t k ra ((operand s k ra).toNat / d.toNat)
      ∧ t.flags.c = false ∧ t.flags.o = false := by
  obtain ⟨t, hstep, ht⟩ := exists_arithResult (divideStep_of_ne_zero hd w) (toNat_zext32_div _ d)
  rw [← operand_eq_reg_advance] at ht
  have hlt : (operand s k ra).toNat / d.toNat < 2 ^ 16 :=
    (Nat.div_le_self _ _).trans_lt (operand s k ra).isLt
  exact ⟨t, hstep, ht, ht.clear_of_lt hlt⟩

/-- DIV_ZERO reports the instruction word (60_exceptions R403). -/
theorem faultsWith_divideStep_zero {s : State} {k d : Word} (hd : d = 0#16) (ra : Reg) (w : Word) :
    FaultsWith s (divideStep s (s.advance k) ra d w) 3 w.toNat := by
  have hinfo : (w.setWidth 17).toNat = w.toNat := BitVec.toNat_setWidth_of_le (by omega)
  rw [divideStep, if_pos hd]
  exact ⟨_, rfl, hinfo ▸ faultedAs_faultEntry s .divZero _ _, List.prefix_rfl,
    (List.append_nil _).symm⟩

/-! ## The obligations -/

/-- Settles O35, form by form: the sum of two 16-bit numbers needs no reduction. -/
theorem addResults : Obligations.AddResults := by
  intro s ra rb u x imm
  refine ⟨⟨decodesTo_word2 rfl fun _ => .inl rfl, exists_arithResult rfl ?_⟩,
    ⟨decodesTo_word2 rfl fun _ => .inl rfl, exists_arithResult rfl ?_⟩,
    decodesTo_word2 rfl fun _ => .inr rfl, exists_arithResult rfl ?_⟩
  · simp only [toNat_zext32_add, operand_eq_reg_advance]
  · simp only [toNat_zext32_add, toNat_uimm4, operand_eq_reg_advance]
  · simp only [toNat_zext32_add, operand_eq_reg_advance]

/-- Settles O36, form by form. -/
theorem subResults : Obligations.SubResults := by
  intro s ra rb u x imm
  refine ⟨⟨decodesTo_word2 rfl fun _ => .inl rfl, exists_arithResult rfl ?_⟩,
    ⟨decodesTo_word2 rfl fun _ => .inl rfl, exists_arithResult rfl ?_⟩,
    decodesTo_word2 rfl fun _ => .inr rfl, exists_arithResult rfl ?_⟩
  · simp only [toNat_zext32_sub, operand_eq_reg_advance]
  · simp only [toNat_zext32_sub, toNat_uimm4, operand_eq_reg_advance]
  · simp only [toNat_zext32_sub, operand_eq_reg_advance]

/-- Settles O37, form by form: the product needs no reduction. -/
theorem mulResults : Obligations.MulResults := by
  intro s ra rb x imm
  refine ⟨⟨decodesTo_word2 rfl fun _ => .inl rfl, exists_arithResult rfl ?_⟩,
    decodesTo_word2 rfl fun _ => .inr rfl, exists_arithResult rfl ?_⟩
  · simp only [toNat_zext32_mul, operand_eq_reg_advance]
  · simp only [toNat_zext32_mul, operand_eq_reg_advance]

/-- Settles O38: both forms are one division step, by `exists_divideStep` and
`faultsWith_divideStep_zero`. -/
theorem divResults : Obligations.DivResults := by
  intro s ra rb x imm
  refine ⟨⟨decodesTo_word2 rfl fun _ => .inl rfl, fun hd => ?_, fun hd => ?_⟩,
    decodesTo_word2 rfl fun _ => .inr rfl, fun hd => exists_divideStep hd ra _, fun hd => ?_⟩
  · rw [operand_eq_reg_advance _ rb] at hd ⊢
    exact exists_divideStep hd ra _
  · rw [operand_eq_reg_advance] at hd
    exact word2_eq_packGeneral (base := 0x1C00) rfl ra rb ▸ faultsWith_divideStep_zero hd ra _
  · exact word2_eq_packGeneral (base := 0x1E00) rfl ra x ▸ faultsWith_divideStep_zero hd ra _

/-- Settles O39, from the results of SUB and ADD by `flags_of_sub` and `carry_of_add`. -/
theorem carryAndBorrow : Obligations.CarryAndBorrow := by
  intro s ra rb
  obtain ⟨⟨-, t, hsub, ht⟩, -⟩ := subResults s ra rb 0 0 0
  obtain ⟨⟨-, u, hadd, hu⟩, -⟩ := addResults s ra rb 0 0 0
  obtain ⟨hc, ho⟩ := ht.flags_of_sub
  refine ⟨⟨t, hsub, hc, ho, ?_⟩, u, hadd, hu.carry_of_add, fun hm => ?_, fun hm => ?_⟩
  · rw [ht.zero, decide_eq_true_iff, ← BitVec.toNat_inj]
    omega
  · rw [hu.odd, hm]
    exact decide_eq_false (by omega)
  · rw [hu.odd, hm, hu.carry_of_add]

end Sys2Proof.Machine

/-! PROOFS, boolean. What the family's register and flag write leaves, and its seven forms. -/

namespace Sys2Proof.Machine

/-- `x[ra] <- r; bool_flags(r)` after the advance, the flags as `flagFunctions` gives them
(40_cycle R171). -/
theorem boolResult_writeBool (s : State) (k : Word) (ra : Reg) (r : Word) :
    BoolResult s (writeBool (s.advance k) ra r) k ra r := by
  obtain ⟨-, hbool, -⟩ := flagFunctions
  obtain ⟨hcarry, hzero, hodd, hsign⟩ := hbool s.flags r
  exact {
    value := (State.reg_setReg _ ra ra r).trans (if_pos rfl)
    carry := hcarry
    zero := hzero
    sign := hsign
    odd := hodd
    rest := (wroteOnly_setReg_advance s k ra r).setFlags _ }

/-- Settles O40, form by form: the operands are the registers after the advance, and each meaning is
the family's write of its result there. -/
theorem booleanResults : Obligations.BooleanResults := by
  intro s ra rb x imm
  simp only [operand_eq_reg_advance]
  refine ⟨⟨decodesTo_word2 rfl fun _ => .inl rfl, ?and⟩,
    ⟨decodesTo_word2 rfl fun _ => .inr rfl, ?andil⟩,
    ⟨decodesTo_word2 rfl fun _ => .inl rfl, ?or⟩,
    ⟨decodesTo_word2 rfl fun _ => .inr rfl, ?oril⟩,
    ⟨decodesTo_word2 rfl fun _ => .inl rfl, ?xor⟩,
    ⟨decodesTo_word2 rfl fun _ => .inr rfl, ?xoril⟩,
    decodesTo_word2 rfl fun _ => .inl rfl, ?not⟩
  all_goals exact ⟨_, rfl, boolResult_writeBool s _ ra _⟩

end Sys2Proof.Machine

/-! PROOFS, shift and rotate. The operations as the library's shifts and rotations, bit by bit, with
C as bit 16 of the carry-linked ones; what the family writes; its twelve forms. -/

namespace Sys2Proof.Machine

/-! ## A rotation moves each bit by the count -/

section

variable {w : Nat} (x : BitVec w) {n i : Nat}

theorem add_mod_of_lt (hi : i < w) (hn : n < w) :
    (i + n) % w = if w ≤ i + n then i + n - w else i + n := by
  rw [Nat.add_mod_eq_ite, Nat.mod_eq_of_lt hi, Nat.mod_eq_of_lt hn]

theorem rotateLeft_zero : x.rotateLeft 0 = x := by
  simp [BitVec.rotateLeft_def, BitVec.ushiftRight_eq_zero]

theorem rotateRight_zero : x.rotateRight 0 = x := by
  simp [BitVec.rotateRight_def, BitVec.shiftLeft_eq_zero]

theorem getLsbD_rotateLeft_add_mod (hn : n < w) (hi : i < w) :
    (x.rotateLeft n).getLsbD ((i + n) % w) = x.getLsbD i := by
  rw [BitVec.getLsbD_rotateLeft, Nat.mod_eq_of_lt hn, add_mod_of_lt hi hn]
  split
  next hwrap =>
    have hlow : i + n - w < n := by omega
    have hback : w - n + (i + n - w) = i := by omega
    simp [hlow, hback]
  next hfit => simp [Nat.lt_of_not_le hfit]

theorem getLsbD_rotateRight_eq_add_mod (hn : n < w) (hi : i < w) :
    (x.rotateRight n).getLsbD i = x.getLsbD ((i + n) % w) := by
  rw [BitVec.getLsbD_rotateRight, Nat.mod_eq_of_lt hn, add_mod_of_lt hi hn]
  split
  next hwrap =>
    have hhigh : ¬ i < w - n := by omega
    have hback : i - (w - n) = i + n - w := by omega
    simp [hhigh, hback, hi]
  next hfit =>
    have hlow : i < w - n := by omega
    simp [hlow, Nat.add_comm]

end

/-! ## The operations -/

section

variable (v : Word) (n : BitVec 4) (c : Bool)

theorem toNat_shiftLeft_r : (shiftLeft v n c).r.toNat = v.toNat * 2 ^ n.toNat % 2 ^ 16 := by
  by_cases hn : n = 0#4
  · simp [shiftLeft, hn, Nat.mod_eq_of_lt v.isLt]
  · simp [shiftLeft, hn, BitVec.toNat_shiftLeft, Nat.shiftLeft_eq]

theorem toNat_shiftRight_r : (shiftRight v n c).r.toNat = v.toNat / 2 ^ n.toNat := by
  by_cases hn : n = 0#4
  · simp [shiftRight, hn]
  · simp [shiftRight, hn, Nat.shiftRight_eq_div_pow]

theorem rotLeft_r : (rotLeft v n c).r = v.rotateLeft n.toNat := by
  by_cases hn : n = 0#4
  · simp [rotLeft, hn, rotateLeft_zero]
  · rw [BitVec.rotateLeft_eq_rotateLeftAux_of_lt (by omega), rotLeft, if_neg hn]
    rfl

theorem rotRight_r : (rotRight v n c).r = v.rotateRight n.toNat := by
  by_cases hn : n = 0#4
  · simp [rotRight, hn, rotateRight_zero]
  · rw [BitVec.rotateRight_eq_rotateRightAux_of_lt (by omega), rotRight, if_neg hn]
    rfl

/-- C stands above the register (44_shift_rotate R280). -/
theorem getLsbD_withCarry (i : Nat) :
    (withCarry v c).getLsbD i = if i = 16 then c else v.getLsbD i := by
  rw [withCarry, BitVec.getLsbD_or, BitVec.getLsbD_shiftLeft]
  rcases Nat.lt_trichotomy i 16 with hlow | rfl | hhigh
  · simp [hlow, hlow.ne, Nat.lt_succ_of_lt hlow]
  · simp
  · have hout : ¬ i < 17 := by omega
    simp [hhigh.ne', hout, BitVec.getLsbD_of_ge v i hhigh.le]

theorem withCarry_splitCarry (t : BitVec 17) :
    withCarry (splitCarry t).r (splitCarry t).cout = t := by
  apply BitVec.eq_of_getLsbD_eq
  intro i hi
  rw [getLsbD_withCarry]
  by_cases htop : i = 16
  · simp [htop, splitCarry]
  · have hlow : i < 16 := by omega
    simp [splitCarry, htop, hlow]

/-- RLC turns C and the register as one 17-bit value (44_shift_rotate R280). -/
theorem withCarry_rotLeftCarry :
    withCarry (rotLeftCarry v n c).r (rotLeftCarry v n c).cout
      = (withCarry v c).rotateLeft n.toNat := by
  rw [BitVec.rotateLeft_eq_rotateLeftAux_of_lt (by omega)]
  exact withCarry_splitCarry _

/-- RRC turns them the other way (44_shift_rotate R282). -/
theorem withCarry_rotRightCarry :
    withCarry (rotRightCarry v n c).r (rotRightCarry v n c).cout
      = (withCarry v c).rotateRight n.toNat := by
  rw [BitVec.rotateRight_eq_rotateRightAux_of_lt (by omega)]
  exact withCarry_splitCarry _

end

/-! ## What the family writes -/

/-- An operation of the family: value, count and C give the result and the last bit out. -/
abbrev ShiftOp : Type := Word → BitVec 4 → Bool → Shifted

/-- The register form's count is the low four bits of `rb` (44_shift_rotate R270). -/
theorem regCount_advance (s : State) (k : Word) (rb : Reg) :
    regCount (s.advance k) rb = (operand s k rb).setWidth 4 := by
  rw [operand_eq_reg_advance, regCount, Word.fieldB, BitVec.setWidth_eq_extractLsb' (by decide)]

section

variable (op : ShiftOp) (s : State) (ra : Reg) (n : BitVec 4)

/-- The state in which a form of `op` on `ra` with count `n` leaves `s` (44_shift_rotate R271). -/
def afterShift : State :=
  let t := s.advance 2#16
  writeShift t ra n (op (t.reg ra) n t.flags.c)

theorem reg_afterShift :
    (afterShift op s ra n).reg ra = (op (operand s 2#16 ra) n s.flags.c).r := by
  rw [operand_eq_reg_advance]
  exact (State.reg_setReg _ ra ra _).trans (if_pos rfl)

theorem carry_afterShift : (afterShift op s ra n).flags.c
    = if n = 0#4 then s.flags.c else (op (operand s 2#16 ra) n s.flags.c).cout := by
  rw [operand_eq_reg_advance]
  rfl

/-- `shift_flags` after the register write, the carry out named for a count that is not 0
(40_cycle R172). -/
theorem shiftResult_afterShift {cout : Bool}
    (hcout : n ≠ 0#4 → (op (operand s 2#16 ra) n s.flags.c).cout = cout) :
    ShiftResult s (afterShift op s ra n) ra n cout where
  carry := by
    rw [carry_afterShift]
    split
    next => rfl
    next hn => exact hcout hn
  zero := by
    rw [reg_afterShift, operand_eq_reg_advance]
    exact eq_zero_eq_decide _
  sign := by
    rw [reg_afterShift, operand_eq_reg_advance]
    exact getLsbD_fifteen_eq_decide _
  odd := rfl
  rest := (wroteOnly_setReg_advance s _ ra _).setFlags _

end

/-! ## The operations on a register -/

section

variable (s : State) (ra : Reg) (n : BitVec 4)

theorem afterShift_shiftLeft :
    ((afterShift shiftLeft s ra n).reg ra).toNat
        = (operand s 2#16 ra).toNat * 2 ^ n.toNat % 2 ^ 16
      ∧ ShiftResult s (afterShift shiftLeft s ra n) ra n
          ((operand s 2#16 ra).toNat.testBit (16 - n.toNat)) := by
  refine ⟨by rw [reg_afterShift, toNat_shiftLeft_r], shiftResult_afterShift _ s ra n fun hn => ?_⟩
  rw [shiftLeft, if_neg hn]
  rfl

theorem afterShift_shiftRight :
    ((afterShift shiftRight s ra n).reg ra).toNat = (operand s 2#16 ra).toNat / 2 ^ n.toNat
      ∧ ShiftResult s (afterShift shiftRight s ra n) ra n
          ((operand s 2#16 ra).toNat.testBit (n.toNat - 1)) := by
  refine ⟨by rw [reg_afterShift, toNat_shiftRight_r], shiftResult_afterShift _ s ra n fun hn => ?_⟩
  rw [shiftRight, if_neg hn]
  rfl

theorem afterShift_rotLeft :
    (∀ i, i < 16 → ((afterShift rotLeft s ra n).reg ra).getLsbD ((i + n.toNat) % 16)
        = (operand s 2#16 ra).getLsbD i)
      ∧ ShiftResult s (afterShift rotLeft s ra n) ra n
          (((afterShift rotLeft s ra n).reg ra).getLsbD 0) := by
  rw [reg_afterShift]
  refine ⟨fun i hi => ?_, shiftResult_afterShift _ s ra n fun hn => ?_⟩
  · rw [rotLeft_r, getLsbD_rotateLeft_add_mod _ n.isLt hi]
  · rw [rotLeft, if_neg hn]

theorem afterShift_rotRight :
    (∀ i, i < 16 → ((afterShift rotRight s ra n).reg ra).getLsbD i
        = (operand s 2#16 ra).getLsbD ((i + n.toNat) % 16))
      ∧ ShiftResult s (afterShift rotRight s ra n) ra n
          (((afterShift rotRight s ra n).reg ra).getLsbD 15) := by
  rw [reg_afterShift]
  refine ⟨fun i hi => ?_, shiftResult_afterShift _ s ra n fun hn => ?_⟩
  · rw [rotRight_r, getLsbD_rotateRight_eq_add_mod _ n.isLt hi]
  · rw [rotRight, if_neg hn]

/-- A turn by 0 keeps bit 16, so C is the operation's last bit out for every count: C and the
register hold the turned 17 bits (44_shift_rotate R280, R282). -/
theorem withCarry_afterShift {op : ShiftOp} {x : BitVec 17}
    (hop : withCarry (op (operand s 2#16 ra) n s.flags.c).r
      (op (operand s 2#16 ra) n s.flags.c).cout = x)
    (hzero : n = 0#4 → x = withCarry (operand s 2#16 ra) s.flags.c) :
    withCarry ((afterShift op s ra n).reg ra) (afterShift op s ra n).flags.c = x := by
  have htop : (op (operand s 2#16 ra) n s.flags.c).cout = x.getLsbD 16 := by
    rw [← hop, getLsbD_withCarry, if_pos rfl]
  have hcarry : (afterShift op s ra n).flags.c = (op (operand s 2#16 ra) n s.flags.c).cout := by
    rw [carry_afterShift]
    split
    next hn => rw [htop, hzero hn, getLsbD_withCarry, if_pos rfl]
    next => rfl
  rw [reg_afterShift, hcarry, hop]

/-- With C itself as the bit out, `shift_flags` says of C that a count of 0 keeps it. -/
theorem shiftResult_afterShift_carry (op : ShiftOp) :
    ShiftResult s (afterShift op s ra n) ra n (afterShift op s ra n).flags.c :=
  shiftResult_afterShift op s ra n fun hn => by rw [carry_afterShift, if_neg hn]

theorem afterShift_rotLeftCarry :
    (∀ i, i < 17 →
        (withCarry ((afterShift rotLeftCarry s ra n).reg ra)
          (afterShift rotLeftCarry s ra n).flags.c).getLsbD ((i + n.toNat) % 17)
        = (withCarry (operand s 2#16 ra) s.flags.c).getLsbD i)
      ∧ ShiftResult s (afterShift rotLeftCarry s ra n) ra n
          (afterShift rotLeftCarry s ra n).flags.c := by
  refine ⟨fun i hi => ?_, shiftResult_afterShift_carry s ra n _⟩
  rw [withCarry_afterShift s ra n (withCarry_rotLeftCarry _ n _)
      fun hn => by simp [hn, rotateLeft_zero],
    getLsbD_rotateLeft_add_mod _ (by omega) hi]

theorem afterShift_rotRightCarry :
    (∀ i, i < 17 →
        (withCarry ((afterShift rotRightCarry s ra n).reg ra)
          (afterShift rotRightCarry s ra n).flags.c).getLsbD i
        = (withCarry (operand s 2#16 ra) s.flags.c).getLsbD ((i + n.toNat) % 17))
      ∧ ShiftResult s (afterShift rotRightCarry s ra n) ra n
          (afterShift rotRightCarry s ra n).flags.c := by
  refine ⟨fun i hi => ?_, shiftResult_afterShift_carry s ra n _⟩
  rw [withCarry_afterShift s ra n (withCarry_rotRightCarry _ n _)
      fun hn => by simp [hn, rotateRight_zero],
    getLsbD_rotateRight_eq_add_mod _ (by omega) hi]

end

/-! ## The obligations -/

/-- Settles O41, form by form: register and immediate form are one operation, by two counts. -/
theorem logicalShiftResults : Obligations.LogicalShiftResults := by
  intro s ra rb u
  simp only [← regCount_advance]
  exact ⟨⟨decodesTo_word2 rfl fun _ => .inl rfl, _, rfl, afterShift_shiftLeft s ra _⟩,
    ⟨decodesTo_word2 rfl fun _ => .inl rfl, _, rfl, afterShift_shiftLeft s ra u⟩,
    ⟨decodesTo_word2 rfl fun _ => .inl rfl, _, rfl, afterShift_shiftRight s ra _⟩,
    decodesTo_word2 rfl fun _ => .inl rfl, _, rfl, afterShift_shiftRight s ra u⟩

/-- Settles O42, form by form. -/
theorem rotateResults : Obligations.RotateResults := by
  intro s ra rb u
  simp only [← regCount_advance]
  exact ⟨⟨decodesTo_word2 rfl fun _ => .inl rfl, _, rfl, afterShift_rotLeft s ra _⟩,
    ⟨decodesTo_word2 rfl fun _ => .inl rfl, _, rfl, afterShift_rotLeft s ra u⟩,
    ⟨decodesTo_word2 rfl fun _ => .inl rfl, _, rfl, afterShift_rotRight s ra _⟩,
    decodesTo_word2 rfl fun _ => .inl rfl, _, rfl, afterShift_rotRight s ra u⟩

/-- Settles O43, form by form: the 17 bits are those of `withCarry`. -/
theorem carryRotateResults : Obligations.CarryRotateResults := by
  intro s ra rb u
  simp only [← regCount_advance, ← getLsbD_withCarry]
  exact ⟨⟨decodesTo_word2 rfl fun _ => .inl rfl, _, rfl, afterShift_rotLeftCarry s ra _⟩,
    ⟨decodesTo_word2 rfl fun _ => .inl rfl, _, rfl, afterShift_rotLeftCarry s ra u⟩,
    ⟨decodesTo_word2 rfl fun _ => .inl rfl, _, rfl, afterShift_rotRightCarry s ra _⟩,
    decodesTo_word2 rfl fun _ => .inl rfl, _, rfl, afterShift_rotRightCarry s ra u⟩

end Sys2Proof.Machine

/-! PROOFS, bit operations. The mask of a bit number, bit by bit, and the three operations. -/

namespace Sys2Proof.Machine

/-! ## The mask of a bit number -/

section

variable (v : Word) (u : BitVec 4)

theorem getLsbD_bitMask (i : Nat) : (bitMask u).getLsbD i = decide (i = u.toNat) := by
  have hone : bitMask u = BitVec.twoPow 16 u.toNat := (BitVec.twoPow_eq 16 u.toNat).symm
  rw [hone, BitVec.getLsbD_twoPow, decide_eq_true (show u.toNat < 16 from u.isLt), Bool.true_and]
  exact decide_eq_decide.2 eq_comm

/-- `x[ra] | (1 << uimm4)` sets the one bit (45_bit_ops R301). -/
theorem getLsbD_or_bitMask (i : Nat) :
    (v ||| bitMask u).getLsbD i = if i = u.toNat then true else v.getLsbD i := by
  rw [BitVec.getLsbD_or, getLsbD_bitMask]
  split
  next h => rw [decide_eq_true h, Bool.or_true]
  next h => rw [decide_eq_false h, Bool.or_false]

/-- `x[ra] & ~(1 << uimm4)` clears the one bit (45_bit_ops R302). -/
theorem getLsbD_and_not_bitMask {i : Nat} (hi : i < 16) :
    (v &&& ~~~ bitMask u).getLsbD i = if i = u.toNat then false else v.getLsbD i := by
  rw [BitVec.getLsbD_and, BitVec.getLsbD_not, getLsbD_bitMask, decide_eq_true hi, Bool.true_and]
  split
  next h => rw [decide_eq_true h, Bool.not_true, Bool.and_false]
  next h => rw [decide_eq_false h, Bool.not_false, Bool.and_true]

/-- BIT's Z says that the tested bit is clear (45_bit_ops R300). -/
theorem bitTestFlags_z (fl : Flags) :
    (bitTestFlags fl v u).z = decide (v.toNat.testBit u.toNat = false) := by
  change (!v.toNat.testBit u.toNat) = _
  cases v.toNat.testBit u.toNat <;> rfl

end

/-! ## What the family writes -/

/-- A flag write after the advance leaves every register alone but the pc moved on. -/
theorem frame_setFlags_advance (s : State) (k : Word) (f : Flags) :
    Frame s ((s.advance k).setFlags f) k (fun _ => False) (fun _ => False) where
  regs r _ := (operand_eq_reg_advance k r).symm
  bytes _ _ := rfl
  control := ⟨rfl, rfl, rfl, rfl, rfl⟩
  calls := rfl

/-- Settles O44: BIT is a flag write after the advance, BSET and BCLR a register write whose bits
the mask lemmas give. -/
theorem bitResults : Obligations.BitResults := by
  intro s ra u
  simp only [operand_eq_reg_advance]
  refine ⟨⟨decodesTo_word2 rfl fun _ => .inl rfl, _, rfl, ?bit⟩,
    ⟨decodesTo_word2 rfl fun _ => .inl rfl, _, rfl, fun i _ => ?bset, rfl,
      wroteOnly_setReg_advance s _ ra _⟩,
    decodesTo_word2 rfl fun _ => .inl rfl, _, rfl, fun i hi => ?bclr, rfl,
      wroteOnly_setReg_advance s _ ra _⟩
  case bit =>
    exact ⟨bitTestFlags_z _ u _, rfl, rfl, rfl, frame_setFlags_advance s _ _, rfl⟩
  case bset => rw [State.reg_setReg, if_pos rfl, getLsbD_or_bitMask]
  case bclr => rw [State.reg_setReg, if_pos rfl, getLsbD_and_not_bitMask _ _ hi]

end Sys2Proof.Machine

/-! PROOFS, loads and stores. How each update of a step extends its frame, what an access that
raises ends the step with, and the four operations at any address. -/

namespace Sys2Proof.Machine

/-! ## The frame of a step, update by update -/

section

variable {s t : State} {k : Word} {dst : Reg → Prop} {stored : Nat → Prop}

/-- The advance alone is within every frame (40_cycle R158). -/
theorem frame_advance (s : State) (k : Word) (dst : Reg → Prop) (stored : Nat → Prop) :
    Frame s (s.advance k) k dst stored where
  regs r _ := (operand_eq_reg_advance k r).symm
  bytes _ _ := rfl
  control := ⟨rfl, rfl, rfl, rfl, rfl⟩
  calls := rfl

/-- Diagnostics are no part of a frame. -/
theorem Frame.emit (h : Frame s t k dst stored) (ds : List Diag) :
    Frame s (t.emit ds) k dst stored where
  regs := h.regs
  bytes := h.bytes
  control :=
    have hc := h.control
    ⟨hc.run, hc.fcause, hc.finfo, hc.fpc, hc.cfg⟩
  calls := h.calls

theorem Frame.setReg (h : Frame s t k dst stored) {r : Reg} (hr : dst r) (v : Word) :
    Frame s (t.setReg r v) k dst stored where
  regs q hq := by
    have hne : q ≠ r := fun heq => hq (heq ▸ hr)
    rw [State.reg_setReg, if_neg hne, h.regs q hq]
  bytes := h.bytes
  control :=
    have hc := h.control
    ⟨hc.run, hc.fcause, hc.finfo, hc.fpc, hc.cfg⟩
  calls := h.calls

theorem Frame.setByteAt (h : Frame s t k dst stored) (hwf : Memory.wf t.mem = true) {a : Nat}
    (ha : stored a) (b : Byte) : Frame s (t.setByteAt a b) k dst stored where
  regs := h.regs
  bytes i hi := by
    have hne : i ≠ a := fun heq => hi (heq ▸ ha)
    rw [State.byteAt_setByteAt t hwf, if_neg hne, h.bytes i hi]
  control :=
    have hc := h.control
    ⟨hc.run, hc.fcause, hc.finfo, hc.fpc, hc.cfg⟩
  calls := h.calls

theorem Frame.setWordAt (h : Frame s t k dst stored) (hwf : Memory.wf t.mem = true) {a : Word}
    (hlow : stored a.toNat) (hhigh : stored (a.toNat + 1)) (v : Word) :
    Frame s (t.setWordAt a v) k dst stored :=
  (h.setByteAt hwf hlow v.low8).setByteAt (Memory.wf_set _ _ hwf) hhigh v.high8

end

/-! ## Steps whose access raises -/

/-- Where an access of width `w` at `a` raises, the result of a part of a step from `s` is that
raise, no event emitted (20_memory R74, R75; log 14). -/
def RaisesAccess {α : Type} (s : State) (a : Word) (w : Width) (r : Res α) : Prop :=
  ∀ c info, accessFault s.cfg a w = some (c, info) → r = .raise c info s.out

section

variable {α β : Type} {s : State} {k a : Word} {w : Width}

theorem checkedAccess_raises (v : α) : RaisesAccess s a w (checkedAccess s a w v) := by
  intro c info hf
  rw [checkedAccess, hf]

/-- What follows a raise is not reached (00_scope R17). -/
theorem RaisesAccess.bind {r : Res α} (h : RaisesAccess s a w r) (f : α → Res β) :
    RaisesAccess s a w (resBind r f) := by
  intro c info hf
  rw [h c info hf]
  rfl

variable {r : Res State}

/-- A step that ends with the raise of its word access is fault entry with that cause and value. -/
theorem wordFaults_complete (h : RaisesAccess (s.advance k) a .word r) :
    WordFaults s a (complete s r) := by
  refine wordFaultsAfter_of_faultEntry List.prefix_rfl (List.append_nil _).symm fun c info hf => ?_
  rw [h c info hf]
  rfl

/-- A byte access raises MEM_BOUNDS alone (20_memory R74). -/
theorem byteFaults_complete (h : RaisesAccess (s.advance k) a .byte r)
    (hb : s.cfg.memSize ≤ a.toNat) : FaultsWith s (complete s r) 1 a.toNat := by
  have hinfo : (BitVec.ofNat 17 a.toNat).toNat = a.toNat :=
    (BitVec.toNat_ofNat _ 17).trans (Nat.mod_eq_of_lt (by omega))
  rw [h .memBounds _ (accessFault_byte_bounds hb)]
  exact ⟨_, rfl, { faultedAs_faultEntry s .memBounds _ _ with finfo := hinfo }, List.prefix_rfl,
    (List.append_nil _).symm⟩

end

/-! ## The four operations, at an address `a` -/

section

variable (s : State) (k a : Word)

theorem loadWord_ok {t : State} (ra : Reg) (hok : t.WordOk a) :
    loadWord t ra a = .ok ((t.emit (readDiags t.cfg a .word)).setReg ra (t.wordAt a)) := by
  rw [loadWord, memReadWord_ok hok]
  rfl

theorem loadByte_ok {t : State} (ra : Reg) (hok : t.ByteOk a) :
    loadByte t ra a
      = .ok ((t.emit (readDiags t.cfg a .byte)).setReg ra ((t.byteAt a.toNat).setWidth 16)) := by
  rw [loadByte, memReadByte_ok hok]
  rfl

/-- `x[ra] <- MemRead(a, 2)` (46_load_store R320, R324). -/
theorem loadWord_completes (ra : Reg) :
    (s.WordOk a → ∃ t, complete s (loadWord (s.advance k) ra a) = .next t
      ∧ HoldsWord s a (t.reg ra) ∧ t.flags = s.flags
      ∧ Frame s t k (fun r => r = ra) (fun _ => False))
    ∧ WordFaults s a (complete s (loadWord (s.advance k) ra a)) := by
  refine ⟨fun hok => ?_, wordFaults_complete ((checkedAccess_raises _).bind _)⟩
  rw [loadWord_ok (t := s.advance k) a ra hok]
  refine ⟨_, rfl, ?_, rfl, ((frame_advance s k (· = ra) _).emit _).setReg rfl _⟩
  rw [State.reg_setReg, if_pos rfl]
  exact holdsWord_iff.2 rfl

/-- `x[ra] <- zext_16(MemRead(a, 1))` (46_load_store R321, R325). -/
theorem loadByte_completes (ra : Reg) :
    (s.ByteOk a → ∃ t, complete s (loadByte (s.advance k) ra a) = .next t
      ∧ (t.reg ra).toNat = (s.byteAt a.toNat).toNat ∧ t.flags = s.flags
      ∧ Frame s t k (fun r => r = ra) (fun _ => False))
    ∧ (s.cfg.memSize ≤ a.toNat →
        FaultsWith s (complete s (loadByte (s.advance k) ra a)) 1 a.toNat) := by
  refine ⟨fun hok => ?_, byteFaults_complete ((checkedAccess_raises _).bind _)⟩
  rw [loadByte_ok (t := s.advance k) a ra hok]
  refine ⟨_, rfl, ?_, rfl, ((frame_advance s k (· = ra) _).emit _).setReg rfl _⟩
  rw [State.reg_setReg, if_pos rfl]
  exact BitVec.toNat_setWidth_of_le (by decide)

/-- `MemWrite(a, 2, v)` (46_load_store R322, R326). -/
theorem storeWord_completes (v : Word) :
    (s.memOk = true → s.WordOk a → ∃ t, complete s (memWriteWord (s.advance k) a v) = .next t
      ∧ HoldsWord t a v ∧ t.flags = s.flags
      ∧ Frame s t k (fun _ => False) (fun i => i = a.toNat ∨ i = a.toNat + 1))
    ∧ WordFaults s a (complete s (memWriteWord (s.advance k) a v)) := by
  refine ⟨fun hm hok => ?_, wordFaults_complete (checkedAccess_raises _)⟩
  have hwf : Memory.wf (s.advance k).mem = true := State.wf_of_memOk hm
  rw [memWriteWord_ok (s := s.advance k) hok]
  exact ⟨_, rfl, holdsWord_iff.2 (State.wordAt_setWordAt _ hwf a v), rfl,
    ((frame_advance s k _ _).setWordAt hwf (.inl rfl) (.inr rfl) v).emit _⟩

/-- `MemWrite(a, 1, v[7:0])` (46_load_store R323, R327). -/
theorem storeByte_completes (v : Word) :
    (s.memOk = true → s.ByteOk a → ∃ t, complete s (memWriteByte (s.advance k) a v.low8) = .next t
      ∧ (t.byteAt a.toNat).toNat = v.toNat % 256 ∧ t.flags = s.flags
      ∧ Frame s t k (fun _ => False) (fun i => i = a.toNat))
    ∧ (s.cfg.memSize ≤ a.toNat →
        FaultsWith s (complete s (memWriteByte (s.advance k) a v.low8)) 1 a.toNat) := by
  refine ⟨fun hm hok => ?_, byteFaults_complete (checkedAccess_raises _)⟩
  have hwf : Memory.wf (s.advance k).mem = true := State.wf_of_memOk hm
  rw [memWriteByte_ok (s := s.advance k) hok]
  refine ⟨_, rfl, ?_, rfl, ((frame_advance s k _ (· = a.toNat)).setByteAt hwf rfl _).emit _⟩
  rw [State.byteAt_emit, State.byteAt_setByteAt _ hwf, if_pos rfl, toNat_low8]

end

/-! ## The obligations -/

/-- Settles O45: both forms are the load of a word at the address the operands give after the
advance. -/
theorem loadWordResults : Obligations.LoadWordResults := by
  intro s ra rb imm
  simp only [operand_eq_reg_advance]
  exact ⟨⟨decodesTo_word2 rfl fun _ => .inl rfl, loadWord_completes s _ _ ra⟩,
    decodesTo_word2 rfl fun _ => .inr rfl, loadWord_completes s _ _ ra⟩

/-- Settles O46: both forms are the load of a byte. -/
theorem loadByteResults : Obligations.LoadByteResults := by
  intro s ra rb imm
  simp only [operand_eq_reg_advance]
  exact ⟨⟨decodesTo_word2 rfl fun _ => .inl rfl, loadByte_completes s _ _ ra⟩,
    decodesTo_word2 rfl fun _ => .inr rfl, loadByte_completes s _ _ ra⟩

/-- Settles O47: both forms are the store of a word, the value too read after the advance. -/
theorem storeWordResults : Obligations.StoreWordResults := by
  intro s ra rb imm
  simp only [operand_eq_reg_advance]
  exact ⟨⟨decodesTo_word2 rfl fun _ => .inl rfl, storeWord_completes s _ _ _⟩,
    decodesTo_word2 rfl fun _ => .inr rfl, storeWord_completes s _ _ _⟩

/-- Settles O48: both forms are the store of the value's low byte. -/
theorem storeByteResults : Obligations.StoreByteResults := by
  intro s ra rb imm
  simp only [operand_eq_reg_advance]
  exact ⟨⟨decodesTo_word2 rfl fun _ => .inl rfl, storeByte_completes s _ _ _⟩,
    decodesTo_word2 rfl fun _ => .inr rfl, storeByte_completes s _ _ _⟩

end Sys2Proof.Machine

/-! PROOFS, exceptions. A step that enters Faulted is fault entry. -/

namespace Sys2Proof.Machine

theorem causeCode_eq (c : Cause) :
    causeCode c = 1#3 ∨ causeCode c = 2#3 ∨ causeCode c = 3#3 ∨ causeCode c = 4#3 := by
  cases c <;> decide

/-- Settles O27: what a Running step can do, said once by `step_outcome`, leaves Faulted to fault
entry with a record that fits. -/
theorem faultsArePrecise : Obligations.FaultsArePrecise := by
  intro s t hrun hstep hfaulted
  have ho := step_outcome hrun
  rw [hstep] at ho
  obtain hfollows | ⟨c, info, out, hraise, rfl⟩ := ho
  · exact absurd hfaulted (hfollows.run (by simp [hrun]))
  · exact ⟨fun _ => rfl, rfl, rfl, rfl, rfl, causeCode_eq c, (recordOk_iff_fits rfl).2 hraise.fits,
      hraise.diags⟩

end Sys2Proof.Machine

/-! PROOFS, stacks. What a push and a pop leave, at any stack pointer but pc, and the two in
turn. -/

namespace Sys2Proof.Machine

theorem Frame.mono {s t : State} {k : Word} {dst dst' : Reg → Prop} {stored : Nat → Prop}
    (h : Frame s t k dst stored) (hdst : ∀ r, dst r → dst' r) : Frame s t k dst' stored :=
  { h with regs := fun r hr => h.regs r (mt (hdst r) hr) }

theorem Frame.wordOk {s t : State} {k : Word} {dst : Reg → Prop} {stored : Nat → Prop}
    (h : Frame s t k dst stored) {a : Word} (hok : s.WordOk a) : t.WordOk a := by
  rwa [State.WordOk, h.control.cfg]

theorem sp_ne_pc : Reg.sp ≠ Reg.pc := by decide

theorem rsp_ne_pc : Reg.rsp ≠ Reg.pc := by decide

/-! ## One push -/

/-- `t` with the word `v` stored at the pointer `sp`, which then goes down by 2
(47_stack R340, R342). -/
def State.afterPush (t : State) (sp : Reg) (v : Word) : State :=
  ((t.setWordAt (t.reg sp) v).emit (writeDiags t.cfg (t.reg sp) .word)).setReg sp (t.reg sp - 2#16)

theorem pushOn_ok {t : State} {sp : Reg} (hok : t.WordOk (t.reg sp)) (v : Word) :
    pushOn t sp v = .ok (t.afterPush sp v) := by
  rw [pushOn, memWriteWord_ok hok]
  rfl

theorem pushOn_raises (t : State) (sp : Reg) (v : Word) :
    RaisesAccess t (t.reg sp) .word (pushOn t sp v) := (checkedAccess_raises _).bind _

/-- A push from `s` with pc advanced by `k` left `t`: the word at the old pointer, the pointer down
by 2, and nothing else changed. -/
structure PushedOn (s t : State) (k : Word) (sp : Reg) (v : Word) : Prop where
  word    : HoldsWord t (s.reg sp) v
  pointer : t.reg sp = s.reg sp - 2#16
  flags   : t.flags = s.flags
  frame   : Frame s t k (fun r => r = sp)
              (fun a => a = (s.reg sp).toNat ∨ a = (s.reg sp).toNat + 1)

section

variable {s : State} {sp : Reg} (hsp : sp ≠ Reg.pc) (k v : Word)

include hsp

theorem pushedOn_afterPush (hm : s.memOk = true) :
    PushedOn s ((s.advance k).afterPush sp v) k sp v := by
  have hwf : Memory.wf (s.advance k).mem = true := State.wf_of_memOk hm
  rw [State.afterPush, reg_advance_of_ne k hsp]
  exact
    { word := holdsWord_iff.2 (State.wordAt_setWordAt _ hwf _ v)
      pointer := by rw [State.reg_setReg, if_pos rfl]
      flags := rfl
      frame :=
        (((frame_advance s k (· = sp) _).setWordAt hwf (.inl rfl) (.inr rfl) v).emit _).setReg
          rfl _ }

theorem pushOn_advance (hok : s.WordOk (s.reg sp)) :
    pushOn (s.advance k) sp v = .ok ((s.advance k).afterPush sp v) := by
  rw [← reg_advance_of_ne k hsp] at hok
  exact pushOn_ok (t := s.advance k) hok v

theorem pushOn_completes :
    (s.memOk = true → s.WordOk (s.reg sp) → ∃ t, complete s (pushOn (s.advance k) sp v) = .next t
      ∧ HoldsWord t (s.reg sp) v ∧ t.reg sp = s.reg sp - 2#16 ∧ t.flags = s.flags
      ∧ Frame s t k (fun r => r = sp)
          (fun a => a = (s.reg sp).toNat ∨ a = (s.reg sp).toNat + 1))
    ∧ WordFaults s (s.reg sp) (complete s (pushOn (s.advance k) sp v)) := by
  constructor
  · intro hm hok
    rw [pushOn_advance hsp k v hok]
    have ht := pushedOn_afterPush hsp k v hm
    exact ⟨_, rfl, ht.word, ht.pointer, ht.flags, ht.frame⟩
  · rw [← reg_advance_of_ne k hsp]
    exact wordFaults_complete (pushOn_raises (s.advance k) sp v)

end

/-! ## One pop -/

/-- `t` with the pointer `sp` up by 2 and the word there read (47_stack R341, R343). -/
def State.afterPop (t : State) (sp : Reg) : State :=
  (t.setReg sp (t.reg sp + 2#16)).emit (readDiags t.cfg (t.reg sp + 2#16) .word)

theorem popFrom_eq_memReadWord (t : State) (sp : Reg) :
    popFrom t sp = memReadWord (t.setReg sp (t.reg sp + 2#16)) (t.reg sp + 2#16) := by
  simp [popFrom]

theorem popFrom_ok {t : State} {sp : Reg} (hok : t.WordOk (t.reg sp + 2#16)) :
    popFrom t sp = .ok (t.wordAt (t.reg sp + 2#16), t.afterPop sp) := by
  rw [popFrom_eq_memReadWord, memReadWord_ok (s := t.setReg sp _) hok]
  rfl

theorem frame_afterPop (s : State) (k : Word) (sp : Reg) :
    Frame s ((s.advance k).afterPop sp) k (fun r => r = sp) (fun _ => False) :=
  ((frame_advance s k (· = sp) _).setReg rfl _).emit _

theorem popFrom_raises (t : State) (sp : Reg) :
    RaisesAccess t (t.reg sp + 2#16) .word (popFrom t sp) := by
  rw [popFrom_eq_memReadWord]
  exact checkedAccess_raises (s := t.setReg sp _) _

theorem popInto_completes {s : State} {sp : Reg} (hsp : sp ≠ Reg.pc) (k : Word) (ra : Reg) :
    (s.WordOk (s.reg sp + 2#16) → ∃ t, complete s (popInto (s.advance k) sp ra) = .next t
      ∧ HoldsWord s (s.reg sp + 2#16) (t.reg ra) ∧ (ra ≠ sp → t.reg sp = s.reg sp + 2#16)
      ∧ t.flags = s.flags ∧ Frame s t k (fun r => r = ra ∨ r = sp) (fun _ => False))
    ∧ WordFaults s (s.reg sp + 2#16) (complete s (popInto (s.advance k) sp ra)) := by
  have hreg : (s.advance k).reg sp = s.reg sp := reg_advance_of_ne k hsp
  rw [← hreg]
  refine ⟨fun hok => ?_, wordFaults_complete ((popFrom_raises (s.advance k) sp).bind _)⟩
  rw [popInto, popFrom_ok (t := s.advance k) hok]
  refine ⟨_, rfl, ?_, fun hne => ?_, rfl,
    ((frame_afterPop s k sp).mono fun _ => .inr).setReg (.inl rfl) _⟩
  · rw [State.reg_setReg, if_pos rfl]
    exact holdsWord_iff.2 rfl
  · rw [State.reg_setReg, if_neg hne.symm, State.afterPop, State.reg_emit, State.reg_setReg,
      if_pos rfl]

/-! ## A push and then a pop -/

/-- A pop with the pointer just below the word at `a` takes that word and leaves the pointer at `a`
(47_stack R339). -/
theorem pop_of_holdsWord {t : State} {a v : Word} {sp : Reg} (hsp : sp ≠ Reg.pc)
    (hword : HoldsWord t a v) (hpointer : t.reg sp = a - 2#16) (hok : t.WordOk a) (k : Word)
    (ra : Reg) :
    ∃ u, complete t (popInto (t.advance k) sp ra) = .next u ∧ u.reg ra = v
      ∧ (ra ≠ sp → u.reg sp = a) ∧ u.flags = t.flags
      ∧ Frame t u k (fun r => r = ra ∨ r = sp) (fun _ => False) := by
  have hpop := (popInto_completes (s := t) hsp k ra).1
  rw [hpointer, BitVec.sub_add_cancel] at hpop
  obtain ⟨u, hu, hpopped, hafter, hflags, hframe⟩ := hpop hok
  exact ⟨u, hu, (holdsWord_iff.1 hpopped).symm.trans (holdsWord_iff.1 hword), hafter, hflags,
    hframe⟩

theorem push_then_pop {s : State} {sp : Reg} (hsp : sp ≠ Reg.pc) (v : Word) (rb : Reg)
    (hm : s.memOk = true) (hok : s.WordOk (s.reg sp)) :
    ∃ t u, complete s (pushOn (s.advance 2#16) sp v) = .next t
      ∧ complete t (popInto (t.advance 2#16) sp rb) = .next u
      ∧ u.reg rb = v ∧ (rb ≠ sp → u.reg sp = s.reg sp) ∧ u.flags = s.flags := by
  obtain ⟨t, hpush, hword, hpointer, hflags, hframe⟩ := (pushOn_completes hsp 2#16 v).1 hm hok
  obtain ⟨u, hpop, hpopped, hback, hflags', -⟩ :=
    pop_of_holdsWord hsp hword hpointer (hframe.wordOk hok) 2#16 rb
  exact ⟨t, u, hpush, hpop, hpopped, hback, hflags'.trans hflags⟩

/-! ## The obligations -/

/-- Settles O49: both instructions are a push of the register as read after the advance. -/
theorem pushResults : Obligations.PushResults := by
  intro s ra x
  simp only [operand_eq_reg_advance]
  exact ⟨⟨decodesTo_word2 rfl fun _ => .inl rfl, pushOn_completes sp_ne_pc 2#16 _⟩,
    decodesTo_word2 rfl fun _ => .inl rfl, pushOn_completes rsp_ne_pc 2#16 _⟩

/-- Settles O50: both instructions are a pop into the register, and RET is that of RPOP PC. -/
theorem popResults : Obligations.PopResults := by
  intro s ra x
  obtain ⟨hrpop, hfaults⟩ := popInto_completes (s := s) rsp_ne_pc 2#16 ra
  exact ⟨⟨decodesTo_word2 rfl fun _ => .inl rfl, popInto_completes sp_ne_pc 2#16 ra⟩,
    decodesTo_word2 rfl fun _ => .inl rfl, hrpop, hfaults, fun _ => rfl⟩

/-- Settles O51, on both stacks by `push_then_pop`. -/
theorem pushThenPop : Obligations.PushThenPop := by
  intro s ra rb x y hm
  simp only [operand_eq_reg_advance]
  exact ⟨push_then_pop sp_ne_pc _ rb hm, push_then_pop rsp_ne_pc _ rb hm⟩

end Sys2Proof.Machine

/-! PROOFS, control transfer. The words of a control-flow instruction written from the rules, the
targets as numbers, and what a jump, a call, a return and a skip leave. -/

namespace Sys2Proof.Machine

/-! ## Control-flow words written from the rules -/

section

variable {base : Word} {call : BitVec 1} {mode : BitVec 2} {cond : Cond} {low : BitVec 8}

/-- The base word of a control-flow instruction: bit 15, L and MODE (30_encoding R113). -/
def controlBase (call : BitVec 1) (mode : BitVec 2) : Word :=
  0x8000#16 ||| (call.setWidth 16 <<< 14) ||| (mode.setWidth 16 <<< 8)

theorem wordCf_controlBase_zero (call : BitVec 1) (mode : BitVec 2) (cond : Cond) :
    wordCf (controlBase call mode) cond 0#8 = packControl call cond mode 0#8 := by
  obtain ⟨ce, inv, cc⟩ := cond
  revert call mode ce inv
  cases cc <;> decide

theorem wordCf_eq_packControl (h : base = controlBase call mode) (cond : Cond) (low : BitVec 8) :
    wordCf base cond low = packControl call cond mode low := by
  have hlow : wordCf base cond low = word1 (wordCf base cond 0#8) low := by simp [wordCf, word1]
  rw [hlow, h, wordCf_controlBase_zero, word1_eq_packByte (low8_packControl _ _ _ _)]
  simp only [packControl, packByte, high8_ofBytes]

/-- The fields of the low byte may be written after the rest of the word. -/
theorem wordCf_or_word2 (base : Word) (cond : Cond) (a b : BitVec 4) :
    wordCf base cond 0#8 ||| word2 0#16 a b = wordCf base cond (packNibbles a b) := by
  simp [wordCf, word2, setWidth_packNibbles]

theorem decodesTo_wordCf {mk : Word → Instr} (h : base = controlBase call mode)
    (hmk : ∀ imm, encode (mk imm) = [packControl call cond mode low]
      ∨ encode (mk imm) = [packControl call cond mode low, imm]) :
    DecodesTo (wordCf base cond low) mk :=
  wordCf_eq_packControl h cond low ▸ decodesTo_of_encode hmk

theorem decodesTo_wordCf_nibbles {mk : Word → Instr} {a b : BitVec 4}
    (h : base = controlBase call mode)
    (hmk : ∀ imm, encode (mk imm) = [packControl call cond mode (packNibbles a b)]
      ∨ encode (mk imm) = [packControl call cond mode (packNibbles a b), imm]) :
    DecodesTo (wordCf base cond 0 ||| word2 0 a b) mk :=
  wordCf_or_word2 base cond a b ▸ decodesTo_wordCf h hmk

end

/-! ## The targets as numbers (30_encoding R116) -/

/-- Twice a signed word added modulo 2^16. -/
theorem toNat_add_shiftLeft_one (a k : Word) :
    ((a + (k <<< 1)).toNat : Int) = (a.toNat + 2 * k.toInt) % 2 ^ 16 := by
  have hk := BitVec.toInt_eq_toNat_cond k
  rw [BitVec.toNat_add, BitVec.toNat_shiftLeft, Nat.shiftLeft_eq]
  split at hk <;> omega

theorem toNat_relativeTarget (s : State) (d : BitVec 8) :
    ((relativeTarget (s.advance 2#16) d).toNat : Int)
      = (s.pc.toNat + 2 + 2 * d.toInt) % 2 ^ 16 := by
  rw [relativeTarget, toNat_add_shiftLeft_one, toInt_simm8, State.pc_advance, BitVec.toNat_add,
    BitVec.toNat_ofNat]
  omega

theorem toNat_indexedShortTarget (s : State) (k : Word) (rx : Reg) (off : BitVec 4) :
    ((indexedShortTarget (s.advance k) rx off).toNat : Int)
      = ((operand s k rx).toNat + 2 * off.toInt) % 2 ^ 16 := by
  rw [indexedShortTarget, toNat_add_shiftLeft_one, toInt_simm4, operand_eq_reg_advance]

theorem toNat_indexedLongTarget (s : State) (k : Word) (rx : Reg) (imm : Word) :
    (indexedLongTarget (s.advance k) rx imm).toNat
      = ((operand s k rx).toNat + imm.toNat) % 2 ^ 16 := by
  rw [indexedLongTarget, BitVec.toNat_add, operand_eq_reg_advance]

/-! ## Skipped, taken, called, returned -/

section

variable {s : State} {k : Word} {cond : Cond}

/-- An outcome that is the advance alone changes pc and nothing else. -/
theorem exists_advance {o : Host.Outcome State Fault Refusal} (h : o = .next (s.advance k)) :
    ∃ t, o = .next t ∧ t.pc = s.pc + k ∧ t.flags = s.flags ∧ t.out = s.out
      ∧ Frame s t k (fun _ => False) (fun _ => False) :=
  ⟨_, h, State.pc_advance s k, rfl, rfl, frame_advance s k _ _⟩

theorem unlessSkipped_of_not_taken (h : ¬ Taken cond s.flags) (r : Res State) :
    unlessSkipped s (s.advance k) cond r = .next (s.advance k) :=
  if_pos (skips_iff_not_taken.2 h)

theorem unlessSkipped_of_taken (h : Taken cond s.flags) (r : Res State) :
    unlessSkipped s (s.advance k) cond r = complete s r := by
  rw [unlessSkipped, State.advance_flags, skips_eq_false_iff.2 h]
  rfl

variable (s k) in
/-- A taken jump writes pc and nothing else (48_control_transfer R373). -/
theorem jump_completes (h : Taken cond s.flags) (target : Word) :
    ∃ t, unlessSkipped s (s.advance k) cond (.ok ((s.advance k).setPc target)) = .next t
      ∧ t.pc = target ∧ t.flags = s.flags ∧ WroteOnly s t k 15#4 :=
  ⟨_, unlessSkipped_of_taken h _, State.pc_setPc _ target, rfl,
    wroteOnly_setReg_advance s k Reg.pc target⟩

theorem reg_setPc_of_ne {u : State} {r : Reg} (h : r ≠ Reg.pc) {v : Word} :
    (u.setPc v).reg r = u.reg r := by
  simp [h]

variable (s k) in
theorem call_completes (h : Taken cond s.flags) (target : Word) :
    (s.memOk = true → s.WordOk (s.reg 14#4) →
      ∃ t, unlessSkipped s (s.advance k) cond (callTo (s.advance k) target) = .next t
        ∧ t.pc = target ∧ HoldsWord t (s.reg 14#4) (s.pc + k) ∧ t.reg 14#4 = s.reg 14#4 - 2#16
        ∧ t.flags = s.flags ∧ Frame s t k (fun r => r = 14#4 ∨ r = 15#4)
            (fun a => a = (s.reg 14#4).toNat ∨ a = (s.reg 14#4).toNat + 1))
    ∧ WordFaults s (s.reg 14#4)
        (unlessSkipped s (s.advance k) cond (callTo (s.advance k) target)) := by
  rw [unlessSkipped_of_taken h, callTo, State.pc_advance]
  constructor
  · intro hm hok
    have ht := pushedOn_afterPush rsp_ne_pc k (s.pc + k) hm
    rw [pushOn_advance rsp_ne_pc k _ hok]
    exact ⟨_, rfl, State.pc_setPc _ target, ht.word, (reg_setPc_of_ne rsp_ne_pc).trans ht.pointer,
      ht.flags, (ht.frame.mono fun _ => .inl).setReg (.inr rfl) target⟩
  · have hreg : (s.advance k).reg Reg.rsp = s.reg 14#4 := reg_advance_of_ne k rsp_ne_pc
    rw [← hreg]
    exact wordFaults_complete ((pushOn_raises (s.advance k) Reg.rsp _).bind _)

/-- RET takes the address a call has pushed, wherever the call went
(48_control_transfer R370, R372). -/
theorem call_then_ret (h : Taken cond s.flags) (hm : s.memOk = true)
    (hok : s.WordOk (s.reg 14#4)) (k target : Word) (q : BitVec 8) :
    ∃ t u, unlessSkipped s (s.advance k) cond (callTo (s.advance k) target) = .next t
      ∧ exec (.ret q) t = .next u ∧ u.pc = s.pc + k ∧ u.reg 14#4 = s.reg 14#4
      ∧ u.flags = s.flags ∧ ∀ r, r ≠ 14#4 → r ≠ 15#4 → u.reg r = s.reg r := by
  obtain ⟨t, hcall, -, hword, hpointer, hflags, hframe⟩ := (call_completes s k h target).1 hm hok
  obtain ⟨u, hret, hpc, hback, hflags', hframe'⟩ :=
    pop_of_holdsWord rsp_ne_pc hword hpointer (hframe.wordOk hok) 2#16 Reg.pc
  refine ⟨t, u, hcall, hret, hpc, hback (by decide), hflags'.trans hflags, fun r hrsp hr => ?_⟩
  calc u.reg r
    _ = operand t 2#16 r := hframe'.regs r (by simp [hr, hrsp, Reg.pc, Reg.rsp])
    _ = t.reg r := if_neg hr
    _ = operand s k r := hframe.regs r (by simp [hr, hrsp])
    _ = s.reg r := if_neg hr

end

/-! ## The obligations -/

/-- Settles O52, mode by mode: each target is the number the rule gives. -/
theorem jumpResults : Obligations.JumpResults := by
  intro s cond p d rx k x imm
  simp only [← toNat_relativeTarget, ← toNat_indexedShortTarget, ← toNat_indexedLongTarget,
    Int.natCast_inj, BitVec.toNat_inj]
  exact ⟨⟨decodesTo_wordCf rfl fun _ => .inr rfl, fun h => jump_completes s _ h _⟩,
    ⟨decodesTo_wordCf rfl fun _ => .inl rfl, fun h => jump_completes s _ h _⟩,
    ⟨decodesTo_wordCf_nibbles rfl fun _ => .inl rfl, fun h => jump_completes s _ h _⟩,
    decodesTo_wordCf_nibbles rfl fun _ => .inr rfl, fun h => jump_completes s _ h _⟩

/-- Settles O53: the condition test comes before the jump or call, after the advance. -/
theorem skippedControlOnlyAdvances : Obligations.SkippedControlOnlyAdvances := by
  intro s cond p d rx k x imm h
  have skipped (k : Word) (r : Res State) :=
    exists_advance (k := k) (unlessSkipped_of_not_taken h r)
  simp only [List.forall_mem_cons]
  exact ⟨⟨skipped _ _, skipped _ _, skipped _ _, skipped _ _, List.forall_mem_nil _⟩,
    skipped _ _, skipped _ _, skipped _ _, skipped _ _, List.forall_mem_nil _⟩

/-- Settles O54, mode by mode as O52, each by `call_completes`. -/
theorem callResults : Obligations.CallResults := by
  intro s cond p d rx k x imm pushed
  refine ⟨⟨decodesTo_wordCf rfl fun _ => .inr rfl, decodesTo_wordCf rfl fun _ => .inl rfl,
    decodesTo_wordCf_nibbles rfl fun _ => .inl rfl,
    decodesTo_wordCf_nibbles rfl fun _ => .inr rfl⟩, fun h => ?_⟩
  simp only [← toNat_relativeTarget, ← toNat_indexedShortTarget, ← toNat_indexedLongTarget,
    Int.natCast_inj, BitVec.toNat_inj]
  have called (k target : Word) := call_completes s k h target
  exact ⟨fun hm hok => ⟨(called _ _).1 hm hok, (called _ _).1 hm hok, (called _ _).1 hm hok,
    (called _ _).1 hm hok⟩, (called _ _).2, (called _ _).2, (called _ _).2, (called _ _).2⟩

/-- Settles O55: RET is the pop of the return stack into pc. -/
theorem retResults : Obligations.RetResults := by
  intro s p
  obtain ⟨hpop, hfaults⟩ := popInto_completes (s := s) rsp_ne_pc 2#16 Reg.pc
  refine ⟨decodesTo_word1 rfl fun _ => rfl, fun hok => ?_, hfaults⟩
  obtain ⟨t, ht, hword, hpointer, hflags, hframe⟩ := hpop hok
  exact ⟨t, ht, hword, hpointer (by decide), hflags, hframe.mono fun _ => Or.symm⟩

/-- Settles O56, for all four calls by `call_then_ret`. -/
theorem callThenRet : Obligations.CallThenRet := by
  intro s cond p q d rx k x imm hm hok h
  have returns (k target : Word) := call_then_ret h hm hok k target q
  simp only [List.forall_mem_cons]
  exact ⟨⟨returns _ _, returns _ _, List.forall_mem_nil _⟩,
    returns _ _, returns _ _, List.forall_mem_nil _⟩

end Sys2Proof.Machine

/-! PROOFS, system. A handler's acts one by one: the state each leaves where it raises nothing, what
it keeps of the rest, and the first act of a list that raises or is not allowed. -/

namespace Sys2Proof.Machine

@[simp] theorem get_set_flag (fl : Flags) (f g : Flag) (b : Bool) :
    (fl.set f b).get g = if g = f then b else fl.get g := by
  cases f <;> cases g <;> rfl

theorem low8_eq_setWidth (v : Word) : v.low8 = v.setWidth 8 := by
  rw [← BitVec.toNat_inj, toNat_low8, BitVec.toNat_setWidth]

theorem high8_eq_setWidth_shiftRight (v : Word) : v.high8 = (v >>> 8).setWidth 8 := by
  have hv := v.isLt
  rw [← BitVec.toNat_inj, toNat_high8, BitVec.toNat_setWidth, BitVec.toNat_ushiftRight,
    Nat.shiftRight_eq_div_pow]
  omega

/-! ## One act that raises nothing -/

/-- The state an act leaves where it raises nothing (47_stack R344). -/
def State.afterAct (t : State) : HandlerAct → State
  | .setReg r v  => t.setReg r v
  | .setFlag f b => t.setFlags (t.flags.set f b)
  | .setByte a v => t.setByteAt a.toNat v
  | .setRun r    => { t with run := r }
  | .setRecord c info p => t.setRecord c info p
  | .dpush v     => t.afterPush Reg.sp v
  | .dpop        => t.afterPop Reg.sp

/-- The act is allowed, and the word access it makes with SP = `sp` raises nothing. -/
def State.actDone (s : State) (sp : Word) (act : HandlerAct) : Bool :=
  actAllowed s.cfg act && (stackAddress sp act).all fun a => decide (s.WordOk a)

section

variable {t : State} {act : HandlerAct}

theorem actDone_iff {s : State} {sp : Word} : s.actDone sp act = true ↔
    actAllowed s.cfg act = true ∧ ∀ a, stackAddress sp act = some a → s.WordOk a := by
  simp only [State.actDone, Bool.and_eq_true, Option.all_eq_true, decide_eq_true_eq]

theorem actDone_eq_false_iff {s : State} {sp : Word} : s.actDone sp act = false ↔
    actAllowed s.cfg act = false ∨ ∃ a, stackAddress sp act = some a ∧ ¬ s.WordOk a := by
  rw [← Bool.not_eq_true, actDone_iff]
  simp only [not_and_or, Bool.not_eq_true, not_forall, exists_prop]

theorem runAct_ok (h : ∀ a, stackAddress (t.reg Reg.sp) act = some a → t.WordOk a) :
    runAct t act = .ok (t.afterAct act) := by
  cases act with
  | setReg | setFlag | setByte | setRun | setRecord => rfl
  | dpush v => exact pushOn_ok (h _ rfl) v
  | dpop => rw [runAct, popFrom_ok (h _ rfl)]; rfl

/-- A primitive raises whatever its word access raises (log 9). -/
theorem runAct_raises {a : Word} (h : stackAddress (t.reg Reg.sp) act = some a) :
    RaisesAccess t a .word (runAct t act) := by
  cases act with
  | setReg | setFlag | setByte | setRun | setRecord => cases h
  | dpush v => cases h; exact pushOn_raises t Reg.sp v
  | dpop => cases h; exact (popFrom_raises t Reg.sp).bind _

theorem follows_afterAct (h : t.actDone (t.reg Reg.sp) act = true) :
    Follows t (t.afterAct act) := by
  obtain ⟨hallowed, hok⟩ := actDone_iff.1 h
  have hfrom := runAct_from hallowed
  rwa [runAct_ok hok] at hfrom

/-! ### What an act writes -/

variable (t act)

theorem sp_afterAct : (t.afterAct act).reg Reg.sp = spAfterAct (t.reg Reg.sp) act := by
  cases act with
  | setFlag | setByte | setRun | setRecord => rfl
  | setReg r v => simp [State.afterAct, spAfterAct, eq_comm]
  | dpush v => simp [State.afterAct, State.afterPush, spAfterAct]
  | dpop => simp [State.afterAct, State.afterPop, spAfterAct]

theorem byteAt_afterAct (hwf : Memory.wf t.mem = true) (a : Nat) :
    (t.afterAct act).byteAt a = (storedBy (t.reg Reg.sp) act a).getD (t.byteAt a) := by
  cases act with
  | setReg | setFlag | setRun | setRecord | dpop => rfl
  | setByte b v =>
    rw [State.afterAct, State.byteAt_setByteAt t hwf, storedBy]
    split <;> rfl
  | dpush v =>
    rw [State.afterAct, State.afterPush, State.byteAt_setReg, State.byteAt_emit,
      State.byteAt_setWordAt t hwf, storedBy, low8_eq_setWidth, high8_eq_setWidth_shiftRight]
    by_cases hlow : a = (t.reg Reg.sp).toNat
    · simp [hlow]
    · by_cases hhigh : a = (t.reg Reg.sp).toNat + 1 <;> simp [hlow, hhigh]

theorem wf_afterAct (hwf : Memory.wf t.mem = true) : Memory.wf (t.afterAct act).mem = true := by
  cases act with
  | setReg | setFlag | setRun | setRecord | dpop => exact hwf
  | setByte b v => exact Memory.wf_set _ _ hwf
  | dpush v => exact Memory.wf_set _ _ (Memory.wf_set _ _ hwf)

theorem calls_afterAct : (t.afterAct act).out.calls = t.out.calls := by
  cases act <;> rfl

theorem cfg_afterAct : (t.afterAct act).cfg = t.cfg := by
  cases act <;> rfl

variable {act}

theorem reg_afterAct {r : Reg} (h : writesReg r act = false) :
    (t.afterAct act).reg r = t.reg r := by
  cases act with
  | setFlag | setByte | setRun | setRecord => rfl
  | setReg q v =>
    have hne : r ≠ q := by
      rintro rfl
      simp [writesReg] at h
    simp [State.afterAct, hne]
  | dpush v =>
    have hne : r ≠ Reg.sp := by simpa [writesReg] using h
    simp [State.afterAct, State.afterPush, hne]
  | dpop =>
    have hne : r ≠ Reg.sp := by simpa [writesReg] using h
    simp [State.afterAct, State.afterPop, hne]

theorem flag_afterAct {f : Flag} (h : writesFlag f act = false) :
    (t.afterAct act).flags.get f = t.flags.get f := by
  cases act with
  | setReg | setByte | setRun | setRecord | dpush | dpop => rfl
  | setFlag g b =>
    have hne : f ≠ g := by
      rintro rfl
      simp [writesFlag] at h
    simp [State.afterAct, hne]

theorem run_afterAct (h : writesRun act = false) : (t.afterAct act).run = t.run := by
  cases act with
  | setRun r => cases h
  | setReg | setFlag | setByte | setRecord | dpush | dpop => rfl

/-- The fault record as one value. -/
def State.record (t : State) : BitVec 3 × BitVec 17 × Word := (t.fcause, t.finfo, t.fpc)

theorem record_afterAct (h : writesRecord act = false) : (t.afterAct act).record = t.record := by
  cases act with
  | setRecord c info p => cases h
  | setReg | setFlag | setByte | setRun | dpush | dpop => rfl

end

/-! ## Acts in order -/

/-- The state acts leave, done in order, where none raises. -/
def State.afterActs (t : State) (acts : List HandlerAct) : State := acts.foldl State.afterAct t

/-- What acts that do not write a view of the state leave of it. -/
theorem afterActs_keeps {β : Type} {view : State → β} {writes : HandlerAct → Bool}
    (h : ∀ t act, writes act = false → view (State.afterAct t act) = view t) (t : State)
    {acts : List HandlerAct} (hacts : ∀ b ∈ acts, writes b = false) :
    view (t.afterActs acts) = view t := by
  induction acts generalizing t with
  | nil => rfl
  | cons act rest ih =>
    obtain ⟨hact, hrest⟩ := List.forall_mem_cons.1 hacts
    exact (ih (t.afterAct act) hrest).trans (h t act hact)

/-- The act that writes a view of the state last decides what the acts leave of it. -/
theorem afterActs_last {β : Type} {view : State → β} {writes : HandlerAct → Bool}
    (h : ∀ t act, writes act = false → view (State.afterAct t act) = view t) (t : State)
    {acts : List HandlerAct} {act : HandlerAct}
    (hlast : LastAct acts act (fun b => writes b = true)) :
    ∃ u : State, view (t.afterActs acts) = view (u.afterAct act) := by
  obtain ⟨pre, post, rfl, hpost⟩ := hlast
  refine ⟨t.afterActs pre, ?_⟩
  rw [State.afterActs, List.foldl_append, List.foldl_cons]
  exact afterActs_keeps h _ fun b hb => Bool.eq_false_of_not_eq_true (hpost b hb)

theorem sp_afterActs (t : State) (acts : List HandlerAct) :
    (t.afterActs acts).reg Reg.sp = spAfter (t.reg Reg.sp) acts := by
  induction acts generalizing t with
  | nil => rfl
  | cons act rest ih =>
    rw [spAfter, List.foldl_cons, ← sp_afterAct]
    exact ih (t.afterAct act)

theorem byteAt_afterActs {t : State} (hwf : Memory.wf t.mem = true) (acts : List HandlerAct)
    (a : Nat) : (t.afterActs acts).byteAt a = byteAfter a (t.reg Reg.sp) (t.byteAt a) acts := by
  induction acts generalizing t with
  | nil => rfl
  | cons act rest ih =>
    rw [byteAfter, ← sp_afterAct, ← byteAt_afterAct t act hwf]
    exact ih (wf_afterAct t act hwf)

/-! ## Acts that are all done, and the first that is not -/

section

variable {s t : State} {sp : Word}

theorem actsDone_cons (act : HandlerAct) (rest : List HandlerAct) : s.actsDone sp (act :: rest)
    = (s.actDone sp act && s.actsDone (spAfterAct sp act) rest) := by
  rw [State.actsDone, State.actDone]
  cases stackAddress sp act <;> rfl

/-- Whether acts are done depends on the configuration alone of the state. -/
theorem actsDone_congr (h : t.cfg = s.cfg) (acts : List HandlerAct) :
    t.actsDone sp acts = s.actsDone sp acts := by
  induction acts generalizing sp with
  | nil => rfl
  | cons act rest ih => simp only [State.actsDone, State.WordOk, h, ih]

/-- Where acts are not all done, some act is the first that is not. -/
theorem exists_first_not_done {acts : List HandlerAct} (h : s.actsDone sp acts = false) :
    ∃ pre act post, acts = pre ++ act :: post ∧ s.actsDone sp pre = true
      ∧ s.actDone (spAfter sp pre) act = false := by
  induction acts generalizing sp with
  | nil => cases h
  | cons act rest ih =>
    by_cases hact : s.actDone sp act = true
    · rw [actsDone_cons, hact, Bool.true_and] at h
      obtain ⟨pre, bad, post, rfl, hpre, hbad⟩ := ih h
      exact ⟨act :: pre, bad, post, rfl, by rw [actsDone_cons, hact, hpre]; rfl, hbad⟩
    · exact ⟨[], act, rest, rfl, rfl, Bool.eq_false_of_not_eq_true hact⟩

/-- Acts that are all done are run through, and what they leave follows the state they ran from. -/
theorem runActs_of_done {n : BitVec 8} {acts : List HandlerAct}
    (h : t.actsDone (t.reg Reg.sp) acts = true) (rest : List HandlerAct) :
    runActs s n t (acts ++ rest) = runActs s n (t.afterActs acts) rest
      ∧ Follows t (t.afterActs acts) := by
  induction acts generalizing t with
  | nil => exact ⟨rfl, Follows.rfl' t⟩
  | cons act acts ih =>
    rw [actsDone_cons, Bool.and_eq_true, ← sp_afterAct,
      ← actsDone_congr (cfg_afterAct t act)] at h
    obtain ⟨hact, hacts⟩ := h
    obtain ⟨hallowed, hok⟩ := actDone_iff.1 hact
    obtain ⟨hrun, hfollows⟩ := ih hacts
    refine ⟨?_, (follows_afterAct hact).trans hfollows⟩
    rw [List.cons_append, runActs, if_pos hallowed, runAct_ok hok]
    exact hrun

theorem runActs_refused {n : BitVec 8} {act : HandlerAct} (h : actAllowed t.cfg act = false)
    (rest : List HandlerAct) : runActs s n t (act :: rest) = .refused (.handlerActRefused n) := by
  rw [runActs, h]
  rfl

/-- A primitive whose access raises ends the step by fault entry, the call-out kept (log 9). -/
theorem wordFaultsAfter_runActs {n : BitVec 8} {act : HandlerAct} {a : Word}
    {made : List (BitVec 8)} (hcfg : t.cfg = s.cfg) (hdiags : s.out.diags <+: t.out.diags)
    (hcalls : t.out.calls = s.out.calls ++ made)
    (ha : stackAddress (t.reg Reg.sp) act = some a) (rest : List HandlerAct) :
    WordFaultsAfter s made a (runActs s n t (act :: rest)) := by
  refine wordFaultsAfter_of_faultEntry hdiags hcalls fun c info hf => ?_
  have hallowed : actAllowed t.cfg act = true := by
    cases act with
    | dpush | dpop => rfl
    | setReg | setFlag | setByte | setRun | setRecord => cases ha
  rw [runActs, if_pos hallowed, runAct_raises ha c info (hcfg ▸ hf)]

end

/-! ## The call of a handler -/

section

variable {s : State} {n : BitVec 8} {acts : List HandlerAct}

theorem exec_syscall_filled {h : Handler} (hn : n.toNat < s.cfg.tableSize)
    (hslot : s.cfg.handlers.lookup n = some h) :
    exec (.syscall n) s = callHandler s (s.advance 2#16) n h := by
  simp only [exec, execSyscall, State.advance_cfg, handlerOf_eq_some.2 ⟨hn, hslot⟩]

theorem exec_syscall_empty (h : s.cfg.tableSize ≤ n.toNat ∨ s.cfg.handlers.lookup n = none) :
    exec (.syscall n) s = .next (s.advance 2#16) := by
  have hempty : handlerOf s.cfg n = none := by
    unfold handlerOf
    rcases h with h | h
    · exact if_neg (Nat.not_lt.2 h)
    · rw [h, ite_self]
  simp only [exec, execSyscall, State.advance_cfg, hempty]

/-- The state in which a handler's acts begin: pc at I + 2, the call-out made (49_system R392). -/
def State.called (s : State) (n : BitVec 8) : State := (s.advance 2#16).callOut n

theorem reg_sp_called (s : State) (n : BitVec 8) : (s.called n).reg Reg.sp = s.reg Reg.sp :=
  reg_advance_of_ne 2#16 sp_ne_pc

/-- What acts leave that are done from the handler's call, view by view. -/
theorem actsLeave_afterActs (hm : s.memOk = true) (n : BitVec 8) (acts : List HandlerAct) :
    ActsLeave s ((s.called n).afterActs acts) acts where
  keepReg r h := (afterActs_keeps (view := (State.reg · r)) (fun t _ => reg_afterAct t) _ h).trans
    (operand_eq_reg_advance _ r).symm
  lastReg r v h := by
    obtain ⟨u, hu⟩ := afterActs_last (view := (State.reg · r)) (fun t _ => reg_afterAct t) _ h
    exact hu.trans (by simp [State.afterAct])
  sp := by rw [← reg_sp_called s n]; exact sp_afterActs _ acts
  keepFlag f h :=
    afterActs_keeps (view := (State.flags · |>.get f)) (fun t _ => flag_afterAct t) (s.called n) h
  lastFlag f v h := by
    obtain ⟨u, hu⟩ := afterActs_last (view := (State.flags · |>.get f))
      (fun t _ => flag_afterAct t) _ h
    exact hu.trans (by simp [State.afterAct])
  bytes a := by
    rw [byteAt_afterActs (t := s.called n) (State.wf_of_memOk hm), reg_sp_called]
    rfl
  keepRun h := afterActs_keeps (view := State.run) (fun t _ => run_afterAct t) (s.called n) h
  lastRun r h := by
    obtain ⟨u, hu⟩ := afterActs_last (view := State.run) (fun t _ => run_afterAct t) (s.called n) h
    exact hu
  keepRecord h := by
    have hrecord :=
      afterActs_keeps (view := State.record) (fun t _ => record_afterAct t) (s.called n) h
    exact ⟨congrArg (·.1) hrecord, congrArg (·.2.1) hrecord, congrArg (·.2.2) hrecord⟩
  lastRecord c info p h := by
    obtain ⟨u, hu⟩ := afterActs_last (view := State.record) (fun t _ => record_afterAct t)
      (s.called n) h
    exact ⟨congrArg (·.1) hu, congrArg (·.2.1) hu, congrArg (·.2.2) hu⟩
  cfg := afterActs_keeps (view := State.cfg) (writes := fun _ => false)
    (fun t act _ => cfg_afterAct t act) (s.called n) fun _ _ => rfl

/-- Acts that are all done after the call-out: the run comes to what follows them, SP as they leave
it and the call-out made. -/
theorem runActs_called_append (h : s.actsDone (s.reg Reg.sp) acts = true) (rest : List HandlerAct) :
    runActs s n (s.called n) (acts ++ rest) = runActs s n ((s.called n).afterActs acts) rest
      ∧ Follows s ((s.called n).afterActs acts)
      ∧ ((s.called n).afterActs acts).reg Reg.sp = spAfter (s.reg Reg.sp) acts
      ∧ ((s.called n).afterActs acts).out.calls = s.out.calls ++ [n] := by
  have hcfg : (s.called n).cfg = s.cfg := rfl
  rw [← reg_sp_called s n, ← actsDone_congr hcfg] at h
  obtain ⟨hrun, hfollows⟩ := runActs_of_done (s := s) (n := n) h rest
  have hcalled : Follows s (s.called n) := (follows_advance s 2#16).trans (follows_callOut _ n)
  have hcalls := afterActs_keeps (view := fun t => t.out.calls) (writes := fun _ => false)
    (fun t act _ => calls_afterAct t act) (s.called n) (acts := acts) fun _ _ => rfl
  rw [← reg_sp_called s n]
  exact ⟨hrun, hcalled.trans hfollows, sp_afterActs _ acts, hcalls⟩

/-- Acts that are all done, from the handler's call to its return. -/
theorem runActs_called (hm : s.memOk = true) (h : s.actsDone (s.reg Reg.sp) acts = true) :
    ∃ t, runActs s n (s.called n) acts = .next t ∧ Follows s t ∧ ActsLeave s t acts
      ∧ t.out.calls = s.out.calls ++ [n] := by
  obtain ⟨hrun, hfollows, -, hcalls⟩ := runActs_called_append (n := n) h []
  rw [List.append_nil] at hrun
  exact ⟨_, hrun, hfollows, actsLeave_afterActs hm n acts, hcalls⟩

/-- The outcome where the acts are not all done: the first that is not raises at the address SP then
gives, or is refused. -/
theorem runActs_called_not_done (h : s.actsDone (s.reg Reg.sp) acts = false) :
    ∃ pre act post, acts = pre ++ act :: post ∧ s.actsDone (s.reg Reg.sp) pre = true
      ∧ ((actAllowed s.cfg act = false
          ∧ runActs s n (s.called n) acts = .refused (.handlerActRefused n))
        ∨ ∃ a, stackAddress (spAfter (s.reg Reg.sp) pre) act = some a ∧ ¬ s.WordOk a
            ∧ WordFaultsAfter s [n] a (runActs s n (s.called n) acts)) := by
  obtain ⟨pre, act, post, rfl, hpre, hact⟩ := exists_first_not_done h
  obtain ⟨hrun, hfollows, hsp, hcalls⟩ := runActs_called_append (n := n) hpre (act :: post)
  refine ⟨pre, act, post, rfl, hpre, ?_⟩
  rw [hrun]
  rcases actDone_eq_false_iff.1 hact with hrefused | ⟨a, ha, hraises⟩
  · exact .inl ⟨hrefused, runActs_refused (hfollows.cfg ▸ hrefused) post⟩
  · rw [← hsp] at ha
    exact .inr ⟨a, hsp ▸ ha, hraises,
      wordFaultsAfter_runActs hfollows.cfg hfollows.diags hcalls ha post⟩

theorem wordFaultsAfter_runActs_called {act : HandlerAct} {a : Word}
    (h : stackAddress (s.reg Reg.sp) act = some a) (rest : List HandlerAct) :
    WordFaultsAfter s [n] a (runActs s n (s.called n) (act :: rest)) := by
  rw [← reg_sp_called s n] at h
  exact wordFaultsAfter_runActs (s := s) (t := s.called n) rfl List.prefix_rfl rfl h rest

/-- Acts that make no access are done wherever each is allowed. -/
theorem actsDone_of_direct {sp : Word}
    (h : ∀ b ∈ acts, actAllowed s.cfg b = true ∧ b ≠ .dpop ∧ ∀ v, b ≠ .dpush v) :
    s.actsDone sp acts = true := by
  induction acts generalizing sp with
  | nil => rfl
  | cons act rest ih =>
    obtain ⟨⟨hallowed, hpop, hpush⟩, hrest⟩ := List.forall_mem_cons.1 h
    have hact : s.actDone sp act = true := by
      refine actDone_iff.2 ⟨hallowed, fun a ha => ?_⟩
      cases act with
      | dpush v => exact absurd rfl (hpush v)
      | dpop => exact absurd rfl hpop
      | setReg | setFlag | setByte | setRun | setRecord => cases ha
    rw [actsDone_cons, hact, ih hrest]
    rfl

theorem runActs_called_singleton {act : HandlerAct}
    (h : s.actDone (s.reg Reg.sp) act = true) :
    runActs s n (s.called n) [act] = .next ((s.called n).afterAct act) := by
  have hdone : s.actsDone (s.reg Reg.sp) [act] = true := by rw [actsDone_cons, h]; rfl
  exact (runActs_called_append hdone []).1

theorem callHandler_of_some {t : State} {h : Handler} (hacts : handlerActs t n h = some acts) :
    callHandler s t n h = runActs s n (t.callOut n) acts := by
  rw [callHandler, hacts]

theorem callHandler_of_none {t : State} {h : Handler} (hacts : handlerActs t n h = none) :
    callHandler s t n h = .fault (.handlerNeverReturns n) := by
  rw [callHandler, hacts]

/-- The call-out is no part of the control state. -/
theorem SameControl.of_callOut {t : State} (h : SameControl (s.callOut n) t) : SameControl s t :=
  ⟨h.run, h.fcause, h.finfo, h.fpc, h.cfg⟩

theorem Frame.pc_eq {t : State} {k : Word} {dst : Reg → Prop} {stored : Nat → Prop}
    (h : Frame s t k dst stored) (hpc : ¬ dst Reg.pc) : t.pc = s.pc + k :=
  (h.regs Reg.pc hpc).trans (if_pos rfl)

end

/-! ## The obligations -/

/-- Settles O57: the meanings are the advance, for HALT with the run state, which stops the next
step. -/
theorem nopAndHaltResults : Obligations.NopAndHaltResults := by
  intro s p
  refine ⟨⟨decodesTo_word1 rfl fun _ => rfl, exists_advance rfl⟩,
    decodesTo_word1 rfl fun _ => rfl, _, rfl, rfl, State.pc_advance s 2#16,
    fun r => (operand_eq_reg_advance _ r).symm, rfl, rfl, rfl, rfl, rfl, rfl, rfl, ?_⟩
  exact step_of_not_running (by simp)

/-- Settles O58: no handler is found. -/
theorem syscallWithoutHandler : Obligations.SyscallWithoutHandler := fun _ _ =>
  ⟨decodesTo_word1 rfl fun _ => rfl, fun h => exists_advance (exec_syscall_empty h)⟩

/-- Settles O59: each primitive alone is its act from the call-out, direct writes are what acts
leave, and the acts before a refused one are all done. -/
theorem syscallRunsItsHandler : Obligations.SyscallRunsItsHandler := by
  intro s n acts hn hslot hm
  have hexec : exec (.syscall n) s = runActs s n (s.called n) acts := exec_syscall_script hn hslot
  rw [hexec]
  refine ⟨?_, ?_, ?_, ?_, ?_, ?_⟩
  · rintro v rfl hok
    have ht := pushedOn_afterPush (s := s.callOut n) sp_ne_pc 2#16 v hm
    refine ⟨_, runActs_called_singleton ?_, ht.word, ht.pointer, ht.frame.pc_eq (by decide),
      ht.frame.regs, ht.flags, ht.frame.control.of_callOut, ?_, ht.frame.calls⟩
    · exact actDone_iff.2 ⟨rfl, by rintro a ⟨⟩; exact hok⟩
    · exact fun a hlow hhigh => ht.frame.bytes a (not_or.2 ⟨hlow, hhigh⟩)
  · rintro rfl hok
    have hframe := frame_afterPop (s.callOut n) 2#16 Reg.sp
    refine ⟨_, runActs_called_singleton ?_, ?_, hframe.pc_eq (by decide), hframe.regs, rfl, rfl,
      hframe.control.of_callOut, hframe.calls⟩
    · exact actDone_iff.2 ⟨rfl, by rintro a ⟨⟩; exact hok⟩
    · rw [← show (s.called n).reg Reg.sp = s.reg 13#4 from reg_sp_called s n]
      exact sp_afterAct _ .dpop
  · rintro r v f b a c k i p rfl ha
    have hdone : s.actsDone (s.reg Reg.sp)
        [.setReg r v, .setFlag f b, .setByte a c, .setRun .halted, .setRecord k i p] = true :=
      actsDone_of_direct (by simp [actAllowed, ha])
    obtain ⟨t, ht, -, hleave, hcalls⟩ := runActs_called (n := n) hm hdone
    obtain ⟨hcause, hinfo, hfpc⟩ :=
      hleave.lastRecord k i p ⟨[_, _, _, _], [], rfl, by simp⟩
    refine ⟨t, ht, hleave.lastReg r v ⟨[], _, rfl, by simp [writesReg]⟩,
      fun q hq => hleave.keepReg q (by simp [writesReg, hq.symm]),
      hleave.lastFlag f b ⟨[_], _, rfl, by simp [writesFlag]⟩,
      fun g hg => hleave.keepFlag g (by simp [writesFlag, hg.symm]), ?_, fun j hj => ?_,
      hleave.lastRun .halted ⟨[_, _, _], _, rfl, by simp [writesRun]⟩,
      hcause, hinfo, hfpc, hleave.cfg, hcalls⟩
    · simpa [byteAfter, storedBy] using hleave.bytes a.toNat
    · simpa [byteAfter, storedBy, hj] using hleave.bytes j
  · rintro v rest rfl
    exact wordFaultsAfter_runActs_called (act := .dpush v) rfl rest
  · rintro rest rfl
    exact wordFaultsAfter_runActs_called (act := .dpop) rfl rest
  · rintro pre act post rfl hpre hact
    obtain ⟨hrun, hfollows, -⟩ :=
      runActs_called_append (n := n) (actsDone_of_direct hpre) (act :: post)
    rw [hrun]
    refine runActs_refused ?_ post
    rw [hfollows.cfg]
    obtain ⟨a, c, rfl, ha⟩ | rfl := hact
    · exact decide_eq_false (Nat.not_lt.2 ha)
    · rfl

/-- Settles O60, whatever acts the free value gives: all are done (`runActs_called`), or the first
that is not decides (`runActs_called_not_done`). -/
theorem syscallOfAnUnknownHandler : Obligations.SyscallOfAnUnknownHandler := by
  intro s n hn hrun hm hslot
  rw [exec_syscall_filled hn hslot]
  cases hchoice : Config.handlerChoice s.out.calls.length n (s.advance 2#16).view with
  | none => exact callHandler_of_none hchoice
  | some acts =>
    rw [callHandler_of_some (t := s.advance 2#16) (h := .relation) hchoice]
    refine ⟨fun hdone => ?_, runActs_called_not_done⟩
    obtain ⟨t, ht, hfollows, hleave, hcalls⟩ := runActs_called (n := n) hm hdone
    exact ⟨t, ht, hfollows.run hrun, hleave, hfollows.diags, hcalls⟩

end Sys2Proof.Machine

/-! PROOFS, reset and the host. The resets, the state of a new engine byte by byte, and the host's
writes. -/

namespace Sys2Proof.Machine

/-! ## The run state -/

/-- Of a stopped engine, every transaction but the two resets keeps the run state. -/
theorem hostTx_run {s t : State} {tx : HostTx} (hrun : s.run ≠ .running)
    (h : hostTx s tx = some t) :
    (∃ draw, tx = .reset draw) ∨ tx = .resetToHalted ∨ t.run = s.run := by
  cases tx with
  | reset draw => exact .inl ⟨draw, rfl⟩
  | resetToHalted => exact .inr (.inl rfl)
  | writeRun r =>
    obtain ⟨hallowed, rfl⟩ := hostTx_writeRun_eq_some.1 h
    obtain ⟨hhalted, hr⟩ := (runWriteAllowed_iff.1 hallowed).2.resolve_left hrun
    exact .inr (.inr (hr.trans hhalted.symm))
  | writeByte a b =>
    obtain ⟨-, rfl⟩ := hostTx_writeByte_eq_some.1 h
    exact .inr (.inr rfl)
  | addSyscall n hd =>
    obtain ⟨-, rfl⟩ := hostTx_addSyscall_eq_some.1 h
    exact .inr (.inr rfl)
  | writeReg | writeFlag | writeRecord | setWatch | clearWatch | writeProtect =>
    cases h
    exact .inr (.inr rfl)

theorem hostTx_writeRun_refused {s : State} {r : RunState}
    (h : ¬ (r ≠ .faulted ∧ (s.run = .running ∨ (s.run = .halted ∧ r = .halted)))) :
    hostTx s (.writeRun r) = none :=
  if_neg (mt runWriteAllowed_iff.1 h)

/-! ## Bytes placed one by one -/

/-- `s` with the bytes of a draw of memory placed in turn (70 R450; log 22). -/
def placeBytes (s : State) (bytes : List (Nat × Byte)) : State :=
  bytes.foldl (fun s c => placeByte s c.1 c.2) s

/-- A new engine before its draw of memory (70 R450). -/
def blankEngine (b : Build) (d : InitValues) : State where
  x      := d.x
  flags  := d.flags
  run    := .halted
  fcause := 0#3
  finfo  := 0#17
  fpc    := 0#16
  mem    := []
  cfg    := ⟨b.memSize, b.alignPolicy, b.illegalPolicy, b.oMask, b.tableSize, [], none, none⟩
  out    := ⟨[], []⟩

theorem construct_eq_placeBytes (b : Build) (d : InitValues) :
    construct b d = placeBytes (blankEngine b d) d.bytes := rfl

/-- Placing bytes changes memory alone. -/
theorem placeBytes_eq (s : State) (bytes : List (Nat × Byte)) :
    ∃ m, placeBytes s bytes = { s with mem := m } := by
  induction bytes generalizing s with
  | nil => exact ⟨s.mem, rfl⟩
  | cons c rest ih =>
    obtain ⟨m, hm⟩ := ih (placeByte s c.1 c.2)
    refine ⟨m, hm.trans ?_⟩
    unfold placeByte
    split <;> rfl

theorem placeByte_memOk {s : State} (hm : s.memOk = true) (a : Nat) (b : Byte) :
    (placeByte s a b).memOk = true := by
  unfold placeByte
  split
  · next ha => exact State.memOk_setByteAt hm b ha
  · exact hm

theorem placeBytes_memOk {s : State} (hm : s.memOk = true) (bytes : List (Nat × Byte)) :
    (placeBytes s bytes).memOk = true := by
  induction bytes generalizing s with
  | nil => exact hm
  | cons c rest ih => exact ih (placeByte_memOk hm c.1 c.2)

theorem byteAt_placeByte_same {s : State} (hm : s.memOk = true) {a : Nat} (b : Byte)
    (ha : a < s.cfg.memSize) : (placeByte s a b).byteAt a = b := by
  rw [placeByte, if_pos ha, State.byteAt_setByteAt s (State.wf_of_memOk hm), if_pos rfl]

theorem byteAt_placeByte_of_ne {s : State} (hm : s.memOk = true) {a i : Nat} (b : Byte)
    (hi : i ≠ a) : (placeByte s a b).byteAt i = s.byteAt i := by
  unfold placeByte
  split
  · rw [State.byteAt_setByteAt s (State.wf_of_memOk hm), if_neg hi]
  · rfl

/-- A byte no entry names is as it was. -/
theorem byteAt_placeBytes_of_ne {s : State} (hm : s.memOk = true) {bytes : List (Nat × Byte)}
    {i : Nat} (h : ∀ c ∈ bytes, c.1 ≠ i) : (placeBytes s bytes).byteAt i = s.byteAt i := by
  induction bytes generalizing s with
  | nil => rfl
  | cons c rest ih =>
    obtain ⟨hc, hrest⟩ := List.forall_mem_cons.1 h
    exact (ih (placeByte_memOk hm c.1 c.2) hrest).trans (byteAt_placeByte_of_ne hm c.2 hc.symm)

/-- The last entry for a byte of memory counts (log 22). -/
theorem byteAt_placeBytes_last {s : State} (hm : s.memOk = true) (pre : List (Nat × Byte))
    {post : List (Nat × Byte)} {a : Nat} (v : Byte) (hpost : ∀ c ∈ post, c.1 ≠ a)
    (ha : a < s.cfg.memSize) : (placeBytes s (pre ++ (a, v) :: post)).byteAt a = v := by
  have hpre := placeBytes_memOk hm pre
  obtain ⟨m, heq⟩ := placeBytes_eq s pre
  have hcfg : (placeBytes s pre).cfg = s.cfg := by rw [heq]
  have happend : placeBytes s (pre ++ (a, v) :: post)
      = placeBytes (placeByte (placeBytes s pre) a v) post := by
    simp [placeBytes]
  rw [happend, byteAt_placeBytes_of_ne (placeByte_memOk hpre a v) hpost,
    byteAt_placeByte_same hpre v (hcfg ▸ ha)]

/-! ## The obligations -/

/-- Settles O18, field by field. -/
theorem resetStateValues : Obligations.ResetStateValues := ⟨rfl, by decide, rfl, rfl, rfl⟩

/-- Settles O20, with the draw given and by default. -/
theorem resetTransactions : Obligations.ResetTransactions := by
  refine ⟨fun s draw => ⟨_, rfl, rfl, State.pc_setPc _ _, rfl, rfl, rfl, ?_⟩,
    fun s => ⟨_, rfl, rfl, fun _ => rfl, rfl, rfl, rfl, rfl, rfl, rfl⟩⟩
  cases draw with
  | none =>
    exact ⟨rfl, rfl, fun _ => ⟨rfl, fun r hr => reg_setPc_of_ne hr⟩, by simp⟩
  | some d =>
    refine ⟨rfl, rfl, by simp, ?_⟩
    rintro d' ⟨⟩
    exact ⟨rfl, fun r hr => reg_setPc_of_ne hr⟩

/-- Settles O21: a transaction that is no reset keeps the run state of a stopped engine, and so does
a step. -/
theorem onlyResetsLeaveAStop : Obligations.OnlyResetsLeaveAStop := by
  refine ⟨fun s t tx hrun h => ?_, fun s t hrun hstep => ?_⟩
  · by_cases hreset : ∃ draw, tx = .reset draw
    · obtain ⟨draw, rfl⟩ := hreset
      cases h
      simp [resetTx]
    · by_cases hhalt : tx = .resetToHalted
      · subst hhalt
        cases h
        simp [resetToHalted]
      · have hkept : t.run = s.run := ((hostTx_run hrun h).resolve_left hreset).resolve_left hhalt
        exact ⟨iff_of_false (hkept ▸ hrun) hreset,
          fun hfaulted => iff_of_false (by simp [hkept, hfaulted]) hhalt⟩
  · rw [step_of_not_running hrun] at hstep
    cases hstep
    rfl

/-- Settles O22: the draw of memory is placed in a blank engine, of which it changes memory
alone. -/
theorem constructionState : Obligations.ConstructionState := by
  intro b d
  have hblank : (blankEngine b d).memOk = true := rfl
  have hmem := placeBytes_memOk hblank d.bytes
  have hlast (pre post : List (Nat × Byte)) (a : Nat) (v : Byte)
      (hd : d.bytes = pre ++ (a, v) :: post) (hpost : ∀ c ∈ post, c.1 ≠ a) (ha : a < b.memSize) :
      (placeBytes (blankEngine b d) d.bytes).byteAt a = v :=
    hd ▸ byteAt_placeBytes_last hblank pre v hpost ha
  obtain ⟨m, heq⟩ := placeBytes_eq (blankEngine b d) d.bytes
  rw [heq] at hmem hlast
  rw [construct_eq_placeBytes, heq]
  refine ⟨rfl, rfl, rfl, rfl, rfl, fun _ => rfl, rfl, hlast, fun hlow hhigh htable => ?_⟩
  exact ⟨by simp [Config.wf, blankEngine, hlow, hhigh, htable], hmem,
    faultOk_of_run_ne (by simp [blankEngine])⟩

/-- Settles O23, write by write. -/
theorem hostWrites : Obligations.HostWrites := by
  intro s
  refine ⟨fun r v => ⟨_, rfl, ?_, fun q hq => ?_, rfl, rfl, ⟨rfl, rfl, rfl, rfl, rfl⟩, rfl⟩,
    fun f b => ⟨_, rfl, ?_, fun g hg => ?_, rfl, rfl, ⟨rfl, rfl, rfl, rfl, rfl⟩, rfl⟩,
    fun a b hm ha => ?_, fun a b ha => ⟨if_neg (Nat.not_lt.2 ha), if_neg (Nat.not_lt.2 ha)⟩,
    ?_, fun hrun => ?_, fun hrun => ?_, fun r hr hrun => ?_,
    fun c i p => ⟨_, rfl, rfl, rfl, rfl, rfl, rfl, rfl, rfl, rfl, rfl⟩⟩
  · simp
  · simp [hq]
  · simp
  · simp [hg]
  · have hbyte := State.byteAt_setByteAt s (State.wf_of_memOk hm) a b
    refine ⟨_, if_pos ha, ?_, fun i hi => ?_, rfl, rfl, ⟨rfl, rfl, rfl, rfl, rfl⟩, rfl⟩
    · simp [hostReadByte, ha, hbyte]
    · simp [hostReadByte, hi, hbyte]
  · exact hostTx_writeRun_refused (by simp)
  · exact hostTx_writeRun_refused (by simp [hrun])
  · exact hostTx_writeRun_refused (by simp [hrun])
  · have hallowed := runWriteAllowed_iff.2 ⟨hr, hrun⟩
    exact ⟨_, if_pos hallowed, rfl, rfl, rfl, rfl, rfl, rfl, rfl, rfl, rfl⟩

end Sys2Proof.Machine
